-- ==== Sys2Proof/Word.lean ====
section
/-! DEFINITION. The value types of the block (spec/00_scope.md R5, R8): words, bytes, addresses and lengths. -/

namespace Sys2Proof

/-- `Word` of R8: an unsigned 32-bit value (`W = 32`, R5). -/
abbrev Word := BitVec 32

/-- `Byte` of R8: an unsigned 8-bit value. -/
abbrev Byte := BitVec 8

/-- `Addr` of R8: an unsigned `AW`-bit value, `AW = 32` (R5, D5). -/
abbrev Addr := BitVec 32

/-- `Len` of R8: an unsigned `LW`-bit value, `LW = 32` (R5, D5). -/
abbrev Len := BitVec 32

end Sys2Proof
end

