-- ==== Sys2Proof/Syntax.lean ====
section
/-! DEFINITION. The operations of the block (spec/30_encoding.md R50), the words that carry them on the three
ports, and what the outside can do to the machine. -/

namespace Sys2Proof

/-- The eleven operations that have a row in spec/opcode_table.json (R50). BSWAP32 has no encoding and is
the pure function `Machine.bswap32`. -/
inductive Instr where
  /-- ENG.RESET, an engine request (R74). -/
  | engReset
  /-- ENG.WRITE `w`, an engine request; `w` in engine order (R75). -/
  | engWrite (w : Word)
  /-- ENG.READ, an engine request (R76). -/
  | engRead
  /-- FOLD0, a micro-operation (R91). -/
  | fold0
  /-- FOLD1, a micro-operation on one stream byte (R93). -/
  | fold1 (d0 : Byte)
  /-- FOLD2, a micro-operation on two stream bytes (R94). -/
  | fold2 (d0 d1 : Byte)
  /-- FOLD3, a micro-operation on three stream bytes (R95). -/
  | fold3 (d0 d1 d2 : Byte)
  /-- WORD, a micro-operation on one word in engine order (R97). -/
  | word (w : Word)
  /-- START, a host command (R100). -/
  | start (seed : Word)
  /-- PROCESS, a host command over the buffer of `len` bytes at `addr` (R102). -/
  | process (addr : Addr) (len : Len)
  /-- FINISH, a host command (R110). -/
  | finish
  deriving DecidableEq, Repr

/-- The names of the operations (R50). -/
inductive Mnemonic where
  | engReset | engWrite | engRead
  | fold0 | fold1 | fold2 | fold3 | word
  | start | process | finish
  deriving DecidableEq, Repr

/-- The bits of one operation on the port that carries it. -/
inductive PortWord where
  /-- The 96-bit descriptor `CMD` on the host command port (R51). -/
  | command (c : BitVec 96)
  /-- The 34-bit request `ENGREQ` on the engine port (R55). -/
  | engine (r : BitVec 34)
  /-- The 3-bit micro-operation label `UOP` (R58) and the operands carried with it. R58 gives the operands no
  bits: the model holds them in one word, the first stream byte in bits 31:24 (assumption log 6). -/
  | microOp (label : BitVec 3) (data : Word)
  deriving DecidableEq, Repr

/-- One row of spec/opcode_table.json for a port of width `n`: a word `x` selects it when
`x & mask = value` (R52). -/
structure Row (n : Nat) where
  mnemonic : Mnemonic
  value : BitVec n
  mask : BitVec n
  deriving DecidableEq, Repr

/-- What can happen to the machine from outside a step (R152, and R133, R148 for the other agents). -/
inductive Input where
  /-- One operation arrives on its port. A host only ever sends a `command` (R152). An `engine` request or a
  `microOp` here is the block's own, run as a step of its own (R7; assumption log 5). -/
  | port (p : PortWord)
  /-- An engine request of an agent that is not the block (R133, R146). -/
  | foreign (r : BitVec 34)
  /-- The hardware reset event (R140). -/
  | hardwareReset
  /-- A hardware reset during the command with descriptor `c` (R140; spec/93_implementation_defined.md U19), when the
  command has put `n` of its memory reads and engine requests on its ports and before its response. The last of the
  `n` may or may not have reached the engine. A command with fewer than `n` has put all of them. -/
  | resetDuring (c : BitVec 96) (n : Nat)
  /-- The platform changes buffer memory between commands (R142, R148): the byte at `a` becomes readable with
  a value, or unreadable (`none`). -/
  | setByte (a : Addr) (v : Option Byte)
  deriving DecidableEq, Repr

/-- The 0 to 3 data bytes of one sub-word fold, in stream order: the 4-valued type that
spec/93_implementation_defined.md U6 asks a fold to take its byte count from. -/
inductive SubWord where
  | zero
  | one (d0 : Byte)
  | two (d0 d1 : Byte)
  | three (d0 d1 d2 : Byte)
  deriving DecidableEq, Repr

/-- The split of a buffer (spec/43_session_commands.md R103). -/
structure Split where
  lead : Fin 4
  words : Nat
  tail : Fin 4
  deriving DecidableEq, Repr

end Sys2Proof
end

