-- ==== Sys2Proof/WellFormed.lean ====
section
/-! DEFINITION. Which port words a conforming agent sends (spec/30_encoding.md R54, R56, R58). Every operand of
`Instr` is a whole field used as it stands (R53), so every term of `Instr` is well formed; the checks are on the
words. -/

namespace Sys2Proof

/-- A legal descriptor (R54), said through the rows of R52. -/
def wellFormedCommand (c : BitVec 96) : Bool :=
  c &&& 0xFFFFFFFF00000000FFFFFFFF#96 == 0#96
    || c &&& 0xFFFFFFFF#96 == 1#96
    || c == 2#96

/-- A request the block may issue (R56): never `EOP = 0b11`, and ENG.RESET and ENG.READ only with `DATA = 0`. -/
def wellFormedEngine (r : BitVec 34) : Bool :=
  r == 0#34 || r &&& 0x300000000#34 == 0x100000000#34 || r == 0x200000000#34

/-- A label that is generated (R58), with no operand bits beyond the label's operands (assumption log 6). -/
def wellFormedMicroOp (label : BitVec 3) (data : Word) : Bool :=
  label == 0#3 && data == 0#32
    || label == 1#3 && data &&& 0x00FFFFFF#32 == 0#32
    || label == 2#3 && data &&& 0x0000FFFF#32 == 0#32
    || label == 3#3 && data &&& 0x000000FF#32 == 0#32
    || label == 4#3

/-- The port words a conforming agent sends. -/
def PortWord.wellFormed : PortWord → Bool
  | .command c => wellFormedCommand c
  | .engine r => wellFormedEngine r
  | .microOp label data => wellFormedMicroOp label data

end Sys2Proof
end

