-- ==== Sys2Proof/Decode.lean ====
section
/-! DEFINITION. The decoders of the three ports (spec/30_encoding.md R51 to R58, R63), total, rejecting by name;
then the encoder; then the opcode table's rows. -/

namespace Sys2Proof

/-- Why a port word is no operation. -/
inductive Reject where
  /-- `RSV0 != 0` (R54). -/
  | reservedField
  /-- `OP = 0b11` (R54). -/
  | reservedOperation
  /-- START with `B != 0` (R54). -/
  | startOperand
  /-- FINISH with `A != 0` or `B != 0` (R54). -/
  | finishOperand
  /-- `EOP = 0b11` (R55, R56). -/
  | reservedEngineRequest
  /-- A label `0b101`, `0b110` or `0b111` (R58). -/
  | reservedMicroOp
  deriving DecidableEq, Repr

/-- `OP = CMD[1:0]` (R51). -/
def cmdOp (c : BitVec 96) : BitVec 2 := c.extractLsb' 0 2

/-- `RSV0 = CMD[31:2]` (R51). -/
def cmdRsv0 (c : BitVec 96) : BitVec 30 := c.extractLsb' 2 30

/-- `A = CMD[63:32]` (R51). -/
def cmdA (c : BitVec 96) : Word := c.extractLsb' 32 32

/-- `B = CMD[95:64]` (R51). -/
def cmdB (c : BitVec 96) : Word := c.extractLsb' 64 32

/-- `EOP = ENGREQ[33:32]` (R55). -/
def reqEop (r : BitVec 34) : BitVec 2 := r.extractLsb' 32 2

/-- `DATA = ENGREQ[31:0]` (R55). -/
def reqData (r : BitVec 34) : Word := r.extractLsb' 0 32

/-- Byte position `p` of a word, position 3 the most significant (R8). -/
def byteAt (w : Word) (p : Nat) : Byte := w.extractLsb' (8 * p) 8

/-- The decode function of R63, each illegal shape of R54 under its own name. -/
def decodeCommand (c : BitVec 96) : Except Reject Instr :=
  if cmdRsv0 c ≠ 0 then .error .reservedField
  else if cmdOp c = 0 then
    if cmdB c = 0 then .ok (.start (cmdA c)) else .error .startOperand
  else if cmdOp c = 1 then .ok (.process (cmdA c) (cmdB c))
  else if cmdOp c = 2 then
    if cmdA c = 0 ∧ cmdB c = 0 then .ok .finish else .error .finishOperand
  else .error .reservedOperation

/-- The engine's reading of a request (R55): `DATA` is ignored on ENG.RESET and ENG.READ (assumption log 7). -/
def decodeEngine (r : BitVec 34) : Except Reject Instr :=
  if reqEop r = 0 then .ok .engReset
  else if reqEop r = 1 then .ok (.engWrite (reqData r))
  else if reqEop r = 2 then .ok .engRead
  else .error .reservedEngineRequest

/-- The micro-operation of a label and the operands carried with it (R58). -/
def decodeMicroOp (label : BitVec 3) (data : Word) : Except Reject Instr :=
  if label = 0 then .ok .fold0
  else if label = 1 then .ok (.fold1 (byteAt data 3))
  else if label = 2 then .ok (.fold2 (byteAt data 3) (byteAt data 2))
  else if label = 3 then .ok (.fold3 (byteAt data 3) (byteAt data 2) (byteAt data 1))
  else if label = 4 then .ok (.word data)
  else .error .reservedMicroOp

/-- The operation a port word carries. -/
def decode : PortWord → Except Reject Instr
  | .command c => decodeCommand c
  | .engine r => decodeEngine r
  | .microOp label data => decodeMicroOp label data

/-- The port word of an operation: R63 for the host commands (`START s` is `0, s, 0`, `PROCESS a n` is `n, a, 1`,
`FINISH` is `0, 0, 2`, most significant word first), R55 for the engine requests, R58 for the micro-operations. -/
def encode : Instr → PortWord
  | .engReset => .engine (0#2 ++ 0#32)
  | .engWrite w => .engine (1#2 ++ w)
  | .engRead => .engine (2#2 ++ 0#32)
  | .fold0 => .microOp 0#3 0#32
  | .fold1 d0 => .microOp 1#3 (d0 ++ 0#24)
  | .fold2 d0 d1 => .microOp 2#3 (d0 ++ d1 ++ 0#16)
  | .fold3 d0 d1 d2 => .microOp 3#3 (d0 ++ d1 ++ d2 ++ 0#8)
  | .word w => .microOp 4#3 w
  | .start seed => .command (0#32 ++ seed ++ 0#32)
  | .process addr len => .command (len ++ addr ++ 1#32)
  | .finish => .command (0#32 ++ 0#32 ++ 2#32)

/-- The name of an operation (R50). -/
def Instr.mnemonic : Instr → Mnemonic
  | .engReset => .engReset
  | .engWrite _ => .engWrite
  | .engRead => .engRead
  | .fold0 => .fold0
  | .fold1 _ => .fold1
  | .fold2 _ _ => .fold2
  | .fold3 _ _ _ => .fold3
  | .word _ => .word
  | .start _ => .start
  | .process _ _ => .process
  | .finish => .finish

/-- The three rows of the host command port (R52). -/
def commandRows : List (Row 96) :=
  [⟨.start, 0x000000000000000000000000#96, 0xFFFFFFFF00000000FFFFFFFF#96⟩,
   ⟨.process, 0x000000000000000000000001#96, 0x0000000000000000FFFFFFFF#96⟩,
   ⟨.finish, 0x000000000000000000000002#96, 0xFFFFFFFFFFFFFFFFFFFFFFFF#96⟩]

/-- The three rows of the engine port (R55). -/
def engineRows : List (Row 34) :=
  [⟨.engReset, 0x000000000#34, 0x300000000#34⟩,
   ⟨.engWrite, 0x100000000#34, 0x300000000#34⟩,
   ⟨.engRead, 0x200000000#34, 0x300000000#34⟩]

/-- The five rows of the micro-operation labels (R58). -/
def microOpRows : List (Row 3) :=
  [⟨.fold0, 0#3, 7#3⟩, ⟨.fold1, 1#3, 7#3⟩, ⟨.fold2, 2#3, 7#3⟩, ⟨.fold3, 3#3, 7#3⟩, ⟨.word, 4#3, 7#3⟩]

/-- The names of the rows a word of one port selects: `x & mask = value` (R52). -/
def selectRows {n : Nat} (rows : List (Row n)) (x : BitVec n) : List Mnemonic :=
  (rows.filter fun row => x &&& row.mask == row.value).map (·.mnemonic)

/-- The names of the rows of spec/opcode_table.json that a port word selects. -/
def selectedMnemonics : PortWord → List Mnemonic
  | .command c => selectRows commandRows c
  | .engine r => selectRows engineRows r
  | .microOp label _ => selectRows microOpRows label

/-- The port word of `nbits` bits of value `w`, bit 0 of the table being bit 0 of the field. The width names the
port: up to 8 bits a micro-operation label (3 bits), 33 to 40 bits an engine request (34 bits), any other width up
to 96 bits a descriptor whose higher bits are 0. A value with a bit beyond its format is none. -/
def tablePortWord (nbits w : Nat) : Option PortWord :=
  if nbits ≤ 8 then
    if w < 2 ^ 3 then some (.microOp (BitVec.ofNat 3 w) 0#32) else none
  else if 33 ≤ nbits ∧ nbits ≤ 40 then
    if w < 2 ^ 34 then some (.engine (BitVec.ofNat 34 w)) else none
  else
    if nbits ≤ 96 ∧ w < 2 ^ 96 then some (.command (BitVec.ofNat 96 w)) else none

/-- The operation the decoder reads from `nbits` bits of value `w`. -/
def decodeTableWord (nbits w : Nat) : Option Instr :=
  match tablePortWord nbits w with
  | none => none
  | some p =>
    match decode p with
    | .ok i => some i
    | .error _ => none

end Sys2Proof
end

