-- ==== Sys2Proof/Config.lean ====
section
/-! DEFINITION. The fixed constants of the engine (spec/00_scope.md R5, R6) and the one source of free values. -/

namespace Sys2Proof

/-- `C0`, the engine's fixed reset constant (R5, R6). -/
def Config.C0 : Word := 0xFFFFFFFF#32

/-- `POLY`, the engine's fixed generator polynomial, the x^32 term implicit (R5, R6). -/
def Config.POLY : Word := 0x04C11DB7#32

/-- The values the spec leaves "unspecified (any value)" after a hardware reset (spec/70_reset_and_hazards.md
R140, spec/93_implementation_defined.md U4, U5, U19): the n-th of them. It has no body, so nothing can be proved
about a value of it (assumption log 3). -/
opaque Config.freeWord : Nat → Word

end Sys2Proof
end

