-- ==== Sys2Proof/Machine/Crc.lean ====
section
/-! DEFINITION. The CRC functions (spec/40_engine_primitives.md R70 to R73, R77). -/

namespace Sys2Proof.Machine

/-- `crc_bit`, one step of the bit-serial shift register (R70). -/
def crcBit (c : Word) (b : Bool) : Word :=
  if (c.msb ^^ b) = true then (c <<< 1) ^^^ Config.POLY else c <<< 1

/-- `crc_byte`, the bits of a byte most significant first (R71). -/
def crcByte (c : Word) (d : Byte) : Word :=
  [7, 6, 5, 4, 3, 2, 1, 0].foldl (fun c i => crcBit c (d.getLsbD i)) c

/-- `crc_bytes`, the reference function (R72). -/
def crcBytes : Word → List Byte → Word
  | c, [] => c
  | c, d :: ds => crcBytes (crcByte c d) ds

/-- `crc_word`, the bytes of a word most significant first (R73). -/
def crcWord (c w : Word) : Word :=
  crcBytes c [w.extractLsb' 24 8, w.extractLsb' 16 8, w.extractLsb' 8 8, w.extractLsb' 0 8]

/-- `T32(x) = crc_word(x, 0)` (R77). -/
def t32 (x : Word) : Word := crcWord x 0

end Sys2Proof.Machine
end

