-- ==== Sys2Proof/Machine/State.lean ====
section
/-! DEFINITION. The state of one SWC32 instance with its engine (spec/10_state.md R10), the two open memory
parameters (R22, R41), and the model's own records of what the spec calls observable (R21, R57, R151). -/

namespace Sys2Proof.Machine

/-- `PHASE`, one bit (R14). -/
inductive Phase where
  /-- No session is open (0). -/
  | CLOSED
  /-- Between a START and the next FINISH (1). -/
  | OPEN
  deriving DecidableEq, Repr

/-- The four faults with the info reported with each (spec/60_exceptions.md R120). -/
inductive FaultInfo where
  /-- Code 1, by command decode: the descriptor's 96 bits (R122). -/
  | illegalCommand (descriptor : BitVec 96)
  /-- Code 2, by PROCESS and FINISH with no open session: the command's name (R121). -/
  | protocolViolation (command : Mnemonic)
  /-- Code 3, by PROCESS on a buffer past the top of the address space (R124). -/
  | bufferRange (addr : Addr) (len : Len)
  /-- Code 4, by a read of PROCESS: the lowest unreadable address touched (R125). -/
  | busFault (addr : Addr)
  deriving DecidableEq, Repr

/-- The response `RSP` to one host command (spec/30_encoding.md R51). -/
structure Response where
  /-- `RSP[34:32]`. -/
  status : BitVec 3
  /-- `RSP[31:0]`. -/
  value : Word
  deriving DecidableEq, Repr

/-- What a trace records: the engine requests (R57) and the completed memory reads (spec/43_session_commands.md
R107). -/
inductive Event where
  | engReset
  | engWrite (w : Word)
  /-- ENG.READ and the value the engine answered. -/
  | engRead (v : Word)
  /-- `MemRead(a, 1)` and the byte it returned. -/
  | memRead1 (a : Addr) (b : Byte)
  /-- `MemRead(a, 4)` and the word in memory order it returned. -/
  | memRead4 (a : Addr) (w : Word)
  deriving DecidableEq, Repr

/-- Buffer memory: the readable addresses, each with its byte. An address that is not listed is unreadable
(`Readable = false`); assumption log 2. -/
abbrev Memory := List Host.Cell

/-- The machine's state. -/
structure State where
  /-- `CORR`, the correction register (R11). -/
  corr : Word
  /-- `REG`, the engine's register (R12). -/
  reg : Word
  /-- `PHASE` (R14). -/
  phase : Phase
  /-- `FAULT`, the sticky 3-bit fault code (R16). -/
  fault : BitVec 3
  /-- `PTR`, the address of the next unread buffer byte of a PROCESS (R15). -/
  ptr : Addr
  /-- `CNT`, the number of buffer bytes a PROCESS has not yet folded (R15). -/
  cnt : Len
  /-- `Readable` and `Mem`, the two open parameters (spec/20_memory.md R41, R44). -/
  mem : Memory
  /-- The model's own: the info reported with the recorded fault (R120, R123). -/
  faultInfo : Option FaultInfo
  /-- The model's own: what the outside does next, oldest first (R7, R152). -/
  inputs : List Input
  /-- The model's own: every response given, oldest first (R151). -/
  responses : List Response
  /-- The model's own: every engine request and memory read, oldest first (R57). -/
  trace : List Event
  /-- The model's own: how many free values have been drawn (assumption log 3). -/
  fresh : Nat
  deriving DecidableEq, Repr

/-- No step stops with a fault: every fault the spec gives is entered as R123 says and leaves a next state
(assumption log 4), so this type has no constructor. -/
inductive Fault where
  deriving DecidableEq, Repr

/-- Why a step has no next state. -/
inductive Refusal where
  /-- Raised by `exec` for an instruction with no meaning yet: none is left. Safe. -/
  | notModelled (mnemonic : String)
  /-- Raised by the fetch of an engine request with `EOP = 0b11`, which R56 leaves unspecified and asks to be
  refused. Safe. -/
  | reservedEngineRequest (request : BitVec 34)
  /-- Raised by the fetch of an ENG.RESET or ENG.READ request with non-zero `DATA`, which the block never issues (R56)
  and spec/93_implementation_defined.md U8 asks a model of the engine to refuse (assumption log 7). Safe. -/
  | engineRequestData (request : BitVec 34)
  /-- Raised by the fetch of a micro-operation label that is never generated (R58). Safe. -/
  | reservedMicroOp (label : BitVec 3)
  /-- Raised by the fetch of another agent's engine request while `PHASE = OPEN`: R146 gives it no move. Unsafe:
  R146 itself calls it an assumption about the host that errs toward proving (assumption log 8). -/
  | foreignEngineRequest (request : BitVec 34)
  deriving DecidableEq, Repr

/-- What one part of a PROCESS ends in: a value and the state after it, or a raised fault and the state at the
moment of the raise. -/
inductive Access (α : Type) where
  | done (a : α) (s : State)
  | stopped (info : FaultInfo) (s : State)
  deriving DecidableEq, Repr

/-- What the fetch of the next input gives: an operation to run, or an outcome that no operation takes part in. -/
inductive Fetched where
  | run (i : Instr) (s : State)
  | settled (o : Host.Outcome State Fault Refusal)
  deriving Repr

/-- The machine after a hardware reset (R20). `PHASE` and `FAULT` are the spec's; R20 leaves `CORR`, `REG`, `PTR`
and `CNT` unspecified and assumption log 1 names the values here. No memory is readable and nothing has arrived
yet. -/
def State.reset : State where
  corr := 0x9ABCDEF0#32
  reg := 0x12345678#32
  phase := .CLOSED
  fault := 0#3
  ptr := 0#32
  cnt := 0#32
  mem := []
  faultInfo := none
  inputs := []
  responses := []
  trace := []
  fresh := 0

end Sys2Proof.Machine
end

