-- ==== Sys2Proof/Machine/Flags.lean ====
section
/-! DEFINITION. The block has no condition codes (spec/10_state.md R17). Its flag-like state is `PHASE` and `FAULT`:
here are the codes `FAULT` takes and the conditions the commands test (spec/60_exceptions.md R120, R126). -/

namespace Sys2Proof.Machine

/-- The code of a fault (R120). -/
def faultCode : FaultInfo → BitVec 3
  | .illegalCommand _ => 1#3
  | .protocolViolation _ => 2#3
  | .bufferRange _ _ => 3#3
  | .busFault _ => 4#3

/-- The code `FAULT` holds for what has been recorded (R16). -/
def recordedCode : Option FaultInfo → BitVec 3
  | none => 0#3
  | some info => faultCode info

/-- The one bit of `PHASE` (R14). -/
def phaseBit : Phase → BitVec 1
  | .CLOSED => 0#1
  | .OPEN => 1#1

/-- The 35 bits of a response (spec/30_encoding.md R51). -/
def responseBits (r : Response) : BitVec 35 := r.status ++ r.value

/-- `zext_33(addr) + zext_33(len) > 2^32` (R124), on exact values. -/
def pastTop (addr : Addr) (len : Len) : Bool := 2 ^ 32 < addr.toNat + len.toNat

end Sys2Proof.Machine
end

