-- ==== Sys2Proof/Machine/Memory.lean ====
section
/-! DEFINITION. Buffer memory as a finite map from address to byte, in one canonical form: addresses strictly
rising, all below 2^32 (spec/20_memory.md R30, R33, R41). -/

namespace Sys2Proof.Machine

/-- The canonical form. -/
abbrev Memory.wf (m : Memory) : Prop :=
  m.Pairwise (fun c d => c.1 < d.1) ∧ ∀ c ∈ m, c.1 < 2 ^ 32

/-- The byte at an address; `none` where the address is unreadable. -/
def Memory.lookup : Memory → Nat → Option Byte
  | [], _ => none
  | (b, v) :: m, a => if b = a then some v else Memory.lookup m a

/-- `Readable(a)` (R5, R41). -/
def Memory.readable (m : Memory) (a : Nat) : Bool := (Memory.lookup m a).isSome

/-- Make an address readable with a byte. -/
def Memory.write : Memory → Nat → Byte → Memory
  | [], a, v => [(a, v)]
  | (b, w) :: m, a, v =>
    if a < b then (a, v) :: (b, w) :: m
    else if a = b then (a, v) :: m
    else (b, w) :: Memory.write m a v

/-- Make an address unreadable. -/
def Memory.erase (m : Memory) (a : Nat) : Memory := m.filter fun c => c.1 != a

/-- One change of the platform (R142, R148). -/
def Memory.set (m : Memory) (a : Nat) : Option Byte → Memory
  | some v => Memory.write m a v
  | none => Memory.erase m a

end Sys2Proof.Machine
end

