-- ==== Sys2Proof/Machine/Operands.lean ====
section
/-! DEFINITION. The operand forms: byte order (spec/41_byte_order_normalizer.md R80, R82), the packing of 0 to 3
data bytes (spec/42_subword_corrector.md R90) and the split of a buffer (spec/43_session_commands.md R103). -/

namespace Sys2Proof.Machine

/-- BSWAP32 (R80). -/
def bswap32 (x : Word) : Word :=
  x.extractLsb' 0 8 ++ x.extractLsb' 8 8 ++ x.extractLsb' 16 8 ++ x.extractLsb' 24 8

/-- `be_word`, four stream bytes in engine order (R82). -/
def beWord (b0 b1 b2 b3 : Byte) : Word := b0 ++ b1 ++ b2 ++ b3

/-- A 4-byte read in memory order: the byte at the lowest address in bits 7:0 (spec/20_memory.md R34). -/
def leWord (b0 b1 b2 b3 : Byte) : Word := b3 ++ b2 ++ b1 ++ b0

/-- The stream bytes of a sub-word piece. -/
def subWordBytes : SubWord → List Byte
  | .zero => []
  | .one d0 => [d0]
  | .two d0 d1 => [d0, d1]
  | .three d0 d1 d2 => [d0, d1, d2]

/-- `k`, the number of data bytes. -/
def subWordCount : SubWord → Nat
  | .zero => 0
  | .one _ => 1
  | .two _ _ => 2
  | .three _ _ _ => 3

/-- `pack_hi(k, d)`, the source's `dataWord` (R90); used only to state laws. -/
def packHi : SubWord → Word
  | .zero => 0
  | .one d0 => d0 ++ 0#24
  | .two d0 d1 => d0 ++ d1 ++ 0#16
  | .three d0 d1 d2 => d0 ++ d1 ++ d2 ++ 0#8

/-- `pack_lo(k, d)`: the data bytes in the k lowest byte positions (R90). -/
def packLo : SubWord → Word
  | .zero => 0
  | .one d0 => 0#24 ++ d0
  | .two d0 d1 => 0#16 ++ (d0 ++ d1)
  | .three d0 d1 d2 => 0#8 ++ (d0 ++ d1 ++ d2)

/-- `lead` of R103: `min((4 - addr mod 4) mod 4, len)`. -/
def leadBytes (addr : Addr) (len : Len) : Nat :=
  min ((4 - addr.toNat % 4) % 4) len.toNat

/-- The split of R103: `words = (len - lead) div 4`, `tail = (len - lead) mod 4`. -/
def splitBuffer (addr : Addr) (len : Len) : Split where
  lead := Fin.ofNat 4 (leadBytes addr len)
  words := (len.toNat - leadBytes addr len) / 4
  tail := Fin.ofNat 4 ((len.toNat - leadBytes addr len) % 4)

end Sys2Proof.Machine
end

