-- ==== Sys2Proof/Machine/Ops.lean ====
section
/-! DEFINITION. The named operations over the state: responses and fault entry (spec/60_exceptions.md R123, R126), the
three engine requests (spec/40_engine_primitives.md R74 to R76), the two read primitives (spec/20_memory.md R33,
R34), the cursor (spec/10_state.md R15), the folds (spec/42_subword_corrector.md R92, R97), hardware reset
(spec/70_reset_and_hazards.md R140). -/

namespace Sys2Proof.Machine

/-! ## Responses and faults -/

/-- Answer the current host command (R51). -/
def respond (status : BitVec 3) (value : Word) (s : State) : State :=
  { s with responses := s.responses ++ [⟨status, value⟩] }

/-- Taking a fault: `raise F(info)` of R123. `FAULT` gets the code, the response is that code with value 0, and
everything else stays. -/
def raise (info : FaultInfo) (s : State) : State :=
  respond (faultCode info) 0 { s with fault := faultCode info, faultInfo := some info }

/-- A command received while `FAULT != 0`: inert, it reports the code (R126 step 1, R127). There is no return from a
fault; only `hardwareReset` clears one. -/
def stickyResponse (s : State) : State := respond s.fault 0 s

/-- The prologue every host command shares (R126): the sticky fault is reported before anything else is looked at. -/
def hostCommand (body : State → State) (s : State) : State :=
  if s.fault ≠ 0 then stickyResponse s else body s

/-- A descriptor that decodes to `Illegal` (R122, R126 step 2). -/
def illegalCommand (c : BitVec 96) (s : State) : State :=
  hostCommand (raise (.illegalCommand c)) s

/-! ## The engine port -/

/-- Record what happened on the engine port or the memory port (R57). -/
def record (e : Event) (s : State) : State := { s with trace := s.trace ++ [e] }

/-- `EngReset()` (R74). -/
def engReset (s : State) : State := record .engReset { s with reg := Config.C0 }

/-- `EngWrite(w)` (R75). -/
def engWrite (w : Word) (s : State) : State :=
  record (.engWrite w) { s with reg := crcWord s.reg w }

/-- `EngRead()`: the raw register, unchanged (R76). -/
def engRead (s : State) : Word × State := (s.reg, record (.engRead s.reg) s)

/-! ## The memory port -/

/-- Sequence two parts of a PROCESS: a raised fault ends it (R123). -/
def andThen {α β : Type} (x : Access α) (f : α → State → Access β) : Access β :=
  match x with
  | .done a s => f a s
  | .stopped info s => .stopped info s

/-- `MemRead(a, 1)` (R33). -/
def memRead1 (a : Addr) (s : State) : Access Byte :=
  match Memory.lookup s.mem a.toNat with
  | some b => .done b (record (.memRead1 a b) s)
  | none => .stopped (.busFault a) s

/-- `MemRead(a, 4)` (R34): one read in memory order, or `BusFault` at the lowest unreadable of the four addresses. It
is issued only at aligned addresses (R36), where none of the four additions wraps. -/
def memRead4 (a : Addr) (s : State) : Access Word :=
  match Memory.lookup s.mem a.toNat with
  | none => .stopped (.busFault a) s
  | some b0 =>
  match Memory.lookup s.mem (a + 1).toNat with
  | none => .stopped (.busFault (a + 1)) s
  | some b1 =>
  match Memory.lookup s.mem (a + 2).toNat with
  | none => .stopped (.busFault (a + 2)) s
  | some b2 =>
  match Memory.lookup s.mem (a + 3).toNat with
  | none => .stopped (.busFault (a + 3)) s
  | some b3 => .done (leWord b0 b1 b2 b3) (record (.memRead4 a (leWord b0 b1 b2 b3)) s)

/-- The `k` byte reads of a remainder, ascending from `PTR` (R107). -/
def readSubWord (k : Fin 4) (s : State) : Access SubWord :=
  match k with
  | 0 => .done .zero s
  | 1 =>
    andThen (memRead1 s.ptr s) fun d0 s1 => .done (.one d0) s1
  | 2 =>
    andThen (memRead1 s.ptr s) fun d0 s1 =>
    andThen (memRead1 (s.ptr + 1) s1) fun d1 s2 => .done (.two d0 d1) s2
  | 3 =>
    andThen (memRead1 s.ptr s) fun d0 s1 =>
    andThen (memRead1 (s.ptr + 1) s1) fun d1 s2 =>
    andThen (memRead1 (s.ptr + 2) s2) fun d2 s3 => .done (.three d0 d1 d2) s3

/-- The cursor after a micro-operation that folded `n` bytes (R15). -/
def advance (n : Nat) (s : State) : State :=
  { s with ptr := s.ptr + BitVec.ofNat 32 n, cnt := s.cnt - BitVec.ofNat 32 n }

/-! ## The folds -/

/-- `TRUE`, the true CRC (R8, R13). -/
def trueCrc (s : State) : Word := s.reg ^^^ s.corr

/-- The general formulas of R92 for `k` in 1 to 3: one raw read at the top, `t = r ^ CORR`, the synthetic word
`r ^ pack_lo ^ (t >> (32 - 8k))`, `CORR <- t << 8k`, one write. -/
def foldBytes (k : Nat) (packed : Word) (s : State) : State :=
  let read := engRead s
  let t := read.1 ^^^ read.2.corr
  let val := read.1 ^^^ packed ^^^ (t >>> (32 - 8 * k))
  engWrite val { read.2 with corr := t <<< (8 * k) }

/-- FOLDk: nothing for `k = 0` (R91), else R92. -/
def foldSubWord (d : SubWord) (s : State) : State :=
  match d with
  | .zero => s
  | .one d0 => foldBytes 1 (packLo (.one d0)) s
  | .two d0 d1 => foldBytes 2 (packLo (.two d0 d1)) s
  | .three d0 d1 d2 => foldBytes 3 (packLo (.three d0 d1 d2)) s

/-- WORD: the splice, on every word, and the zeroing in the same micro-operation (R97, R98). -/
def foldWord (w : Word) (s : State) : State :=
  { engWrite (w ^^^ s.corr) s with corr := 0 }

/-! ## The events that are no operation -/

/-- Hardware reset (R140): `PHASE` and `FAULT` as R20 says; `CORR`, `REG`, `PTR` and `CNT` become free values; no
engine request. Memory is not part of the block, and what has not arrived yet still arrives. -/
def hardwareReset (s : State) : State :=
  { s with
    phase := .CLOSED
    fault := 0
    faultInfo := none
    corr := Config.freeWord s.fresh
    reg := Config.freeWord (s.fresh + 1)
    ptr := Config.freeWord (s.fresh + 2)
    cnt := Config.freeWord (s.fresh + 3)
    fresh := s.fresh + 4 }

/-- The platform changes one byte of buffer memory between commands (R142, R148), never during one (R44, P-stable;
assumption log 11). -/
def setByte (a : Addr) (v : Option Byte) (s : State) : State :=
  { s with mem := Memory.set s.mem a.toNat v }

end Sys2Proof.Machine
end

