-- ==== Sys2Proof/Machine/Corrector.lean ====
section
/-! DEFINITION. The micro-operations (spec/42_subword_corrector.md R91, R93 to R95, R97). They are not host commands:
no prologue, no response, no fault. -/

namespace Sys2Proof.Machine

/-- FOLD0 (R91). -/
def execFold0 (s : State) : Host.Outcome State Fault Refusal := .next (foldSubWord .zero s)

/-- FOLD1 `d0` (R93). -/
def execFold1 (d0 : Byte) (s : State) : Host.Outcome State Fault Refusal :=
  .next (foldSubWord (.one d0) s)

/-- FOLD2 `d0 d1` (R94). -/
def execFold2 (d0 d1 : Byte) (s : State) : Host.Outcome State Fault Refusal :=
  .next (foldSubWord (.two d0 d1) s)

/-- FOLD3 `d0 d1 d2` (R95). -/
def execFold3 (d0 d1 d2 : Byte) (s : State) : Host.Outcome State Fault Refusal :=
  .next (foldSubWord (.three d0 d1 d2) s)

/-- WORD `w`, `w` in engine order (R97). -/
def execWord (w : Word) (s : State) : Host.Outcome State Fault Refusal := .next (foldWord w s)

end Sys2Proof.Machine
end

