-- ==== Sys2Proof/Machine/Engine.lean ====
section
/-! DEFINITION. The engine requests as operations (spec/40_engine_primitives.md R74 to R76). -/

namespace Sys2Proof.Machine

/-- ENG.RESET (R74). -/
def execEngReset (s : State) : Host.Outcome State Fault Refusal := .next (engReset s)

/-- ENG.WRITE `w` (R75). -/
def execEngWrite (w : Word) (s : State) : Host.Outcome State Fault Refusal := .next (engWrite w s)

/-- ENG.READ (R76): the answer is the event the trace records. -/
def execEngRead (s : State) : Host.Outcome State Fault Refusal := .next (engRead s).2

end Sys2Proof.Machine
end

