-- ==== Sys2Proof/Machine/Session.lean ====
section
/-! DEFINITION. The host commands (spec/43_session_commands.md R100, R102 to R107, R110), each behind the prologue of
spec/60_exceptions.md R126. -/

namespace Sys2Proof.Machine

/-- The body of START (R100). -/
def startBody (seed : Word) (s : State) : State :=
  respond 0 0 { engReset s with corr := Config.C0 ^^^ seed, phase := .OPEN }

/-- Steps 1 and 3 of PROCESS (R104, R106, R107): the bytes of a non-empty remainder are read, folded by one FOLDk, and
the cursor moves. An empty remainder is skipped: PROCESS generates no FOLD0. -/
def processRemainder (k : Fin 4) (s : State) : Access Unit :=
  if k = 0 then .done () s
  else andThen (readSubWord k s) fun d s1 => .done () (advance k.val (foldSubWord d s1))

/-- Step 2 of PROCESS (R105, R107): `n` iterations of one aligned read, one byte reversal and one WORD. -/
def processWords : Nat → State → Access Unit
  | 0, s => .done () s
  | n + 1, s =>
    andThen (memRead4 s.ptr s) fun m s1 => processWords n (advance 4 (foldWord (bswap32 m) s1))

/-- The three steps of PROCESS after its checks (R107). The loop `while CNT >= 4` runs `words` times (R103). -/
def processBuffer (addr : Addr) (len : Len) (s : State) : Access Unit :=
  let split := splitBuffer addr len
  andThen (processRemainder split.lead { s with ptr := addr, cnt := len }) fun _ s1 =>
  andThen (processWords split.words s1) fun _ s2 =>
  processRemainder split.tail s2

/-- How a PROCESS ends: completed (R102), or the fault entry at the read that raised it (R123, R128). -/
def endProcess : Access Unit → State
  | .done _ s => respond 0 0 s
  | .stopped info s => raise info s

/-- The body of PROCESS (R102, R107): the two checks in order, then the three steps. -/
def processBody (addr : Addr) (len : Len) (s : State) : State :=
  if s.phase = .CLOSED then raise (.protocolViolation .process) s
  else if pastTop addr len then raise (.bufferRange addr len) s
  else endProcess (processBuffer addr len s)

/-- The body of FINISH (R110). -/
def finishBody (s : State) : State :=
  if s.phase = .CLOSED then raise (.protocolViolation .finish) s
  else
    let read := engRead s
    respond 0 (read.1 ^^^ read.2.corr) { read.2 with phase := .CLOSED }

/-- START `seed` (R100). -/
def execStart (seed : Word) (s : State) : Host.Outcome State Fault Refusal :=
  .next (hostCommand (startBody seed) s)

/-- PROCESS `addr`, `len` (R102). Memory is fixed for the duration of the command: the first way of spec/20_memory.md
R44, under its premise P-stable (spec/70_reset_and_hazards.md R148, R153; assumption log 11). -/
def execProcess (addr : Addr) (len : Len) (s : State) : Host.Outcome State Fault Refusal :=
  .next (hostCommand (processBody addr len) s)

/-- FINISH (R110). -/
def execFinish (s : State) : Host.Outcome State Fault Refusal :=
  .next (hostCommand finishBody s)

end Sys2Proof.Machine
end

