-- ==== Sys2Proof/Machine/Dispatch.lean ====
section
/-! DEFINITION. The meaning of every operation of spec/opcode_table.json, one arm per row. -/

namespace Sys2Proof.Machine

/-- The meaning of an operation in a state. -/
def exec (i : Instr) (s : State) : Host.Outcome State Fault Refusal :=
  match i with
  | .engReset => Sys2Proof.Machine.execEngReset s
  | .engWrite w => Sys2Proof.Machine.execEngWrite w s
  | .engRead => Sys2Proof.Machine.execEngRead s
  | .fold0 => Sys2Proof.Machine.execFold0 s
  | .fold1 d0 => Sys2Proof.Machine.execFold1 d0 s
  | .fold2 d0 d1 => Sys2Proof.Machine.execFold2 d0 d1 s
  | .fold3 d0 d1 d2 => Sys2Proof.Machine.execFold3 d0 d1 d2 s
  | .word w => Sys2Proof.Machine.execWord w s
  | .start seed => Sys2Proof.Machine.execStart seed s
  | .process addr len => Sys2Proof.Machine.execProcess addr len s
  | .finish => Sys2Proof.Machine.execFinish s

end Sys2Proof.Machine
end

