-- ==== Sys2Proof/Machine/Fetch.lean ====
section
/-! DEFINITION. What the next input of the queue makes the machine do. The block fetches no instructions (spec/10_state.md
R15): operations arrive on its ports, one at a time (spec/20_memory.md R43). -/

namespace Sys2Proof.Machine

/-- A host command arrives (R126): the sticky fault and the illegal descriptor come before the command. -/
def fetchCommand (c : BitVec 96) (s : State) : Fetched :=
  match decodeCommand c with
  | .ok i => .run i s
  | .error _ => .settled (.next (illegalCommand c s))

/-- An engine request arrives at the engine (R55). What R56 says the block never issues is refused, as
spec/93_implementation_defined.md U8 asks: `EOP = 0b11`, and ENG.RESET or ENG.READ with non-zero `DATA` (assumption
log 7). -/
def fetchEngine (r : BitVec 34) (s : State) : Fetched :=
  match decodeEngine r with
  | .ok i => if wellFormedEngine r then .run i s else .settled (.refused (.engineRequestData r))
  | .error _ => .settled (.refused (.reservedEngineRequest r))

/-- A micro-operation is generated (R58). -/
def fetchMicroOp (label : BitVec 3) (data : Word) (s : State) : Fetched :=
  match decodeMicroOp label data with
  | .ok i => .run i s
  | .error _ => .settled (.refused (.reservedMicroOp label))

/-- An engine request of another agent: no move while a session is open (R146; assumption log 8), else the engine's
own meaning (R79, R133). DESIGN CHOICE: such a request goes into the same trace as the block's own and is not told apart
there, while R57 speaks of what the block does to the engine only (assumption log 16). -/
def fetchForeign (r : BitVec 34) (s : State) : Fetched :=
  if s.phase = .OPEN then .settled (.refused (.foreignEngineRequest r)) else fetchEngine r s

/-- The memory reads and engine requests that a command puts on its ports when nothing abandons it, in order (R107).
An illegal descriptor has none (R122). -/
def commandEvents (c : BitVec 96) (s : State) : List Event :=
  match decodeCommand c with
  | .error _ => []
  | .ok i =>
    match exec i s with
    | .next t => t.trace.drop s.trace.length
    | .fault _ => []
    | .refused _ => []

/-- Hardware reset during a command (R140): the command is abandoned after its first `n` events, with no response, and
the machine is as after any hardware reset. -/
def resetDuring (c : BitVec 96) (n : Nat) (s : State) : State :=
  hardwareReset { s with trace := s.trace ++ (commandEvents c s).take n }

/-- One input taken from the queue. -/
def fetchInput (input : Input) (s : State) : Fetched :=
  match input with
  | .port (.command c) => fetchCommand c s
  | .port (.engine r) => fetchEngine r s
  | .port (.microOp label data) => fetchMicroOp label data s
  | .foreign r => fetchForeign r s
  | .hardwareReset => .settled (.next (hardwareReset s))
  | .resetDuring c n => .settled (.next (resetDuring c n s))
  | .setByte a v => .settled (.next (setByte a v s))

/-- The next input, taken from the queue; with nothing waiting the block is idle with its state held
(spec/60_exceptions.md R135). -/
def fetch (s : State) : Fetched :=
  match s.inputs with
  | [] => .settled (.next s)
  | input :: rest => fetchInput input { s with inputs := rest }

/-- The operation of a table row put where the next step takes it from: at the head of the queue. -/
def placeTableWord (s : State) (nbits w : Nat) : State :=
  match tablePortWord nbits w with
  | some p => { s with inputs := .port p :: s.inputs }
  | none => s

end Sys2Proof.Machine
end

