-- ==== Sys2Proof/Safety.lean ====
section
/-! DEFINITION. The terms in which claims are made: the invariant, who makes which move, buffers and their bytes, the
events a PROCESS leaves, whole sessions, and what the host cannot see. -/

namespace Sys2Proof.Machine

/-! ## The invariant -/

/-- No word read of a trace is misaligned (spec/20_memory.md R36). -/
def wordReadsAligned (events : List Event) : Prop :=
  ∀ a w, Event.memRead4 a w ∈ events → a.toNat % 4 = 0

/-- A response is one R51 allows: status 0 or one of the four codes, and no value beside a fault code. -/
def responseLegal (r : Response) : Prop :=
  r.status.toNat ≤ 4 ∧ (r.status ≠ 0 → r.value = 0)

/-- What every step keeps: memory in its canonical form, `FAULT` the code of the recorded fault (so one of 0 to 4,
R120), every response legal, every word read aligned. -/
def State.Inv (s : State) : Prop :=
  Memory.wf s.mem ∧ s.fault = recordedCode s.faultInfo ∧
    (∀ r ∈ s.responses, responseLegal r) ∧ wordReadsAligned s.trace

/-! ## Who moves -/

/-- A move of the host or of the platform around it (R152, R142, R148): no micro-operation and no engine request. -/
def hostMove : Input → Bool
  | .port (.command _) => true
  | .port (.engine _) => false
  | .port (.microOp _ _) => false
  | .foreign _ => false
  | .hardwareReset => true
  | .resetDuring _ _ => true
  | .setByte _ _ => true

/-- The hardware reset event, between commands or during one (R140). -/
def isReset : Input → Bool
  | .port _ => false
  | .foreign _ => false
  | .hardwareReset => true
  | .resetDuring _ _ => true
  | .setByte _ _ => false

/-- A host command, as an operation (R50). -/
def isHostCommand : Instr → Bool
  | .start _ => true
  | .process _ _ => true
  | .finish => true
  | .engReset => false
  | .engWrite _ => false
  | .engRead => false
  | .fold0 => false
  | .fold1 _ => false
  | .fold2 _ _ => false
  | .fold3 _ _ _ => false
  | .word _ => false

/-- FOLDk as an operation, for the 0 to 3 data bytes `d`. -/
def foldInstr : SubWord → Instr
  | .zero => .fold0
  | .one d0 => .fold1 d0
  | .two d0 d1 => .fold2 d0 d1
  | .three d0 d1 d2 => .fold3 d0 d1 d2

/-- The stream bytes a micro-operation folds (R96, R98); none for every other operation. -/
def foldedBytes : Instr → List Byte
  | .fold1 d0 => [d0]
  | .fold2 d0 d1 => [d0, d1]
  | .fold3 d0 d1 d2 => [d0, d1, d2]
  | .word w => [w.extractLsb' 24 8, w.extractLsb' 16 8, w.extractLsb' 8 8, w.extractLsb' 0 8]
  | .fold0 => []
  | .engReset => []
  | .engWrite _ => []
  | .engRead => []
  | .start _ => []
  | .process _ _ => []
  | .finish => []

/-- Operations one after another. -/
def execAll : List Instr → State → Host.Outcome State Fault Refusal
  | [], s => .next s
  | i :: is, s =>
    match exec i s with
    | .next t => execAll is t
    | .fault r => .fault r
    | .refused r => .refused r

/-! ## Buffers -/

/-- The `n` bytes from address `a` up, where every one of them is readable (R32). -/
def bufferBytes (m : Memory) : Nat → Nat → Option (List Byte)
  | _, 0 => some []
  | a, n + 1 =>
    match Memory.lookup m a, bufferBytes m (a + 1) n with
    | some b, some bs => some (b :: bs)
    | _, _ => none

/-- The buffer (`addr`, `len`) lies in the address space (R39) and holds the bytes `bs`, all readable. -/
def bufferHolds (m : Memory) (addr : Addr) (len : Len) (bs : List Byte) : Prop :=
  addr.toNat + len.toNat ≤ 2 ^ 32 ∧ bufferBytes m addr.toNat len.toNat = some bs

/-- How many bytes of a PROCESS have been folded when the read of the byte at offset `j` raises `BusFault`: the bytes
of the pieces completed before it (R128). -/
def foldedBefore (addr : Addr) (len : Len) (j : Nat) : Nat :=
  let split := splitBuffer addr len
  if j < split.lead.val then 0
  else if j < split.lead.val + 4 * split.words then
    split.lead.val + 4 * ((j - split.lead.val) / 4)
  else split.lead.val + 4 * split.words

/-! ## The micro-operations of a PROCESS -/

/-- The micro-operation of a remainder (R104, R106); none for an empty one. -/
def remainderOps : List Byte → List Instr
  | [d0] => [.fold1 d0]
  | [d0, d1] => [.fold2 d0 d1]
  | [d0, d1, d2] => [.fold3 d0 d1 d2]
  | _ => []

/-- The WORDs of a word run of `n` words (R105), each on its four bytes in engine order (R82). -/
def wordOps : Nat → List Byte → List Instr
  | n + 1, b0 :: b1 :: b2 :: b3 :: bs => .word (beWord b0 b1 b2 b3) :: wordOps n bs
  | _, _ => []

/-- The micro-operations of a PROCESS over `len` bytes `bs` at `addr` (R103 to R107). -/
def processOps (addr : Addr) (len : Len) (bs : List Byte) : List Instr :=
  let split := splitBuffer addr len
  remainderOps (bs.take split.lead.val)
    ++ wordOps split.words (bs.drop split.lead.val)
    ++ remainderOps (bs.drop (split.lead.val + 4 * split.words))

/-! ## Events -/

/-- The kind of an event. -/
inductive EventKind where
  | engReset | engWrite | engRead | memRead1 | memRead4
  deriving DecidableEq, Repr

/-- The kind of an event, without its values. -/
def eventKind : Event → EventKind
  | .engReset => .engReset
  | .engWrite _ => .engWrite
  | .engRead _ => .engRead
  | .memRead1 _ _ => .memRead1
  | .memRead4 _ _ => .memRead4

/-- The events of a remainder of `k` bytes (R107): its byte reads, `Read`, `Write`; none for `k = 0`. -/
def remainderKinds (k : Nat) : List EventKind :=
  if k = 0 then [] else List.replicate k .memRead1 ++ [.engRead, .engWrite]

/-- The events of a PROCESS in order (R107). -/
def processKinds (split : Split) : List EventKind :=
  remainderKinds split.lead.val
    ++ (List.replicate split.words [EventKind.memRead4, EventKind.engWrite]).flatten
    ++ remainderKinds split.tail.val

/-- The events of a PROCESS whose read of the byte at offset `j` raises `BusFault`, in order (R107, R128): those of the
pieces completed before it, and the byte reads of its own piece that come before it. A faulting word read and a faulting
byte read leave no event (assumption log 10). -/
def busFaultKinds (addr : Addr) (len : Len) (j : Nat) : List EventKind :=
  let split := splitBuffer addr len
  if j < split.lead.val then List.replicate j .memRead1
  else if j < split.lead.val + 4 * split.words then
    remainderKinds split.lead.val
      ++ (List.replicate ((j - split.lead.val) / 4) [EventKind.memRead4, EventKind.engWrite]).flatten
  else
    remainderKinds split.lead.val
      ++ (List.replicate split.words [EventKind.memRead4, EventKind.engWrite]).flatten
      ++ List.replicate (j - (split.lead.val + 4 * split.words)) .memRead1

/-- An event on the engine port (R57). -/
def isEngineEvent : Event → Bool
  | .engReset => true
  | .engWrite _ => true
  | .engRead _ => true
  | .memRead1 _ _ => false
  | .memRead4 _ _ => false

/-- `REG` after the engine has seen some events, from its value before them (R74 to R76). -/
def replayEngine : Word → List Event → Word
  | reg, [] => reg
  | _, .engReset :: es => replayEngine 0xFFFFFFFF#32 es
  | reg, .engWrite w :: es => replayEngine (crcWord reg w) es
  | reg, .engRead _ :: es => replayEngine reg es
  | reg, .memRead1 _ _ :: es => replayEngine reg es
  | reg, .memRead4 _ _ :: es => replayEngine reg es

/-- Every ENG.READ among some events answered `REG` of that moment (R76), from its value before them. -/
def readsAnswered : Word → List Event → Prop
  | _, [] => True
  | _, .engReset :: es => readsAnswered 0xFFFFFFFF#32 es
  | reg, .engWrite w :: es => readsAnswered (crcWord reg w) es
  | reg, .engRead v :: es => v = reg ∧ readsAnswered reg es
  | reg, .memRead1 _ _ :: es => readsAnswered reg es
  | reg, .memRead4 _ _ :: es => readsAnswered reg es

/-- The byte addresses an event reads, in order. -/
def eventAddresses : Event → List Nat
  | .memRead1 a _ => [a.toNat]
  | .memRead4 a _ => [a.toNat, a.toNat + 1, a.toNat + 2, a.toNat + 3]
  | .engReset => []
  | .engWrite _ => []
  | .engRead _ => []

/-- The memory an event agrees with: what it returned is what the memory holds at its addresses (R33, R34). -/
def eventReadsMemory (m : Memory) : Event → Prop
  | .memRead1 a b => Memory.lookup m a.toNat = some b
  | .memRead4 a w =>
    ∃ b0 b1 b2 b3, w = leWord b0 b1 b2 b3 ∧ bufferBytes m a.toNat 4 = some [b0, b1, b2, b3]
  | .engReset => True
  | .engWrite _ => True
  | .engRead _ => True

/-- The bytes a read event returned, the byte at the lowest address first (R34). -/
def eventBytes : Event → List Byte
  | .memRead1 _ b => [b]
  | .memRead4 _ w => [w.extractLsb' 0 8, w.extractLsb' 8 8, w.extractLsb' 16 8, w.extractLsb' 24 8]
  | .engReset => []
  | .engWrite _ => []
  | .engRead _ => []

/-- The request an event put on the engine port (R55). -/
def eventRequest : Event → Option PortWord
  | .engReset => some (encode .engReset)
  | .engWrite w => some (encode (.engWrite w))
  | .engRead _ => some (encode .engRead)
  | .memRead1 _ _ => none
  | .memRead4 _ _ => none

/-! ## Sessions -/

/-- A host command on the command port. -/
def commandInput (i : Instr) : Input := .port (encode i)

/-- START `seed`, one PROCESS per buffer, FINISH (R143). -/
def sessionInputs (seed : Word) (buffers : List (Addr × Len)) : List Input :=
  commandInput (.start seed)
    :: (buffers.map fun b => commandInput (.process b.1 b.2)) ++ [commandInput .finish]

/-- Each buffer of a list holds the bytes of the list beside it. -/
def buffersHold (m : Memory) (buffers : List (Addr × Len)) (contents : List (List Byte)) : Prop :=
  List.Forall₂ (fun b bs => bufferHolds m b.1 b.2 bs) buffers contents

/-- `n` steps, ending at the first that has no next state: `Host.Core.run` of this machine (`Laws/Run.lean`). -/
def runSteps : Nat → State → Host.Outcome State Fault Refusal
  | 0, s => .next s
  | n + 1, s =>
    match step s with
    | .next t => runSteps n t
    | .fault r => .fault r
    | .refused r => .refused r

/-! ## What the host cannot see -/

/-- Two states the host cannot tell apart (R20, R21): everything but `CORR`, `REG`, `PTR` and `CNT` agrees, and while
a session is open `CORR` and `REG` agree too. -/
def hostAlike (s t : State) : Prop :=
  s.phase = t.phase ∧ s.fault = t.fault ∧ s.faultInfo = t.faultInfo ∧ s.mem = t.mem ∧
    s.inputs = t.inputs ∧ s.responses = t.responses ∧ s.trace = t.trace ∧ s.fresh = t.fresh ∧
    (s.phase = .OPEN → s.corr = t.corr ∧ s.reg = t.reg)

end Sys2Proof.Machine
end

