-- ==== Sys2Proof/Certificates/Slice0/Obligations.lean ====
section
/-! DEFINITION. The statements for the provers. Each docstring names the rules of spec/ it rests on. -/

open Sys2Proof Sys2Proof.Machine

/-! ## Encodings -/

/-- spec/30_encoding.md R63, R55, R58: decoding the encoding of any operation gives it back, every operand at every
value. Every `Instr` is well formed (R53). The operand word of a micro-operation is the model's (assumption log 6). -/
def Obligations.DecodeOfEncode : Prop :=
  ∀ i : Instr, decode (encode i) = .ok i

/-- R63, R55, R56, R58: a well-formed port word that decodes is the encoding of what it decodes to. The operand word of
a micro-operation is the model's (assumption log 6). -/
def Obligations.EncodeOfDecode : Prop :=
  ∀ (p : PortWord) (i : Instr), p.wellFormed = true → decode p = .ok i → encode i = p

/-- R63, clause by clause on the descriptor's bits, and `encode` its inverse on the legal shapes. -/
def Obligations.DescriptorDecodesByR63 : Prop :=
  (∀ c : BitVec 96,
    (c.extractLsb' 2 30 ≠ 0 → ∃ e, decodeCommand c = .error e) ∧
    (c.extractLsb' 2 30 = 0 → c.extractLsb' 0 2 = 0 → c.extractLsb' 64 32 = 0 →
      decodeCommand c = .ok (.start (c.extractLsb' 32 32))) ∧
    (c.extractLsb' 2 30 = 0 → c.extractLsb' 0 2 = 0 → c.extractLsb' 64 32 ≠ 0 →
      ∃ e, decodeCommand c = .error e) ∧
    (c.extractLsb' 2 30 = 0 → c.extractLsb' 0 2 = 1 →
      decodeCommand c = .ok (.process (c.extractLsb' 32 32) (c.extractLsb' 64 32))) ∧
    (c.extractLsb' 2 30 = 0 → c.extractLsb' 0 2 = 2 → c.extractLsb' 32 64 = 0 →
      decodeCommand c = .ok .finish) ∧
    (c.extractLsb' 2 30 = 0 → c.extractLsb' 0 2 = 2 → c.extractLsb' 32 64 ≠ 0 →
      ∃ e, decodeCommand c = .error e) ∧
    (c.extractLsb' 0 2 = 3 → ∃ e, decodeCommand c = .error e)) ∧
  (∀ i : Instr, isHostCommand i = true → ∃ c, encode i = .command c ∧ decodeCommand c = .ok i) ∧
  (∀ (c : BitVec 96) (i : Instr), decodeCommand c = .ok i → encode i = .command c)

/-- R52, R55, R58 and spec/opcode_table.json: a port word selects exactly the row of the operation it decodes to, and
no row where it is rejected. So the rows of a port are mutually exclusive. That `DATA` is ignored on ENG.RESET and
ENG.READ follows R55 (assumption log 7). -/
def Obligations.RowsAgreeWithDecoder : Prop :=
  ∀ p : PortWord,
    selectedMnemonics p =
      match decode p with
      | .ok i => [i.mnemonic]
      | .error _ => []

/-- spec/95_test_vectors.md section 2.7: descriptors and requests written out there, and three labels of R58. Which port
a width names is the model's (assumption log 13), and so is that a label's operands read as 0 where the table gives them no
bits (assumption log 6). -/
def Obligations.WrittenWordsDecode : Prop :=
  decodeTableWord 96 0x00000000AAAAAAAA00000000 = some (.start 0xAAAAAAAA#32) ∧
  decodeTableWord 96 0x000000102000010100000001 = some (.process 0x20000101#32 16#32) ∧
  decodeTableWord 96 0x000000000000000000000002 = some .finish ∧
  decodeTableWord 96 0x000000000000000000000003 = none ∧
  decodeTableWord 96 0x00000001AAAAAAAA00000000 = none ∧
  decodeTableWord 40 0x000000000 = some .engReset ∧
  decodeTableWord 40 0x112345678 = some (.engWrite 0x12345678#32) ∧
  decodeTableWord 40 0x200000000 = some .engRead ∧
  decodeTableWord 8 0 = some .fold0 ∧
  decodeTableWord 8 3 = some (.fold3 0#8 0#8 0#8) ∧
  decodeTableWord 8 4 = some (.word 0#32)

/-- R51, R14: the 35 bits of a response and the one bit of `PHASE`. -/
def Obligations.ResponseFormat : Prop :=
  (∀ r : Response, (responseBits r).extractLsb' 32 3 = r.status ∧
    (responseBits r).extractLsb' 0 32 = r.value) ∧
  phaseBit .CLOSED = 0 ∧ phaseBit .OPEN = 1

/-! ## The step -/

/-- The operation at the head of the queue is the one a step runs, in the state with that input taken (the model's own
queue, assumption log 5). An engine request must be one the block may issue (R56; assumption log 7). -/
def Obligations.StepRunsDecodedOperation : Prop :=
  ∀ (s : State) (p : PortWord) (rest : List Input) (i : Instr),
    s.inputs = .port p :: rest → decode p = .ok i →
    (∀ r, p = .engine r → wellFormedEngine r = true) → step s = exec i { s with inputs := rest }

/-- spec/70_reset_and_hazards.md R146, spec/60_exceptions.md R133: another agent's engine request has no move while a
session is open; with none open it is the engine's own request. That no move is a refusal is the model's (assumption
log 8). -/
def Obligations.ForeignRequestMovesOnlyWhileClosed : Prop :=
  ∀ (s : State) (r : BitVec 34) (rest : List Input), s.inputs = .foreign r :: rest →
    (s.phase = .OPEN → step s = .refused (.foreignEngineRequest r)) ∧
    (s.phase = .CLOSED → wellFormedEngine r = true → ∀ i, decodeEngine r = .ok i →
      step s = exec i { s with inputs := rest })

/-- R56 and spec/93_implementation_defined.md U8: the requests that an engine model refuses, on the block's port and from
another agent while no session is open: `EOP = 0b11`, and ENG.RESET or ENG.READ with non-zero `DATA`. R55 says of the
latter that the engine ignores `DATA`; that U8 is followed in the step is the model's choice (assumption log 7). -/
def Obligations.UnspecifiedRequestsRefused : Prop :=
  ∀ (s : State) (r : BitVec 34) (rest : List Input),
    s.inputs = .port (.engine r) :: rest ∨ s.inputs = .foreign r :: rest ∧ s.phase = .CLOSED →
    (r.extractLsb' 32 2 = 3 → step s = .refused (.reservedEngineRequest r)) ∧
    (r.extractLsb' 32 2 = 0 ∨ r.extractLsb' 32 2 = 2 → r.extractLsb' 0 32 ≠ 0 →
      step s = .refused (.engineRequestData r))

/-- R135: with nothing waiting the block is idle with its state held. The queue is the model's (assumption log 5). -/
def Obligations.IdleHoldsState : Prop :=
  ∀ s : State, s.inputs = [] → step s = .next s

/-- Every operation answers a next state: its own effect, or a fault taken, which is a next state by the model's choice
(R123; assumption log 4). Where a step has no next state: only where R56, R58 and U8 name an encoding that is not issued
(assumption log 7), and where R146 gives no move, which the model renders as a refusal (assumption log 8). That no step
ends in a fault rests on assumption log 4. -/
def Obligations.StepRefusesOnlyByName : Prop :=
  (∀ (i : Instr) (s : State), ∃ t, exec i s = .next t) ∧
  (∀ (s : State) (why : Refusal), step s = .refused why →
    (∃ r rest, s.inputs = .port (.engine r) :: rest ∧ r.extractLsb' 32 2 = 3 ∧
      why = .reservedEngineRequest r) ∨
    (∃ r rest, s.inputs = .foreign r :: rest ∧ r.extractLsb' 32 2 = 3 ∧ s.phase = .CLOSED ∧
      why = .reservedEngineRequest r) ∨
    (∃ r rest, (s.inputs = .port (.engine r) :: rest ∨ s.inputs = .foreign r :: rest ∧ s.phase = .CLOSED) ∧
      (r.extractLsb' 32 2 = 0 ∨ r.extractLsb' 32 2 = 2) ∧ r.extractLsb' 0 32 ≠ 0 ∧
      why = .engineRequestData r) ∨
    (∃ r rest, s.inputs = .foreign r :: rest ∧ s.phase = .OPEN ∧ why = .foreignEngineRequest r) ∨
    (∃ label data rest, s.inputs = .port (.microOp label data) :: rest ∧ 5 ≤ label.toNat ∧
      why = .reservedMicroOp label)) ∧
  (∀ (s : State) (why : Fault), step s ≠ .fault why)

/-! ## Reset and the invariant -/

/-- spec/10_state.md R20: `PHASE` and `FAULT` after hardware reset. Nothing is claimed of `CORR`, `REG`, `PTR` and `CNT`
(assumption log 1); that no memory is readable and nothing waits is the model's (assumption logs 2, 5). -/
def Obligations.ResetState : Prop :=
  State.reset.phase = .CLOSED ∧ State.reset.fault = 0 ∧ State.reset.faultInfo = none ∧
    State.reset.inputs = [] ∧ ∀ a, Memory.lookup State.reset.mem a = none

/-- R140: the hardware reset event, from any state. No engine request is issued. That memory, the records and what has
not arrived yet stay is the model's (assumption log 11). -/
def Obligations.HardwareResetEvent : Prop :=
  ∀ (s : State) (rest : List Input), s.inputs = .hardwareReset :: rest →
    ∃ t, step s = .next t ∧ t.phase = .CLOSED ∧ t.fault = 0 ∧ t.faultInfo = none ∧
      t.inputs = rest ∧ t.trace = s.trace ∧ t.responses = s.responses ∧
      ∀ a, Memory.lookup t.mem a = Memory.lookup s.mem a

/-- R140 and spec/93_implementation_defined.md U19: a hardware reset during a command abandons it. After `n` of the
events that the command would have put on its ports, and with no response, `PHASE` and `FAULT` are as after any hardware
reset. That memory, the records and what has not arrived yet stay is the model's (assumption log 11).
Premise P-stable (R44,
R148, R153; assumption log 11): no byte of the buffer changes during the PROCESS, which the model's atomic command builds in. -/
def Obligations.HardwareResetDuringCommand : Prop :=
  ∀ (s : State) (c : BitVec 96) (n : Nat) (rest : List Input), s.inputs = .resetDuring c n :: rest →
    ∃ t es, step s = .next t ∧ t.phase = .CLOSED ∧ t.fault = 0 ∧ t.faultInfo = none ∧
      t.inputs = rest ∧ t.responses = s.responses ∧ t.trace = s.trace ++ es.take n ∧
      (∀ i, decodeCommand c = .ok i →
        ∃ u, exec i { s with inputs := rest } = .next u ∧ u.trace = s.trace ++ es) ∧
      ((∀ i, decodeCommand c ≠ .ok i) → es = []) ∧
      ∀ a, Memory.lookup t.mem a = Memory.lookup s.mem a

/-- The invariant holds at reset. -/
def Obligations.ResetMeetsInvariant : Prop := State.Inv State.reset

/-- Every step keeps the invariant: memory canonical, `FAULT` the code of the recorded fault and so 0 to 4 (R120),
every response legal (R51), every word read aligned (R36). -/
def Obligations.StepKeepsInvariant : Prop :=
  ∀ s t : State, s.Inv → step s = .next t → t.Inv ∧ t.fault.toNat ≤ 4

/-- The platform's change of one byte changes that byte and nothing else. R142 and R148 let the platform prepare and
change buffers between commands; that memory is state and changes by one byte at a time is the model's choice
(assumption log 2), so is the queue that delivers the change (assumption log 5) and that it comes between commands only
(assumption log 11). -/
def Obligations.PlatformChangesOneByte : Prop :=
  ∀ (s : State) (a : Addr) (v : Option Byte) (rest : List Input), s.inputs = .setByte a v :: rest →
    ∃ t, step s = .next t ∧ Memory.lookup t.mem a.toNat = v ∧
      (∀ b, b ≠ a.toNat → Memory.lookup t.mem b = Memory.lookup s.mem b) ∧
      t = { s with inputs := rest, mem := t.mem }

/-! ## The CRC functions and byte order -/

/-- spec/40_engine_primitives.md R72: the concatenation law of the reference function. -/
def Obligations.ReferenceFunctionConcatenates : Prop :=
  ∀ (c : Word) (xs ys : List Byte), crcBytes c (xs ++ ys) = crcBytes (crcBytes c xs) ys

/-- R77: the four laws of `T32`, and the values given with them. -/
def Obligations.T32Laws : Prop :=
  (∀ a b : Word, t32 (a ^^^ b) = t32 a ^^^ t32 b) ∧ t32 0 = 0 ∧
  (∀ c w : Word, crcWord c w = t32 (c ^^^ w)) ∧ (∀ c : Word, crcWord c c = 0) ∧
  (∀ (c : Word) (d : SubWord), d ≠ .zero →
    crcBytes c (subWordBytes d) =
      t32 ((c ^^^ packHi d) >>> (32 - 8 * subWordCount d)) ^^^ ((c ^^^ packHi d) <<< (8 * subWordCount d))) ∧
  (∀ (c : Word) (d : SubWord), d ≠ .zero →
    (c ^^^ packHi d) <<< (8 * subWordCount d) = c <<< (8 * subWordCount d) ∧
    (c ^^^ packHi d) >>> (32 - 8 * subWordCount d) = c >>> (32 - 8 * subWordCount d) ^^^ packLo d) ∧
  t32 0x00000001#32 = 0x04C11DB7#32 ∧ t32 0x00000002#32 = 0x09823B6E#32 ∧
  t32 0x00000080#32 = 0x690CE0EE#32 ∧ t32 0x00000100#32 = 0xD219C1DC#32 ∧
  t32 0x80000000#32 = 0xA6E63D1D#32

/-- spec/42_subword_corrector.md R90: `pack_lo` is `pack_hi` shifted down, and both on the example bytes. -/
def Obligations.PackingAgrees : Prop :=
  (∀ d : SubWord, d ≠ .zero → packLo d = packHi d >>> (32 - 8 * subWordCount d)) ∧
  packHi (.one 0xAB#8) = 0xAB000000#32 ∧ packLo (.one 0xAB#8) = 0x000000AB#32 ∧
  packHi (.two 0xAB#8 0xCD#8) = 0xABCD0000#32 ∧ packLo (.two 0xAB#8 0xCD#8) = 0x0000ABCD#32 ∧
  packHi (.three 0xAB#8 0xCD#8 0xEF#8) = 0xABCDEF00#32 ∧
  packLo (.three 0xAB#8 0xCD#8 0xEF#8) = 0x00ABCDEF#32

/-- spec/41_byte_order_normalizer.md R81: the reversal is its own inverse, a permutation of bit positions, and
distributes over XOR. -/
def Obligations.ByteReversalLaws : Prop :=
  (∀ x : Word, bswap32 (bswap32 x) = x) ∧
  (∀ (x : Word) (i : Nat), i < 32 → (bswap32 x).getLsbD i = x.getLsbD (8 * (3 - i / 8) + i % 8)) ∧
  (∀ a b : Word, bswap32 (a ^^^ b) = bswap32 a ^^^ bswap32 b)

/-- spec/20_memory.md R33, R34 and R82: the two read primitives on readable and on unreadable addresses, little-endian,
and the byte-reversed word in engine order. -/
def Obligations.ReadPrimitives : Prop :=
  (∀ (s : State) (a : Addr) (b : Byte), Memory.lookup s.mem a.toNat = some b →
    memRead1 a s = .done b (record (.memRead1 a b) s)) ∧
  (∀ (s : State) (a : Addr), Memory.lookup s.mem a.toNat = none →
    memRead1 a s = .stopped (.busFault a) s) ∧
  (∀ (s : State) (a : Addr) (b0 b1 b2 b3 : Byte), a.toNat % 4 = 0 →
    bufferBytes s.mem a.toNat 4 = some [b0, b1, b2, b3] →
    ∃ m, memRead4 a s = .done m (record (.memRead4 a m) s) ∧
      m = b3 ++ b2 ++ b1 ++ b0 ∧ bswap32 m = beWord b0 b1 b2 b3) ∧
  (∀ (s : State) (a : Addr) (j : Nat), a.toNat % 4 = 0 → j < 4 →
    (∀ i, i < j → Memory.readable s.mem (a.toNat + i) = true) →
    Memory.readable s.mem (a.toNat + j) = false →
    memRead4 a s = .stopped (.busFault (a + BitVec.ofNat 32 j)) s)

/-! ## The engine requests -/

/-- R74: ENG.RESET writes `C0` to `REG` from any state and changes nothing else but the trace. -/
def Obligations.EngResetResult : Prop :=
  ∀ s : State,
    exec .engReset s = .next { s with reg := 0xFFFFFFFF#32, trace := s.trace ++ [.engReset] }

/-- R75: ENG.WRITE folds the word into `REG` and changes nothing else but the trace; `w = REG` gives 0. -/
def Obligations.EngWriteResult : Prop :=
  ∀ (s : State) (w : Word),
    exec (.engWrite w) s =
      .next { s with reg := crcWord s.reg w, trace := s.trace ++ [.engWrite w] } ∧
    (w = s.reg → crcWord s.reg w = 0)

/-- R76: ENG.READ answers the raw register and changes nothing but the trace. -/
def Obligations.EngReadResult : Prop :=
  ∀ s : State, exec .engRead s = .next { s with trace := s.trace ++ [.engRead s.reg] }

/-! ## The micro-operations -/

/-- R91: FOLD0 reads and writes no state and issues no request. -/
def Obligations.Fold0ChangesNothing : Prop :=
  ∀ s : State, exec .fold0 s = .next s

/-- R93: FOLD1, with its whole frame and the two requests it issues. -/
def Obligations.Fold1Result : Prop :=
  ∀ (s : State) (d0 : Byte) (t val : Word), t = s.reg ^^^ s.corr →
    val = s.reg ^^^ d0.setWidth 32 ^^^ (t >>> 24) →
    exec (.fold1 d0) s =
      .next { s with
        reg := crcWord s.reg val
        corr := t.extractLsb' 0 24 ++ 0#8
        trace := s.trace ++ [.engRead s.reg, .engWrite val] }

/-- R94: FOLD2, with its whole frame and the two requests it issues. -/
def Obligations.Fold2Result : Prop :=
  ∀ (s : State) (d0 d1 : Byte) (t val : Word), t = s.reg ^^^ s.corr →
    val = s.reg ^^^ (d0 ++ d1).setWidth 32 ^^^ (t >>> 16) →
    exec (.fold2 d0 d1) s =
      .next { s with
        reg := crcWord s.reg val
        corr := t.extractLsb' 0 16 ++ 0#16
        trace := s.trace ++ [.engRead s.reg, .engWrite val] }

/-- R95: FOLD3, with its whole frame and the two requests it issues. -/
def Obligations.Fold3Result : Prop :=
  ∀ (s : State) (d0 d1 d2 : Byte) (t val : Word), t = s.reg ^^^ s.corr →
    val = s.reg ^^^ (d0 ++ d1 ++ d2).setWidth 32 ^^^ (t >>> 8) →
    exec (.fold3 d0 d1 d2) s =
      .next { s with
        reg := crcWord s.reg val
        corr := t.extractLsb' 0 8 ++ 0#24
        trace := s.trace ++ [.engRead s.reg, .engWrite val] }

/-- R96: the net effect of FOLDk for k in 1 to 3. -/
def Obligations.FoldNetEffect : Prop :=
  ∀ (s : State) (d : SubWord), d ≠ .zero →
    ∃ u, exec (foldInstr d) s = .next u ∧
      u.reg = t32 (packLo d ^^^ ((s.reg ^^^ s.corr) >>> (32 - 8 * subWordCount d))) ∧
      u.corr = (s.reg ^^^ s.corr) <<< (8 * subWordCount d) ∧
      u.reg ^^^ u.corr = crcBytes (s.reg ^^^ s.corr) (subWordBytes d)

/-- R93 to R95, corner cases: no deferred bits where `t = 0`, and `REG' = 0` where the data equal the top of `t`. -/
def Obligations.FoldCornerCases : Prop :=
  (∀ (s : State) (d : SubWord), d ≠ .zero → s.corr = s.reg →
    ∃ u, exec (foldInstr d) s = .next u ∧ u.corr = 0 ∧ u.reg = t32 (packLo d)) ∧
  (∀ (s : State) (d : SubWord), d ≠ .zero →
    packLo d = (s.reg ^^^ s.corr) >>> (32 - 8 * subWordCount d) →
    ∃ u, exec (foldInstr d) s = .next u ∧ u.reg = 0 ∧
      u.reg ^^^ u.corr = (s.reg ^^^ s.corr) <<< (8 * subWordCount d))

/-- R97: WORD splices `CORR` into the word it writes and zeroes it, with its whole frame and its one request. -/
def Obligations.WordResult : Prop :=
  ∀ (s : State) (w : Word),
    exec (.word w) s =
      .next { s with
        reg := crcWord s.reg (w ^^^ s.corr)
        corr := 0
        trace := s.trace ++ [.engWrite (w ^^^ s.corr)] }

/-- R98: the net effect of WORD. -/
def Obligations.WordNetEffect : Prop :=
  ∀ (s : State) (w : Word),
    ∃ u, exec (.word w) s = .next u ∧ u.corr = 0 ∧
      u.reg = t32 (s.reg ^^^ s.corr ^^^ w) ∧
      u.reg ^^^ u.corr = crcWord (s.reg ^^^ s.corr) w ∧
      u.reg ^^^ u.corr =
        crcBytes (s.reg ^^^ s.corr)
          [w.extractLsb' 24 8, w.extractLsb' 16 8, w.extractLsb' 8 8, w.extractLsb' 0 8]

/-! ## START -/

/-- spec/43_session_commands.md R100, R101 and spec/10_state.md R24: START in either phase, from any `REG` and `CORR`,
with its whole frame; after it `TRUE = seed`. -/
def Obligations.StartResult : Prop :=
  ∀ (s : State) (seed : Word), s.fault = 0 →
    exec (.start seed) s =
      .next { s with
        reg := 0xFFFFFFFF#32
        corr := 0xFFFFFFFF#32 ^^^ seed
        phase := .OPEN
        responses := s.responses ++ [⟨0, 0⟩]
        trace := s.trace ++ [.engReset] } ∧
    0xFFFFFFFF#32 ^^^ (0xFFFFFFFF#32 ^^^ seed) = seed

/-! ## PROCESS -/

/-- R103: the split, its sum, its bounds, and that only the two low bits of the address enter. -/
def Obligations.SplitOfBuffer : Prop :=
  (∀ (addr : Addr) (len : Len),
    (splitBuffer addr len).lead.val = min ((4 - addr.toNat % 4) % 4) len.toNat ∧
    (splitBuffer addr len).words = (len.toNat - (splitBuffer addr len).lead.val) / 4 ∧
    (splitBuffer addr len).tail.val = (len.toNat - (splitBuffer addr len).lead.val) % 4 ∧
    len.toNat = (splitBuffer addr len).lead.val + 4 * (splitBuffer addr len).words
      + (splitBuffer addr len).tail.val ∧
    (splitBuffer addr len).lead.val ≤ 3 ∧ (splitBuffer addr len).tail.val ≤ 3 ∧
    (splitBuffer addr len).words ≤ 2 ^ 30 - 1 ∧
    ((splitBuffer addr len).words = 0 ∧ (splitBuffer addr len).tail.val = 0 ∨
      (addr.toNat + (splitBuffer addr len).lead.val) % 4 = 0)) ∧
  (∀ (addr addr' : Addr) (len : Len), addr.extractLsb' 0 2 = addr'.extractLsb' 0 2 →
    splitBuffer addr len = splitBuffer addr' len)

/-- spec/60_exceptions.md R121: PROCESS and FINISH with no open session, before any read and any request; START never
raises it. -/
def Obligations.ProtocolViolationRaised : Prop :=
  (∀ (s : State) (addr : Addr) (len : Len), s.fault = 0 → s.phase = .CLOSED →
    exec (.process addr len) s =
      .next { s with
        fault := 2
        faultInfo := some (.protocolViolation .process)
        responses := s.responses ++ [⟨2, 0⟩] }) ∧
  (∀ s : State, s.fault = 0 → s.phase = .CLOSED →
    exec .finish s =
      .next { s with
        fault := 2
        faultInfo := some (.protocolViolation .finish)
        responses := s.responses ++ [⟨2, 0⟩] }) ∧
  (∀ (s : State) (seed : Word), s.fault = 0 →
    ∃ t, exec (.start seed) s = .next t ∧ t.fault = 0 ∧ t.faultInfo = s.faultInfo)

/-- R124: a buffer past the top of the address space, after the phase check and before any effect; `addr + len = 2^32`
and `len = 0` never raise it. -/
def Obligations.BufferRangeRaised : Prop :=
  (∀ (s : State) (addr : Addr) (len : Len), s.fault = 0 → s.phase = .OPEN →
    2 ^ 32 < addr.toNat + len.toNat →
    exec (.process addr len) s =
      .next { s with
        fault := 3
        faultInfo := some (.bufferRange addr len)
        responses := s.responses ++ [⟨3, 0⟩] }) ∧
  (∀ (s t : State) (addr : Addr) (len : Len), s.fault = 0 →
    addr.toNat + len.toNat = 2 ^ 32 ∨ len = 0 →
    exec (.process addr len) s = .next t → t.fault ≠ 3)

/-- R109: PROCESS of no bytes reads nothing, requests nothing and changes neither `REG` nor `CORR`, at every address; it
still needs an open session. -/
def Obligations.ZeroLengthProcess : Prop :=
  (∀ (s : State) (addr : Addr), s.fault = 0 → s.phase = .OPEN →
    ∃ t, exec (.process addr 0) s = .next t ∧ t.reg = s.reg ∧ t.corr = s.corr ∧
      t.trace = s.trace ∧ t.phase = .OPEN ∧ t.fault = 0 ∧ t.mem = s.mem ∧
      t.responses = s.responses ++ [⟨0, 0⟩]) ∧
  (∀ (s : State) (addr : Addr), s.fault = 0 → s.phase = .CLOSED →
    ∃ t, exec (.process addr 0) s = .next t ∧ t.fault = 2 ∧
      t.responses = s.responses ++ [⟨2, 0⟩])

/-- R102, R108: PROCESS over a readable buffer in an open session completes; the true CRC advances by exactly the
buffer's bytes; the final `CORR` by cases; the frame.
Premise P-stable (R44,
R148, R153; assumption log 11): no byte of the buffer changes during the PROCESS, which the model's atomic command builds in. -/
def Obligations.ProcessNetEffect : Prop :=
  ∀ (s : State) (addr : Addr) (len : Len) (bs : List Byte), s.fault = 0 → s.phase = .OPEN →
    bufferHolds s.mem addr len bs →
    ∃ t, exec (.process addr len) s = .next t ∧
      t.reg ^^^ t.corr = crcBytes (s.reg ^^^ s.corr) bs ∧
      (len = 0 → t.corr = s.corr) ∧
      ((splitBuffer addr len).tail.val = 0 → 0 < (splitBuffer addr len).words → t.corr = 0) ∧
      (0 < (splitBuffer addr len).tail.val →
        t.corr = crcBytes (s.reg ^^^ s.corr) (bs.take (len.toNat - (splitBuffer addr len).tail.val))
          <<< (8 * (splitBuffer addr len).tail.val)) ∧
      ((splitBuffer addr len).words = 0 → (splitBuffer addr len).tail.val = 0 →
        0 < (splitBuffer addr len).lead.val →
        t.corr = (s.reg ^^^ s.corr) <<< (8 * (splitBuffer addr len).lead.val)) ∧
      t.phase = .OPEN ∧ t.fault = 0 ∧ t.faultInfo = s.faultInfo ∧ t.mem = s.mem ∧
      t.inputs = s.inputs ∧ t.fresh = s.fresh ∧ t.responses = s.responses ++ [⟨0, 0⟩]

/-- R107, R57: the events of a completed PROCESS, in order: their kinds, and their values on the engine port. Replaying
the requests from `REG` before gives `REG` after, and every ENG.READ answered `REG` of that moment (R74 to R76). The words
written are in `ProcessRunsItsMicroOperations`, the addresses and values read in `ProcessReadsBufferOnce`.
Premise P-stable (R44,
R148, R153; assumption log 11): no byte of the buffer changes during the PROCESS, which the model's atomic command builds in. -/
def Obligations.ProcessEventOrder : Prop :=
  ∀ (s : State) (addr : Addr) (len : Len) (bs : List Byte), s.fault = 0 → s.phase = .OPEN →
    bufferHolds s.mem addr len bs →
    ∃ t es, exec (.process addr len) s = .next t ∧ t.trace = s.trace ++ es ∧
      es.map eventKind = processKinds (splitBuffer addr len) ∧
      replayEngine s.reg es = t.reg ∧ readsAnswered s.reg es

/-- R104 to R107, R82, and R128 for a fault: a PROCESS is its micro-operations. Over a readable buffer it leaves the same
`REG` and `CORR` and issues the same engine requests, with the same values in the same order, as the folds and WORDs of its
bytes run one after another. Where the read at offset `j` raises `BusFault`, the same holds of the pieces completed before
it.
Premise P-stable (R44,
R148, R153; assumption log 11): no byte of the buffer changes during the PROCESS, which the model's atomic command builds in. -/
def Obligations.ProcessRunsItsMicroOperations : Prop :=
  (∀ (s : State) (addr : Addr) (len : Len) (bs : List Byte), s.fault = 0 → s.phase = .OPEN →
    bufferHolds s.mem addr len bs →
    ∃ t u es, exec (.process addr len) s = .next t ∧ execAll (processOps addr len bs) s = .next u ∧
      t.reg = u.reg ∧ t.corr = u.corr ∧
      t.trace = s.trace ++ es ∧ u.trace = s.trace ++ es.filter isEngineEvent) ∧
  (∀ (s : State) (addr : Addr) (len : Len) (j : Nat) (bs : List Byte), s.fault = 0 → s.phase = .OPEN →
    addr.toNat + len.toNat ≤ 2 ^ 32 → j < len.toNat →
    bufferBytes s.mem addr.toNat j = some bs → Memory.lookup s.mem (addr.toNat + j) = none →
    ∃ t u es, exec (.process addr len) s = .next t ∧
      execAll (processOps addr (BitVec.ofNat 32 (foldedBefore addr len j))
        (bs.take (foldedBefore addr len j))) s = .next u ∧
      t.reg = u.reg ∧ t.corr = u.corr ∧
      t.trace = s.trace ++ es ∧ u.trace = s.trace ++ es.filter isEngineEvent)

/-- spec/20_memory.md R36, R37: a completed PROCESS reads every byte of the buffer exactly once, ascending, no byte
outside it, word reads aligned, each read returning what the memory holds (R33, R34).
Premise P-stable (R44,
R148, R153; assumption log 11): no byte of the buffer changes during the PROCESS, which the model's atomic command builds in. -/
def Obligations.ProcessReadsBufferOnce : Prop :=
  ∀ (s : State) (addr : Addr) (len : Len) (bs : List Byte), s.fault = 0 → s.phase = .OPEN →
    bufferHolds s.mem addr len bs →
    ∃ t es, exec (.process addr len) s = .next t ∧ t.trace = s.trace ++ es ∧
      es.flatMap eventAddresses = List.range' addr.toNat len.toNat ∧
      wordReadsAligned es ∧ ∀ e ∈ es, eventReadsMemory s.mem e

/-- R32, R37: of memory a PROCESS depends on the bytes of its buffer alone, whether it completes or faults.
Premise P-stable (R44,
R148, R153; assumption log 11): no byte of the buffer changes during the PROCESS, which the model's atomic command builds in. -/
def Obligations.ProcessDependsOnlyOnItsBuffer : Prop :=
  ∀ (s t : State) (m : Memory) (addr : Addr) (len : Len),
    (∀ a, addr.toNat ≤ a → a < addr.toNat + len.toNat → Memory.lookup m a = Memory.lookup s.mem a) →
    exec (.process addr len) s = .next t →
    exec (.process addr len) { s with mem := m } = .next { t with mem := m }

/-- R44, R108: the law of PROCESS in the form R44 gives with "the bytes the reads returned" in place of the bytes of the
buffer. A PROCESS that completes advances the true CRC by the bytes that its own reads returned, in the order it made
them; memory stands in no premise. The model's memory is fixed during the command (assumption log 11). -/
def Obligations.ProcessFoldsTheBytesItsReadsReturned : Prop :=
  ∀ (s t : State) (addr : Addr) (len : Len), s.fault = 0 → exec (.process addr len) s = .next t →
    t.fault = 0 →
    ∃ es, t.trace = s.trace ++ es ∧ (es.flatMap eventBytes).length = len.toNat ∧
      t.reg ^^^ t.corr = crcBytes (s.reg ^^^ s.corr) (es.flatMap eventBytes)

/-- R115: the counts of requests and reads.
Premise P-stable (R44,
R148, R153; assumption log 11): no byte of the buffer changes during the PROCESS, which the model's atomic command builds in. -/
def Obligations.RequestCounts : Prop :=
  (∀ (s : State) (seed : Word), s.fault = 0 →
    ∃ t, exec (.start seed) s = .next t ∧ t.trace = s.trace ++ [.engReset]) ∧
  (∀ (s : State) (addr : Addr) (len : Len) (bs : List Byte), s.fault = 0 → s.phase = .OPEN →
    bufferHolds s.mem addr len bs →
    ∃ t es, exec (.process addr len) s = .next t ∧ t.trace = s.trace ++ es ∧
      (es.map eventKind).count .engReset = 0 ∧
      (es.map eventKind).count .engRead =
        (if 0 < (splitBuffer addr len).lead.val then 1 else 0)
          + (if 0 < (splitBuffer addr len).tail.val then 1 else 0) ∧
      (es.map eventKind).count .engRead ≤ 2 ∧
      (es.map eventKind).count .engWrite =
        (if 0 < (splitBuffer addr len).lead.val then 1 else 0) + (splitBuffer addr len).words
          + (if 0 < (splitBuffer addr len).tail.val then 1 else 0) ∧
      (es.map eventKind).count .memRead1 =
        (splitBuffer addr len).lead.val + (splitBuffer addr len).tail.val ∧
      (es.map eventKind).count .memRead4 = (splitBuffer addr len).words) ∧
  (∀ s : State, s.fault = 0 → s.phase = .OPEN →
    ∃ t, exec .finish s = .next t ∧ t.trace = s.trace ++ [.engRead s.reg])

/-- R123, R125, R128: PROCESS over a buffer whose first unreadable byte is at offset `j`. The fault is reported at that
address; the pieces completed before it keep their effect on `REG` and on `CORR`, the faulting piece has none and issues no
request. Which reads of the faulting piece the trace lists, and that it lists no address at or past the faulting one, is
the model's choice: a read that raises `BusFault` leaves no event (assumption log 10).
Premise P-stable (R44,
R148, R153; assumption log 11): no byte of the buffer changes during the PROCESS, which the model's atomic command builds in. -/
def Obligations.BusFaultRaised : Prop :=
  ∀ (s : State) (addr : Addr) (len : Len) (j : Nat) (bs : List Byte), s.fault = 0 → s.phase = .OPEN →
    addr.toNat + len.toNat ≤ 2 ^ 32 → j < len.toNat →
    bufferBytes s.mem addr.toNat j = some bs → Memory.lookup s.mem (addr.toNat + j) = none →
    ∃ t es, exec (.process addr len) s = .next t ∧
      t.fault = 4 ∧ t.faultInfo = some (.busFault (addr + BitVec.ofNat 32 j)) ∧
      t.responses = s.responses ++ [⟨4, 0⟩] ∧
      t.reg ^^^ t.corr = crcBytes (s.reg ^^^ s.corr) (bs.take (foldedBefore addr len j)) ∧
      t.phase = .OPEN ∧ t.mem = s.mem ∧ t.inputs = s.inputs ∧ t.fresh = s.fresh ∧
      (foldedBefore addr len j = 0 → t.corr = s.corr ∧ t.reg = s.reg) ∧
      (0 < foldedBefore addr len j → foldedBefore addr len j = (splitBuffer addr len).lead.val →
        t.corr = (s.reg ^^^ s.corr) <<< (8 * (splitBuffer addr len).lead.val)) ∧
      ((splitBuffer addr len).lead.val < foldedBefore addr len j → t.corr = 0) ∧
      t.trace = s.trace ++ es ∧ es.map eventKind = busFaultKinds addr len j ∧
      replayEngine s.reg es = t.reg ∧ readsAnswered s.reg es ∧
      ∀ e ∈ es, ∀ a ∈ eventAddresses e, a < addr.toNat + j

/-! ## FINISH -/

/-- R110, R111: FINISH in an open session returns `TRUE`, leaves `REG` and `CORR` and closes the session; its whole
frame. -/
def Obligations.FinishResult : Prop :=
  ∀ s : State, s.fault = 0 → s.phase = .OPEN →
    exec .finish s =
      .next { s with
        phase := .CLOSED
        responses := s.responses ++ [⟨0, s.reg ^^^ s.corr⟩]
        trace := s.trace ++ [.engRead s.reg] }

/-! ## Faults -/

/-- R122: an illegal descriptor raises `IllegalCommand` before anything else of the command; no state but `FAULT`
changes (and the model's own records). -/
def Obligations.IllegalCommandRaised : Prop :=
  ∀ (s : State) (c : BitVec 96) (rest : List Input), s.inputs = .port (.command c) :: rest →
    s.fault = 0 → (∀ i, decodeCommand c ≠ .ok i) →
    step s =
      .next { s with
        inputs := rest
        fault := 1
        faultInfo := some (.illegalCommand c)
        responses := s.responses ++ [⟨1, 0⟩] }

/-- R127: while `FAULT != 0` a host command does nothing and reports the code, and no step but a hardware reset changes
the code. -/
def Obligations.FaultIsSticky : Prop :=
  (∀ (i : Instr) (s : State), isHostCommand i = true → s.fault ≠ 0 →
    exec i s = .next { s with responses := s.responses ++ [⟨s.fault, 0⟩] }) ∧
  (∀ s t : State, s.fault ≠ 0 → step s = .next t →
    (∀ input rest, s.inputs = input :: rest → isReset input = false) →
    t.fault = s.fault ∧ t.faultInfo = s.faultInfo)

/-- R126: the order in which a host command is handled; the first condition that holds decides.
Premise P-stable (R44,
R148, R153; assumption log 11): no byte of the buffer changes during the PROCESS, which the model's atomic command builds in. -/
def Obligations.CommandPriority : Prop :=
  ∀ (s : State) (c : BitVec 96) (rest : List Input), s.inputs = .port (.command c) :: rest →
    (s.fault ≠ 0 →
      step s = .next { s with inputs := rest, responses := s.responses ++ [⟨s.fault, 0⟩] }) ∧
    (s.fault = 0 → (∀ i, decodeCommand c ≠ .ok i) →
      step s = .next { s with
        inputs := rest, fault := 1, faultInfo := some (.illegalCommand c)
        responses := s.responses ++ [⟨1, 0⟩] }) ∧
    (s.fault = 0 → ∀ i, decodeCommand c = .ok i → i.mnemonic ≠ .start → s.phase = .CLOSED →
      step s = .next { s with
        inputs := rest, fault := 2, faultInfo := some (.protocolViolation i.mnemonic)
        responses := s.responses ++ [⟨2, 0⟩] }) ∧
    (s.fault = 0 → ∀ addr len, decodeCommand c = .ok (.process addr len) → s.phase = .OPEN →
      2 ^ 32 < addr.toNat + len.toNat →
      step s = .next { s with
        inputs := rest, fault := 3, faultInfo := some (.bufferRange addr len)
        responses := s.responses ++ [⟨3, 0⟩] }) ∧
    (s.fault = 0 → ∀ addr len, decodeCommand c = .ok (.process addr len) → s.phase = .OPEN →
      addr.toNat + len.toNat ≤ 2 ^ 32 →
      ∃ t, step s = .next t ∧
        (∀ bs, bufferBytes s.mem addr.toNat len.toNat = some bs →
          t.fault = 0 ∧ t.responses = s.responses ++ [⟨0, 0⟩]) ∧
        (∀ j bs, j < len.toNat → bufferBytes s.mem addr.toNat j = some bs →
          Memory.lookup s.mem (addr.toNat + j) = none →
          t.fault = 4 ∧ t.faultInfo = some (.busFault (addr + BitVec.ofNat 32 j)) ∧
          t.responses = s.responses ++ [⟨4, 0⟩])) ∧
    (s.fault = 0 → ∀ i, decodeCommand c = .ok i →
      i.mnemonic = .start ∨ i.mnemonic = .finish ∧ s.phase = .OPEN →
      ∃ t v, step s = .next t ∧ t.fault = 0 ∧ t.responses = s.responses ++ [⟨0, v⟩])

/-! ## Whole-machine rules -/

/-- R10's column "written by" over all operations: what each register's writers are, and that memory has none (R31). -/
def Obligations.RegistersWrittenOnlyByTheirWriters : Prop :=
  ∀ (i : Instr) (s t : State), exec i s = .next t →
    (t.corr ≠ s.corr → i.mnemonic ∈
      [Mnemonic.start, Mnemonic.fold1, Mnemonic.fold2, Mnemonic.fold3, Mnemonic.word, Mnemonic.process]) ∧
    (t.reg ≠ s.reg → i.mnemonic ∈
      [Mnemonic.engReset, Mnemonic.engWrite, Mnemonic.start, Mnemonic.fold1, Mnemonic.fold2,
        Mnemonic.fold3, Mnemonic.word, Mnemonic.process]) ∧
    (t.phase ≠ s.phase → i.mnemonic ∈ [Mnemonic.start, Mnemonic.finish]) ∧
    (t.fault ≠ s.fault ∨ t.faultInfo ≠ s.faultInfo →
      i.mnemonic ∈ [Mnemonic.process, Mnemonic.finish] ∧ s.fault = 0) ∧
    (t.ptr ≠ s.ptr ∨ t.cnt ≠ s.cnt → i.mnemonic = .process) ∧
    t.inputs = s.inputs ∧ t.fresh = s.fresh ∧
    ∀ a, Memory.lookup t.mem a = Memory.lookup s.mem a

/-- R147, R99, R140: a step changes `CORR` only by START, FOLD1, FOLD2, FOLD3, WORD (also inside PROCESS) and by a
hardware reset. -/
def Obligations.SoleMutatorsOfCorr : Prop :=
  ∀ s t : State, step s = .next t → t.corr ≠ s.corr →
    ∃ input rest, s.inputs = input :: rest ∧
      (isReset input = true ∨
        ∃ p i, input = .port p ∧ decode p = .ok i ∧ i.mnemonic ∈
          [Mnemonic.start, Mnemonic.fold1, Mnemonic.fold2, Mnemonic.fold3, Mnemonic.word,
            Mnemonic.process])

/-- R51, R120, R123: one response per host command and none for any other operation; its status is the value `FAULT`
holds after the command; a value other than 0 only from a completed FINISH. -/
def Obligations.OneResponsePerHostCommand : Prop :=
  ∀ (i : Instr) (s t : State), exec i s = .next t →
    (isHostCommand i = true →
      ∃ r, t.responses = s.responses ++ [r] ∧ r.status = t.fault ∧
        (r.value ≠ 0 → r.status = 0 ∧ i = .finish ∧ r.value = s.reg ^^^ s.corr)) ∧
    (isHostCommand i = false → t.responses = s.responses)

/-- R56, R57: every request an operation issues is one R56 allows the block to issue. Who issues each: ENG.RESET only
START (R74), ENG.WRITE only FOLD1 to FOLD3 and WORD (R75), ENG.READ only FOLD1 to FOLD3 and FINISH (R76), PROCESS through
its folds and WORDs, and each request itself when it is run as a step (assumption log 5). Memory is read by PROCESS only
(R30). -/
def Obligations.RequestsWellFormed : Prop :=
  ∀ (i : Instr) (s t : State), exec i s = .next t →
    ∃ es, t.trace = s.trace ++ es ∧
      (∀ e ∈ es, ∀ p, eventRequest e = some p → p.wellFormed = true) ∧
      (EventKind.engReset ∈ es.map eventKind → i.mnemonic ∈ [Mnemonic.start, Mnemonic.engReset]) ∧
      (EventKind.engWrite ∈ es.map eventKind → i.mnemonic ∈
        [Mnemonic.fold1, Mnemonic.fold2, Mnemonic.fold3, Mnemonic.word, Mnemonic.process,
          Mnemonic.engWrite]) ∧
      (EventKind.engRead ∈ es.map eventKind → i.mnemonic ∈
        [Mnemonic.fold1, Mnemonic.fold2, Mnemonic.fold3, Mnemonic.process, Mnemonic.finish,
          Mnemonic.engRead]) ∧
      (EventKind.memRead1 ∈ es.map eventKind ∨ EventKind.memRead4 ∈ es.map eventKind →
        i.mnemonic = .process)

/-- R20, R21: what the spec leaves unspecified after hardware reset is never observable through the block. Two states
the host cannot tell apart stay so under every move of the host and the platform.
Premises of R153 that the model builds in: P-stable (R44, R148; assumption log 11), no byte of a buffer
changes during the PROCESS that names it, and P-engine (R146; assumption log 8), no other agent uses the engine while
a session is open. -/
def Obligations.HiddenRegistersUnobservable : Prop :=
  ∀ s t s' : State, hostAlike s t → (∀ input rest, s.inputs = input :: rest → hostMove input = true) →
    step s = .next s' → ∃ t', step t = .next t' ∧ hostAlike s' t'

/-- R13 as an invariant: while a session is open and no fault is recorded, `TRUE` is the reference CRC of the bytes `S`
folded since the START with `seed`. Stated for every step whose input is not ENG.RESET or ENG.WRITE put on the engine port
by itself: a host never sends one (R152), it is a step of the model alone (assumption log 5), and it changes `REG` without
folding stream bytes. So it is stated for every host command, platform move, hardware reset and foreign request, and, for
the points between micro-operations (R13), for every fold and WORD. The ghost values of R22 change as R101, R108, R96 and
R98 say.
Premises of R153 that the model builds in: P-stable (R44, R148; assumption log 11), no byte of a buffer
changes during the PROCESS that names it, and P-engine (R146; assumption log 8), no other agent uses the engine while
a session is open. -/
def Obligations.SessionInvariantKept : Prop :=
  ∀ (s t : State) (seed : Word) (S : List Byte) (input : Input) (rest : List Input),
    s.inputs = input :: rest →
    (∀ p i, input = .port p → decode p = .ok i →
      i.mnemonic ≠ .engReset ∧ i.mnemonic ≠ .engWrite) →
    (s.phase = .OPEN → s.fault = 0 → s.reg ^^^ s.corr = crcBytes seed S) →
    step s = .next t → t.phase = .OPEN → t.fault = 0 →
    (∀ p i, input = .port p → decode p = .ok i →
      (∀ seed', i = .start seed' → t.reg ^^^ t.corr = crcBytes seed' []) ∧
      (∀ addr len, i = .process addr len →
        ∃ bs, bufferHolds s.mem addr len bs ∧ t.reg ^^^ t.corr = crcBytes seed (S ++ bs)) ∧
      (i.mnemonic ≠ .start → i.mnemonic ≠ .process →
        t.reg ^^^ t.corr = crcBytes seed (S ++ foldedBytes i))) ∧
    ((∀ p, input ≠ .port p) → t.reg ^^^ t.corr = crcBytes seed S)

/-- R112: for every seed and every sequence of readable buffers, a session from any state with no fault recorded
completes, and its FINISH returns the reference CRC of the concatenated bytes.
Premises of R153 that the model builds in: P-stable (R44, R148; assumption log 11), no byte of a buffer
changes during the PROCESS that names it, and P-engine (R146; assumption log 8), no other agent uses the engine while
a session is open. -/
def Obligations.SessionReferenceEquivalence : Prop :=
  ∀ (s : State) (seed : Word) (buffers : List (Addr × Len)) (contents : List (List Byte))
    (rest : List Input), s.fault = 0 → s.inputs = sessionInputs seed buffers ++ rest →
    buffersHold s.mem buffers contents →
    ∃ t, runSteps (buffers.length + 2) s = .next t ∧ t.inputs = rest ∧
      t.phase = .CLOSED ∧ t.fault = 0 ∧
      t.responses = s.responses ++ List.replicate (buffers.length + 1) ⟨0, 0⟩
        ++ [⟨0, crcBytes seed contents.flatten⟩]

/-- R113, R114: two sessions with the same seed and the same byte sequence, cut into calls and placed in memory in any
two ways, give the same FINISH result.
Premises of R153 that the model builds in: P-stable (R44, R148; assumption log 11), no byte of a buffer
changes during the PROCESS that names it, and P-engine (R146; assumption log 8), no other agent uses the engine while
a session is open. -/
def Obligations.SplittingAndAlignmentInvariance : Prop :=
  ∀ (s s' : State) (seed : Word) (buffers buffers' : List (Addr × Len))
    (contents contents' : List (List Byte)) (rest rest' : List Input),
    s.fault = 0 → s'.fault = 0 → s.inputs = sessionInputs seed buffers ++ rest →
    s'.inputs = sessionInputs seed buffers' ++ rest' → buffersHold s.mem buffers contents →
    buffersHold s'.mem buffers' contents' → contents.flatten = contents'.flatten →
    ∃ t t' v, runSteps (buffers.length + 2) s = .next t ∧
      runSteps (buffers'.length + 2) s' = .next t' ∧
      t.responses.getLast? = some ⟨0, v⟩ ∧ t'.responses.getLast? = some ⟨0, v⟩
end

