-- ==== Sys2Proof/Laws/State.lean ====
section
/-! SUPPORT. What each operation of Machine/Ops.lean does to each field of the state, by rfl. -/

namespace Sys2Proof.Machine

@[simp] theorem respond_corr (status : BitVec 3) (value : Word) (s : State) :
    (respond status value s).corr = s.corr := rfl
@[simp] theorem respond_reg (status : BitVec 3) (value : Word) (s : State) :
    (respond status value s).reg = s.reg := rfl
@[simp] theorem respond_phase (status : BitVec 3) (value : Word) (s : State) :
    (respond status value s).phase = s.phase := rfl
@[simp] theorem respond_fault (status : BitVec 3) (value : Word) (s : State) :
    (respond status value s).fault = s.fault := rfl
@[simp] theorem respond_ptr (status : BitVec 3) (value : Word) (s : State) :
    (respond status value s).ptr = s.ptr := rfl
@[simp] theorem respond_cnt (status : BitVec 3) (value : Word) (s : State) :
    (respond status value s).cnt = s.cnt := rfl
@[simp] theorem respond_mem (status : BitVec 3) (value : Word) (s : State) :
    (respond status value s).mem = s.mem := rfl
@[simp] theorem respond_faultInfo (status : BitVec 3) (value : Word) (s : State) :
    (respond status value s).faultInfo = s.faultInfo := rfl
@[simp] theorem respond_inputs (status : BitVec 3) (value : Word) (s : State) :
    (respond status value s).inputs = s.inputs := rfl
@[simp] theorem respond_responses (status : BitVec 3) (value : Word) (s : State) :
    (respond status value s).responses = s.responses ++ [⟨status, value⟩] := rfl
@[simp] theorem respond_trace (status : BitVec 3) (value : Word) (s : State) :
    (respond status value s).trace = s.trace := rfl
@[simp] theorem respond_fresh (status : BitVec 3) (value : Word) (s : State) :
    (respond status value s).fresh = s.fresh := rfl

@[simp] theorem raise_corr (info : FaultInfo) (s : State) : (raise info s).corr = s.corr := rfl
@[simp] theorem raise_reg (info : FaultInfo) (s : State) : (raise info s).reg = s.reg := rfl
@[simp] theorem raise_phase (info : FaultInfo) (s : State) : (raise info s).phase = s.phase := rfl
@[simp] theorem raise_fault (info : FaultInfo) (s : State) : (raise info s).fault = faultCode info := rfl
@[simp] theorem raise_ptr (info : FaultInfo) (s : State) : (raise info s).ptr = s.ptr := rfl
@[simp] theorem raise_cnt (info : FaultInfo) (s : State) : (raise info s).cnt = s.cnt := rfl
@[simp] theorem raise_mem (info : FaultInfo) (s : State) : (raise info s).mem = s.mem := rfl
@[simp] theorem raise_faultInfo (info : FaultInfo) (s : State) : (raise info s).faultInfo = some info := rfl
@[simp] theorem raise_inputs (info : FaultInfo) (s : State) : (raise info s).inputs = s.inputs := rfl
@[simp] theorem raise_responses (info : FaultInfo) (s : State) :
    (raise info s).responses = s.responses ++ [⟨faultCode info, 0⟩] := rfl
@[simp] theorem raise_trace (info : FaultInfo) (s : State) : (raise info s).trace = s.trace := rfl
@[simp] theorem raise_fresh (info : FaultInfo) (s : State) : (raise info s).fresh = s.fresh := rfl

@[simp] theorem stickyResponse_corr (s : State) : (stickyResponse s).corr = s.corr := rfl
@[simp] theorem stickyResponse_reg (s : State) : (stickyResponse s).reg = s.reg := rfl
@[simp] theorem stickyResponse_phase (s : State) : (stickyResponse s).phase = s.phase := rfl
@[simp] theorem stickyResponse_fault (s : State) : (stickyResponse s).fault = s.fault := rfl
@[simp] theorem stickyResponse_ptr (s : State) : (stickyResponse s).ptr = s.ptr := rfl
@[simp] theorem stickyResponse_cnt (s : State) : (stickyResponse s).cnt = s.cnt := rfl
@[simp] theorem stickyResponse_mem (s : State) : (stickyResponse s).mem = s.mem := rfl
@[simp] theorem stickyResponse_faultInfo (s : State) : (stickyResponse s).faultInfo = s.faultInfo := rfl
@[simp] theorem stickyResponse_inputs (s : State) : (stickyResponse s).inputs = s.inputs := rfl
@[simp] theorem stickyResponse_responses (s : State) :
    (stickyResponse s).responses = s.responses ++ [⟨s.fault, 0⟩] := rfl
@[simp] theorem stickyResponse_trace (s : State) : (stickyResponse s).trace = s.trace := rfl
@[simp] theorem stickyResponse_fresh (s : State) : (stickyResponse s).fresh = s.fresh := rfl

@[simp] theorem record_corr (e : Event) (s : State) : (record e s).corr = s.corr := rfl
@[simp] theorem record_reg (e : Event) (s : State) : (record e s).reg = s.reg := rfl
@[simp] theorem record_phase (e : Event) (s : State) : (record e s).phase = s.phase := rfl
@[simp] theorem record_fault (e : Event) (s : State) : (record e s).fault = s.fault := rfl
@[simp] theorem record_ptr (e : Event) (s : State) : (record e s).ptr = s.ptr := rfl
@[simp] theorem record_cnt (e : Event) (s : State) : (record e s).cnt = s.cnt := rfl
@[simp] theorem record_mem (e : Event) (s : State) : (record e s).mem = s.mem := rfl
@[simp] theorem record_faultInfo (e : Event) (s : State) : (record e s).faultInfo = s.faultInfo := rfl
@[simp] theorem record_inputs (e : Event) (s : State) : (record e s).inputs = s.inputs := rfl
@[simp] theorem record_responses (e : Event) (s : State) : (record e s).responses = s.responses := rfl
@[simp] theorem record_trace (e : Event) (s : State) : (record e s).trace = s.trace ++ [e] := rfl
@[simp] theorem record_fresh (e : Event) (s : State) : (record e s).fresh = s.fresh := rfl

@[simp] theorem engReset_corr (s : State) : (engReset s).corr = s.corr := rfl
@[simp] theorem engReset_reg (s : State) : (engReset s).reg = Config.C0 := rfl
@[simp] theorem engReset_phase (s : State) : (engReset s).phase = s.phase := rfl
@[simp] theorem engReset_fault (s : State) : (engReset s).fault = s.fault := rfl
@[simp] theorem engReset_ptr (s : State) : (engReset s).ptr = s.ptr := rfl
@[simp] theorem engReset_cnt (s : State) : (engReset s).cnt = s.cnt := rfl
@[simp] theorem engReset_mem (s : State) : (engReset s).mem = s.mem := rfl
@[simp] theorem engReset_faultInfo (s : State) : (engReset s).faultInfo = s.faultInfo := rfl
@[simp] theorem engReset_inputs (s : State) : (engReset s).inputs = s.inputs := rfl
@[simp] theorem engReset_responses (s : State) : (engReset s).responses = s.responses := rfl
@[simp] theorem engReset_trace (s : State) : (engReset s).trace = s.trace ++ [.engReset] := rfl
@[simp] theorem engReset_fresh (s : State) : (engReset s).fresh = s.fresh := rfl

@[simp] theorem engWrite_corr (w : Word) (s : State) : (engWrite w s).corr = s.corr := rfl
@[simp] theorem engWrite_reg (w : Word) (s : State) : (engWrite w s).reg = crcWord s.reg w := rfl
@[simp] theorem engWrite_phase (w : Word) (s : State) : (engWrite w s).phase = s.phase := rfl
@[simp] theorem engWrite_fault (w : Word) (s : State) : (engWrite w s).fault = s.fault := rfl
@[simp] theorem engWrite_ptr (w : Word) (s : State) : (engWrite w s).ptr = s.ptr := rfl
@[simp] theorem engWrite_cnt (w : Word) (s : State) : (engWrite w s).cnt = s.cnt := rfl
@[simp] theorem engWrite_mem (w : Word) (s : State) : (engWrite w s).mem = s.mem := rfl
@[simp] theorem engWrite_faultInfo (w : Word) (s : State) : (engWrite w s).faultInfo = s.faultInfo := rfl
@[simp] theorem engWrite_inputs (w : Word) (s : State) : (engWrite w s).inputs = s.inputs := rfl
@[simp] theorem engWrite_responses (w : Word) (s : State) : (engWrite w s).responses = s.responses := rfl
@[simp] theorem engWrite_trace (w : Word) (s : State) : (engWrite w s).trace = s.trace ++ [.engWrite w] := rfl
@[simp] theorem engWrite_fresh (w : Word) (s : State) : (engWrite w s).fresh = s.fresh := rfl

@[simp] theorem advance_corr (n : Nat) (s : State) : (advance n s).corr = s.corr := rfl
@[simp] theorem advance_reg (n : Nat) (s : State) : (advance n s).reg = s.reg := rfl
@[simp] theorem advance_phase (n : Nat) (s : State) : (advance n s).phase = s.phase := rfl
@[simp] theorem advance_fault (n : Nat) (s : State) : (advance n s).fault = s.fault := rfl
@[simp] theorem advance_ptr (n : Nat) (s : State) : (advance n s).ptr = s.ptr + BitVec.ofNat 32 n := rfl
@[simp] theorem advance_cnt (n : Nat) (s : State) : (advance n s).cnt = s.cnt - BitVec.ofNat 32 n := rfl
@[simp] theorem advance_mem (n : Nat) (s : State) : (advance n s).mem = s.mem := rfl
@[simp] theorem advance_faultInfo (n : Nat) (s : State) : (advance n s).faultInfo = s.faultInfo := rfl
@[simp] theorem advance_inputs (n : Nat) (s : State) : (advance n s).inputs = s.inputs := rfl
@[simp] theorem advance_responses (n : Nat) (s : State) : (advance n s).responses = s.responses := rfl
@[simp] theorem advance_trace (n : Nat) (s : State) : (advance n s).trace = s.trace := rfl
@[simp] theorem advance_fresh (n : Nat) (s : State) : (advance n s).fresh = s.fresh := rfl

@[simp] theorem foldWord_corr (w : Word) (s : State) : (foldWord w s).corr = 0 := rfl
@[simp] theorem foldWord_reg (w : Word) (s : State) : (foldWord w s).reg = crcWord s.reg (w ^^^ s.corr) := rfl
@[simp] theorem foldWord_phase (w : Word) (s : State) : (foldWord w s).phase = s.phase := rfl
@[simp] theorem foldWord_fault (w : Word) (s : State) : (foldWord w s).fault = s.fault := rfl
@[simp] theorem foldWord_ptr (w : Word) (s : State) : (foldWord w s).ptr = s.ptr := rfl
@[simp] theorem foldWord_cnt (w : Word) (s : State) : (foldWord w s).cnt = s.cnt := rfl
@[simp] theorem foldWord_mem (w : Word) (s : State) : (foldWord w s).mem = s.mem := rfl
@[simp] theorem foldWord_faultInfo (w : Word) (s : State) : (foldWord w s).faultInfo = s.faultInfo := rfl
@[simp] theorem foldWord_inputs (w : Word) (s : State) : (foldWord w s).inputs = s.inputs := rfl
@[simp] theorem foldWord_responses (w : Word) (s : State) : (foldWord w s).responses = s.responses := rfl
@[simp] theorem foldWord_trace (w : Word) (s : State) :
    (foldWord w s).trace = s.trace ++ [.engWrite (w ^^^ s.corr)] := rfl
@[simp] theorem foldWord_fresh (w : Word) (s : State) : (foldWord w s).fresh = s.fresh := rfl

@[simp] theorem setByte_corr (a : Addr) (v : Option Byte) (s : State) : (setByte a v s).corr = s.corr := rfl
@[simp] theorem setByte_reg (a : Addr) (v : Option Byte) (s : State) : (setByte a v s).reg = s.reg := rfl
@[simp] theorem setByte_phase (a : Addr) (v : Option Byte) (s : State) :
    (setByte a v s).phase = s.phase := rfl
@[simp] theorem setByte_fault (a : Addr) (v : Option Byte) (s : State) :
    (setByte a v s).fault = s.fault := rfl
@[simp] theorem setByte_ptr (a : Addr) (v : Option Byte) (s : State) : (setByte a v s).ptr = s.ptr := rfl
@[simp] theorem setByte_cnt (a : Addr) (v : Option Byte) (s : State) : (setByte a v s).cnt = s.cnt := rfl
@[simp] theorem setByte_mem (a : Addr) (v : Option Byte) (s : State) :
    (setByte a v s).mem = Memory.set s.mem a.toNat v := rfl
@[simp] theorem setByte_faultInfo (a : Addr) (v : Option Byte) (s : State) :
    (setByte a v s).faultInfo = s.faultInfo := rfl
@[simp] theorem setByte_inputs (a : Addr) (v : Option Byte) (s : State) :
    (setByte a v s).inputs = s.inputs := rfl
@[simp] theorem setByte_responses (a : Addr) (v : Option Byte) (s : State) :
    (setByte a v s).responses = s.responses := rfl
@[simp] theorem setByte_trace (a : Addr) (v : Option Byte) (s : State) :
    (setByte a v s).trace = s.trace := rfl
@[simp] theorem setByte_fresh (a : Addr) (v : Option Byte) (s : State) :
    (setByte a v s).fresh = s.fresh := rfl

@[simp] theorem hardwareReset_corr (s : State) : (hardwareReset s).corr = Config.freeWord s.fresh := rfl
@[simp] theorem hardwareReset_reg (s : State) : (hardwareReset s).reg = Config.freeWord (s.fresh + 1) := rfl
@[simp] theorem hardwareReset_phase (s : State) : (hardwareReset s).phase = .CLOSED := rfl
@[simp] theorem hardwareReset_fault (s : State) : (hardwareReset s).fault = 0 := rfl
@[simp] theorem hardwareReset_ptr (s : State) : (hardwareReset s).ptr = Config.freeWord (s.fresh + 2) := rfl
@[simp] theorem hardwareReset_cnt (s : State) : (hardwareReset s).cnt = Config.freeWord (s.fresh + 3) := rfl
@[simp] theorem hardwareReset_mem (s : State) : (hardwareReset s).mem = s.mem := rfl
@[simp] theorem hardwareReset_faultInfo (s : State) : (hardwareReset s).faultInfo = none := rfl
@[simp] theorem hardwareReset_inputs (s : State) : (hardwareReset s).inputs = s.inputs := rfl
@[simp] theorem hardwareReset_responses (s : State) : (hardwareReset s).responses = s.responses := rfl
@[simp] theorem hardwareReset_trace (s : State) : (hardwareReset s).trace = s.trace := rfl
@[simp] theorem hardwareReset_fresh (s : State) : (hardwareReset s).fresh = s.fresh + 4 := rfl

@[simp] theorem engRead_fst (s : State) : (engRead s).1 = s.reg := rfl
@[simp] theorem engRead_snd (s : State) : (engRead s).2 = record (.engRead s.reg) s := rfl

end Sys2Proof.Machine
end

