-- ==== Sys2Proof/Laws/Corrector.lean ====
section
/-! SUPPORT. What a fold does: its two register results and its requests, and that nothing else changes. -/

namespace Sys2Proof.Machine

/-- The synthetic word of a fold (spec/42_subword_corrector.md R92). -/
theorem foldBytes_eq (k : Nat) (packed : Word) (s : State) :
    foldBytes k packed s =
      { s with
        reg := crcWord s.reg (s.reg ^^^ packed ^^^ ((s.reg ^^^ s.corr) >>> (32 - 8 * k)))
        corr := (s.reg ^^^ s.corr) <<< (8 * k)
        trace := s.trace ++ [.engRead s.reg] ++
          [.engWrite (s.reg ^^^ packed ^^^ ((s.reg ^^^ s.corr) >>> (32 - 8 * k)))] } := rfl

/-- A fold of one to three bytes is the general rule at its count; a fold of none is nothing (R91, R92). -/
theorem foldSubWord_eq (d : SubWord) (s : State) :
    foldSubWord d s = if d = .zero then s else foldBytes (subWordCount d) (packLo d) s := by
  cases d <;> rfl

/-- A fold changes `REG`, `CORR` and the trace only. -/
theorem foldSubWord_frame (d : SubWord) (s : State) :
    foldSubWord d s =
      { s with
        reg := (foldSubWord d s).reg
        corr := (foldSubWord d s).corr
        trace := (foldSubWord d s).trace } := by
  cases d <;> rfl

@[simp] theorem foldSubWord_phase (d : SubWord) (s : State) : (foldSubWord d s).phase = s.phase := by
  rw [foldSubWord_frame]
@[simp] theorem foldSubWord_fault (d : SubWord) (s : State) : (foldSubWord d s).fault = s.fault := by
  rw [foldSubWord_frame]
@[simp] theorem foldSubWord_ptr (d : SubWord) (s : State) : (foldSubWord d s).ptr = s.ptr := by
  rw [foldSubWord_frame]
@[simp] theorem foldSubWord_cnt (d : SubWord) (s : State) : (foldSubWord d s).cnt = s.cnt := by
  rw [foldSubWord_frame]
@[simp] theorem foldSubWord_mem (d : SubWord) (s : State) : (foldSubWord d s).mem = s.mem := by
  rw [foldSubWord_frame]
@[simp] theorem foldSubWord_faultInfo (d : SubWord) (s : State) :
    (foldSubWord d s).faultInfo = s.faultInfo := by rw [foldSubWord_frame]
@[simp] theorem foldSubWord_inputs (d : SubWord) (s : State) : (foldSubWord d s).inputs = s.inputs := by
  rw [foldSubWord_frame]
@[simp] theorem foldSubWord_responses (d : SubWord) (s : State) :
    (foldSubWord d s).responses = s.responses := by rw [foldSubWord_frame]
@[simp] theorem foldSubWord_fresh (d : SubWord) (s : State) : (foldSubWord d s).fresh = s.fresh := by
  rw [foldSubWord_frame]

end Sys2Proof.Machine
end

