-- ==== Sys2Proof/Laws/Access.lean ====
section
/-! SUPPORT. What the reads and the steps of a PROCESS can answer, said once per operation, and what every one of them
leaves unchanged. -/

namespace Sys2Proof.Machine

/-! ## The read primitives -/

/-- Everything `MemRead(a, 1)` can do (spec/20_memory.md R33). -/
theorem memRead1_cases (a : Addr) (s : State) :
    (∃ b, Memory.lookup s.mem a.toNat = some b ∧ memRead1 a s = .done b (record (.memRead1 a b) s)) ∨
    (Memory.lookup s.mem a.toNat = none ∧ memRead1 a s = .stopped (.busFault a) s) := by
  unfold memRead1
  cases Memory.lookup s.mem a.toNat with
  | none => exact .inr ⟨rfl, rfl⟩
  | some b => exact .inl ⟨b, rfl, rfl⟩

/-- Everything `MemRead(a, 4)` can do (R34): all four bytes, or the lowest unreadable one. -/
theorem memRead4_cases (a : Addr) (s : State) :
    (∃ b0 b1 b2 b3, Memory.lookup s.mem a.toNat = some b0 ∧
      Memory.lookup s.mem (a + 1).toNat = some b1 ∧ Memory.lookup s.mem (a + 2).toNat = some b2 ∧
      Memory.lookup s.mem (a + 3).toNat = some b3 ∧
      memRead4 a s = .done (leWord b0 b1 b2 b3) (record (.memRead4 a (leWord b0 b1 b2 b3)) s)) ∨
    (∃ j : Nat, j < 4 ∧ (∀ i < j, ∃ b, Memory.lookup s.mem (a + BitVec.ofNat 32 i).toNat = some b) ∧
      Memory.lookup s.mem (a + BitVec.ofNat 32 j).toNat = none ∧
      memRead4 a s = .stopped (.busFault (a + BitVec.ofNat 32 j)) s) := by
  have z : a + BitVec.ofNat 32 0 = a := BitVec.add_zero a
  unfold memRead4
  cases h0 : Memory.lookup s.mem a.toNat with
  | none => exact .inr ⟨0, by omega, by omega, by rw [z, h0], by rw [z]⟩
  | some b0 =>
  cases h1 : Memory.lookup s.mem (a + 1).toNat with
  | none =>
    refine .inr ⟨1, by omega, fun i hi => ⟨b0, ?_⟩, h1, rfl⟩
    obtain rfl : i = 0 := by omega
    rw [z, h0]
  | some b1 =>
  cases h2 : Memory.lookup s.mem (a + 2).toNat with
  | none =>
    refine .inr ⟨2, by omega, fun i hi => ?_, h2, rfl⟩
    obtain rfl | rfl : i = 0 ∨ i = 1 := by omega
    · exact ⟨b0, by rw [z, h0]⟩
    · exact ⟨b1, h1⟩
  | some b2 =>
  cases h3 : Memory.lookup s.mem (a + 3).toNat with
  | none =>
    refine .inr ⟨3, by omega, fun i hi => ?_, h3, rfl⟩
    obtain rfl | rfl | rfl : i = 0 ∨ i = 1 ∨ i = 2 := by omega
    · exact ⟨b0, by rw [z, h0]⟩
    · exact ⟨b1, h1⟩
    · exact ⟨b2, h2⟩
  | some b3 => exact .inl ⟨b0, b1, b2, b3, rfl, rfl, rfl, rfl, rfl⟩

/-! ## The frame of a PROCESS -/

/-- The state an access ends in. -/
def accessState {α : Type} : Access α → State
  | .done _ s => s
  | .stopped _ s => s

/-- What a PROCESS leaves alone before its response: `PHASE`, `FAULT`, memory, and the model's own fields but the
trace, to which it only adds. -/
def keepsSurround (s t : State) : Prop :=
  t.phase = s.phase ∧ t.fault = s.fault ∧ t.faultInfo = s.faultInfo ∧ t.mem = s.mem ∧
    t.inputs = s.inputs ∧ t.responses = s.responses ∧ t.fresh = s.fresh ∧
    ∃ es, t.trace = s.trace ++ es

theorem keepsSurround_refl (s : State) : keepsSurround s s :=
  ⟨rfl, rfl, rfl, rfl, rfl, rfl, rfl, [], (List.append_nil _).symm⟩

theorem keepsSurround_trans {s t u : State} (h : keepsSurround s t) (g : keepsSurround t u) :
    keepsSurround s u := by
  obtain ⟨h1, h2, h3, h4, h5, h6, h7, es, h8⟩ := h
  obtain ⟨g1, g2, g3, g4, g5, g6, g7, fs, g8⟩ := g
  exact ⟨g1.trans h1, g2.trans h2, g3.trans h3, g4.trans h4, g5.trans h5, g6.trans h6, g7.trans h7,
    es ++ fs, by rw [g8, h8, List.append_assoc]⟩

theorem keepsSurround_record (e : Event) (s : State) : keepsSurround s (record e s) :=
  ⟨rfl, rfl, rfl, rfl, rfl, rfl, rfl, [e], rfl⟩

theorem keepsSurround_advance (n : Nat) (s : State) : keepsSurround s (advance n s) :=
  ⟨rfl, rfl, rfl, rfl, rfl, rfl, rfl, [], (List.append_nil _).symm⟩

theorem keepsSurround_foldWord (w : Word) (s : State) : keepsSurround s (foldWord w s) :=
  ⟨rfl, rfl, rfl, rfl, rfl, rfl, rfl, _, rfl⟩

theorem keepsSurround_foldBytes (k : Nat) (packed : Word) (s : State) :
    keepsSurround s (foldBytes k packed s) := by
  rw [foldBytes_eq]
  exact ⟨rfl, rfl, rfl, rfl, rfl, rfl, rfl, _, List.append_assoc _ _ _⟩

theorem keepsSurround_foldSubWord (d : SubWord) (s : State) : keepsSurround s (foldSubWord d s) := by
  rw [foldSubWord_eq]
  split
  · exact keepsSurround_refl s
  · exact keepsSurround_foldBytes _ _ s

/-- A sequence keeps what both its parts keep. -/
theorem keepsSurround_andThen {α β : Type} {s : State} {x : Access α} {f : α → State → Access β}
    (hx : keepsSurround s (accessState x)) (hf : ∀ a t, keepsSurround t (accessState (f a t))) :
    keepsSurround s (accessState (andThen x f)) := by
  cases x with
  | done a t => exact keepsSurround_trans hx (hf a t)
  | stopped info t => exact hx

theorem keepsSurround_memRead1 (a : Addr) (s : State) : keepsSurround s (accessState (memRead1 a s)) := by
  rcases memRead1_cases a s with ⟨b, -, h⟩ | ⟨-, h⟩ <;> rw [h]
  · exact keepsSurround_record _ s
  · exact keepsSurround_refl s

theorem keepsSurround_memRead4 (a : Addr) (s : State) : keepsSurround s (accessState (memRead4 a s)) := by
  rcases memRead4_cases a s with ⟨b0, b1, b2, b3, -, -, -, -, h⟩ | ⟨j, -, -, -, h⟩ <;> rw [h]
  · exact keepsSurround_record _ s
  · exact keepsSurround_refl s

theorem keepsSurround_readSubWord (k : Fin 4) (s : State) :
    keepsSurround s (accessState (readSubWord k s)) := by
  match k with
  | 0 => exact keepsSurround_refl s
  | 1 => exact keepsSurround_andThen (keepsSurround_memRead1 _ s) fun _ t => keepsSurround_refl t
  | 2 =>
    exact keepsSurround_andThen (keepsSurround_memRead1 _ s) fun _ t =>
      keepsSurround_andThen (keepsSurround_memRead1 _ t) fun _ u => keepsSurround_refl u
  | 3 =>
    exact keepsSurround_andThen (keepsSurround_memRead1 _ s) fun _ t =>
      keepsSurround_andThen (keepsSurround_memRead1 _ t) fun _ u =>
        keepsSurround_andThen (keepsSurround_memRead1 _ u) fun _ v => keepsSurround_refl v

theorem keepsSurround_processRemainder (k : Fin 4) (s : State) :
    keepsSurround s (accessState (processRemainder k s)) := by
  unfold processRemainder
  split
  · exact keepsSurround_refl s
  · exact keepsSurround_andThen (keepsSurround_readSubWord k s) fun d t =>
      keepsSurround_trans (keepsSurround_foldSubWord d t) (keepsSurround_advance _ _)

theorem keepsSurround_processWords (n : Nat) (s : State) :
    keepsSurround s (accessState (processWords n s)) := by
  induction n generalizing s with
  | zero => exact keepsSurround_refl s
  | succ n ih =>
    exact keepsSurround_andThen (keepsSurround_memRead4 _ s) fun m t =>
      keepsSurround_trans
        (keepsSurround_trans (keepsSurround_foldWord _ t) (keepsSurround_advance 4 _)) (ih _)

/-- The three steps of a PROCESS, completed or stopped, keep what surrounds them. -/
theorem keepsSurround_processBuffer (addr : Addr) (len : Len) (s : State) :
    keepsSurround s (accessState (processBuffer addr len s)) :=
  have hcursor : keepsSurround s { s with ptr := addr, cnt := len } :=
    ⟨rfl, rfl, rfl, rfl, rfl, rfl, rfl, [], (List.append_nil _).symm⟩
  keepsSurround_andThen (keepsSurround_trans hcursor (keepsSurround_processRemainder _ _)) fun _ t =>
    keepsSurround_andThen (keepsSurround_processWords _ t) fun _ u => keepsSurround_processRemainder _ u

end Sys2Proof.Machine
end

