-- ==== Sys2Proof/Laws/Crc.lean ====
section
/-! SUPPORT. The algebra the CRC functions rest on (spec/40_engine_primitives.md R70 to R73): the shift-register step is
linear in register and data together, and folding a register's own top byte only shifts it. -/

namespace Sys2Proof.Machine

/-- One step is linear over XOR in the register and the data bit together. -/
theorem crcBit_xor (a b : Word) (p q : Bool) :
    crcBit (a ^^^ b) (p ^^ q) = crcBit a p ^^^ crcBit b q := by
  have hshift : (a ^^^ b) <<< 1 = a <<< 1 ^^^ b <<< 1 := BitVec.shiftLeft_xor_distrib a b 1
  have hpoly (x y : Word) : x ^^^ Config.POLY ^^^ (y ^^^ Config.POLY) = x ^^^ y := by
    rw [BitVec.xor_comm y, ← BitVec.xor_assoc, BitVec.xor_assoc x, BitVec.xor_self, BitVec.xor_zero]
  have hleft (x y : Word) : x ^^^ Config.POLY ^^^ y = x ^^^ y ^^^ Config.POLY := by
    rw [BitVec.xor_assoc, BitVec.xor_comm Config.POLY, BitVec.xor_assoc]
  have hright (x y : Word) : x ^^^ (y ^^^ Config.POLY) = x ^^^ y ^^^ Config.POLY :=
    (BitVec.xor_assoc x y Config.POLY).symm
  unfold crcBit
  rw [BitVec.msb_xor, hshift]
  cases a.msb <;> cases b.msb <;> cases p <;> cases q <;> simp [hpoly, hleft, hright]

/-- A step whose data bit is the register's top bit only shifts. -/
theorem crcBit_msb (c : Word) : crcBit c c.msb = c <<< 1 := by
  unfold crcBit
  cases c.msb <;> simp

/-- Folding a byte is linear over XOR in the register and the byte together. -/
theorem crcByte_xor (a b : Word) (d e : Byte) :
    crcByte (a ^^^ b) (d ^^^ e) = crcByte a d ^^^ crcByte b e := by
  simp only [crcByte, List.foldl_cons, List.foldl_nil, BitVec.getLsbD_xor, crcBit_xor]

/-- Folding the register's own top byte only shifts the register. -/
theorem crcByte_top (c : Word) : crcByte c (c.extractLsb' 24 8) = c <<< 8 := by
  have h (n i : Nat) (hi : i < 8) (hn : n + i = 7) :
      crcBit (c <<< n) ((c.extractLsb' 24 8).getLsbD i) = c <<< (n + 1) := by
    have hbit : (c.extractLsb' 24 8).getLsbD i = (c <<< n).msb := by
      have h1 : 31 - n = 24 + i := by omega
      have h2 : ¬ 31 < n := by omega
      have h3 : 24 + i < 32 := by omega
      simp [BitVec.msb_eq_getLsbD_last, hi, h1, h2, BitVec.getLsbD_eq_getElem h3]
    rw [hbit, crcBit_msb, BitVec.shiftLeft_add]
  have h0 := h 0 7 (by omega) rfl
  rw [BitVec.shiftLeft_zero] at h0
  simp only [crcByte, List.foldl_cons, List.foldl_nil]
  rw [h0, h 1 6 (by omega) rfl, h 2 5 (by omega) rfl, h 3 4 (by omega) rfl, h 4 3 (by omega) rfl,
    h 5 2 (by omega) rfl, h 6 1 (by omega) rfl, h 7 0 (by omega) rfl]

end Sys2Proof.Machine
end

