-- ==== Sys2Proof/Laws/Decode.lean ====
section
/-! SUPPORT. What each decoder can answer: one inversion lemma per port, cited instead of unfolding the decoder. -/

namespace Sys2Proof

/-- The three legal shapes of a descriptor (spec/30_encoding.md R63). -/
theorem decodeCommand_ok {c : BitVec 96} {i : Instr} (h : decodeCommand c = .ok i) :
    (cmdRsv0 c = 0 ∧ cmdOp c = 0 ∧ cmdB c = 0 ∧ i = .start (cmdA c)) ∨
    (cmdRsv0 c = 0 ∧ cmdOp c = 1 ∧ i = .process (cmdA c) (cmdB c)) ∨
    (cmdRsv0 c = 0 ∧ cmdOp c = 2 ∧ cmdA c = 0 ∧ cmdB c = 0 ∧ i = .finish) := by
  unfold decodeCommand at h
  split at h
  · cases h
  rename_i hr
  split at h
  · split at h
    · rename_i ho hb
      cases h
      exact .inl ⟨not_not.mp hr, ho, hb, rfl⟩
    · cases h
  split at h
  · rename_i ho
    cases h
    exact .inr (.inl ⟨not_not.mp hr, ho, rfl⟩)
  split at h
  · split at h
    · rename_i ho hab
      cases h
      exact .inr (.inr ⟨not_not.mp hr, ho, hab.1, hab.2, rfl⟩)
    · cases h
  · cases h

/-- The four illegal shapes of a descriptor (R54). -/
theorem decodeCommand_error {c : BitVec 96} {e : Reject} (h : decodeCommand c = .error e) :
    cmdRsv0 c ≠ 0 ∨ (cmdOp c = 0 ∧ cmdB c ≠ 0) ∨ (cmdOp c = 2 ∧ ¬(cmdA c = 0 ∧ cmdB c = 0)) ∨
      (cmdOp c ≠ 0 ∧ cmdOp c ≠ 1 ∧ cmdOp c ≠ 2) := by
  unfold decodeCommand at h
  split at h
  · exact .inl ‹_›
  split at h
  · split at h
    · cases h
    · exact .inr (.inl ⟨‹_›, ‹_›⟩)
  split at h
  · cases h
  split at h
  · split at h
    · cases h
    · exact .inr (.inr (.inl ⟨‹_›, ‹_›⟩))
  · exact .inr (.inr (.inr ⟨‹_›, ‹_›, ‹_›⟩))

/-- The three requests (R55). -/
theorem decodeEngine_ok {r : BitVec 34} {i : Instr} (h : decodeEngine r = .ok i) :
    (reqEop r = 0 ∧ i = .engReset) ∨ (reqEop r = 1 ∧ i = .engWrite (reqData r)) ∨
      (reqEop r = 2 ∧ i = .engRead) := by
  unfold decodeEngine at h
  split at h
  · cases h
    exact .inl ⟨‹_›, rfl⟩
  split at h
  · cases h
    exact .inr (.inl ⟨‹_›, rfl⟩)
  split at h
  · cases h
    exact .inr (.inr ⟨‹_›, rfl⟩)
  · cases h

/-- The reserved request (R55). -/
theorem decodeEngine_error {r : BitVec 34} {e : Reject} (h : decodeEngine r = .error e) :
    reqEop r ≠ 0 ∧ reqEop r ≠ 1 ∧ reqEop r ≠ 2 := by
  unfold decodeEngine at h
  split at h
  · cases h
  split at h
  · cases h
  split at h
  · cases h
  · exact ⟨‹_›, ‹_›, ‹_›⟩

/-- The five labels that are generated (R58). -/
theorem decodeMicroOp_ok {l : BitVec 3} {d : Word} {i : Instr} (h : decodeMicroOp l d = .ok i) :
    (l = 0 ∧ i = .fold0) ∨ (l = 1 ∧ i = .fold1 (byteAt d 3)) ∨
      (l = 2 ∧ i = .fold2 (byteAt d 3) (byteAt d 2)) ∨
      (l = 3 ∧ i = .fold3 (byteAt d 3) (byteAt d 2) (byteAt d 1)) ∨ (l = 4 ∧ i = .word d) := by
  unfold decodeMicroOp at h
  split at h
  · cases h
    exact .inl ⟨‹_›, rfl⟩
  split at h
  · cases h
    exact .inr (.inl ⟨‹_›, rfl⟩)
  split at h
  · cases h
    exact .inr (.inr (.inl ⟨‹_›, rfl⟩))
  split at h
  · cases h
    exact .inr (.inr (.inr (.inl ⟨‹_›, rfl⟩)))
  split at h
  · cases h
    exact .inr (.inr (.inr (.inr ⟨‹_›, rfl⟩)))
  · cases h

/-- The labels that are never generated (R58). -/
theorem decodeMicroOp_error {l : BitVec 3} {d : Word} {e : Reject} (h : decodeMicroOp l d = .error e) :
    l ≠ 0 ∧ l ≠ 1 ∧ l ≠ 2 ∧ l ≠ 3 ∧ l ≠ 4 := by
  unfold decodeMicroOp at h
  split at h
  · cases h
  split at h
  · cases h
  split at h
  · cases h
  split at h
  · cases h
  split at h
  · cases h
  · exact ⟨‹_›, ‹_›, ‹_›, ‹_›, ‹_›⟩

end Sys2Proof
end

