-- ==== Sys2Proof/Laws/Encode.lean ====
section
/-! SUPPORT. The fields of a port word put together from its parts, and a port word from its fields: the pieces that
decoding an encoding, and encoding a decoding, come down to. -/

namespace Sys2Proof

/-- The value of three words in a row. -/
theorem toNat_descriptor (b a w : Word) :
    (b ++ a ++ w).toNat = (b.toNat * 2 ^ 32 + a.toNat) * 2 ^ 32 + w.toNat := by
  rw [BitVec.toNat_append, BitVec.toNat_append, ← Nat.shiftLeft_add_eq_or_of_lt a.isLt,
    ← Nat.shiftLeft_add_eq_or_of_lt w.isLt]
  simp only [Nat.shiftLeft_eq]

/-- The value of a field. -/
theorem toNat_field {n : Nat} (x : BitVec n) (start len : Nat) :
    (x.extractLsb' start len).toNat = x.toNat / 2 ^ start % 2 ^ len := by
  rw [BitVec.extractLsb'_toNat, Nat.shiftRight_eq_div_pow]

theorem cmdB_descriptor (b a w : Word) : cmdB (b ++ a ++ w) = b := by
  apply BitVec.eq_of_toNat_eq
  have := b.isLt; have := a.isLt; have := w.isLt
  rw [cmdB, toNat_field, toNat_descriptor]
  omega

theorem cmdA_descriptor (b a w : Word) : cmdA (b ++ a ++ w) = a := by
  apply BitVec.eq_of_toNat_eq
  have := b.isLt; have := a.isLt; have := w.isLt
  rw [cmdA, toNat_field, toNat_descriptor]
  omega

theorem cmdOp_descriptor (b a w : Word) : cmdOp (b ++ a ++ w) = w.extractLsb' 0 2 := by
  apply BitVec.eq_of_toNat_eq
  have := b.isLt; have := a.isLt; have := w.isLt
  rw [cmdOp, toNat_field, toNat_field, toNat_descriptor]
  omega

theorem cmdRsv0_descriptor (b a w : Word) : cmdRsv0 (b ++ a ++ w) = w.extractLsb' 2 30 := by
  apply BitVec.eq_of_toNat_eq
  have := b.isLt; have := a.isLt; have := w.isLt
  rw [cmdRsv0, toNat_field, toNat_field, toNat_descriptor]
  omega

/-- A descriptor whose reserved bits are 0 is its two operands and its operation code. -/
theorem descriptor_of_fields {c : BitVec 96} {op : Word} (hr : cmdRsv0 c = 0)
    (ho : (cmdOp c).toNat = op.toNat) : cmdB c ++ cmdA c ++ op = c := by
  apply BitVec.eq_of_toNat_eq
  have hr' : (cmdRsv0 c).toNat = 0 := congrArg BitVec.toNat hr
  have := c.isLt
  rw [cmdRsv0, toNat_field] at hr'
  rw [cmdOp, toNat_field] at ho
  rw [toNat_descriptor, cmdB, cmdA, toNat_field, toNat_field, ← ho]
  omega

/-- The value of a request. -/
theorem toNat_request (e : BitVec 2) (w : Word) : (e ++ w).toNat = e.toNat * 2 ^ 32 + w.toNat := by
  rw [BitVec.toNat_append, ← Nat.shiftLeft_add_eq_or_of_lt w.isLt, Nat.shiftLeft_eq]

theorem reqEop_request (e : BitVec 2) (w : Word) : reqEop (e ++ w) = e := by
  apply BitVec.eq_of_toNat_eq
  have := e.isLt; have := w.isLt
  rw [reqEop, toNat_field, toNat_request]
  omega

theorem reqData_request (e : BitVec 2) (w : Word) : reqData (e ++ w) = w := by
  apply BitVec.eq_of_toNat_eq
  have := e.isLt; have := w.isLt
  rw [reqData, toNat_field, toNat_request]
  omega

/-- A request is its operation code and its data. -/
theorem request_of_fields (r : BitVec 34) : reqEop r ++ reqData r = r := by
  apply BitVec.eq_of_toNat_eq
  have := r.isLt
  rw [toNat_request, reqEop, reqData, toNat_field, toNat_field]
  omega

/-- The value of four bytes in a row. -/
theorem toNat_bytes (b3 b2 b1 b0 : Byte) :
    (b3 ++ b2 ++ b1 ++ b0).toNat =
      ((b3.toNat * 2 ^ 8 + b2.toNat) * 2 ^ 8 + b1.toNat) * 2 ^ 8 + b0.toNat := by
  rw [BitVec.toNat_append, BitVec.toNat_append, BitVec.toNat_append,
    ← Nat.shiftLeft_add_eq_or_of_lt b2.isLt, ← Nat.shiftLeft_add_eq_or_of_lt b1.isLt,
    ← Nat.shiftLeft_add_eq_or_of_lt b0.isLt]
  simp only [Nat.shiftLeft_eq]

/-- The four byte positions of four bytes in a row. -/
theorem byteAt_bytes (b3 b2 b1 b0 : Byte) :
    byteAt (b3 ++ b2 ++ b1 ++ b0) 3 = b3 ∧ byteAt (b3 ++ b2 ++ b1 ++ b0) 2 = b2 ∧
      byteAt (b3 ++ b2 ++ b1 ++ b0) 1 = b1 ∧ byteAt (b3 ++ b2 ++ b1 ++ b0) 0 = b0 := by
  have := b3.isLt; have := b2.isLt; have := b1.isLt; have := b0.isLt
  refine ⟨?_, ?_, ?_, ?_⟩ <;> apply BitVec.eq_of_toNat_eq <;>
    rw [byteAt, toNat_field, toNat_bytes] <;> omega

/-- A word is its four bytes. -/
theorem bytes_of_byteAt (w : Word) : byteAt w 3 ++ byteAt w 2 ++ byteAt w 1 ++ byteAt w 0 = w := by
  apply BitVec.eq_of_toNat_eq
  have := w.isLt
  rw [toNat_bytes, byteAt, byteAt, byteAt, byteAt, toNat_field, toNat_field, toNat_field, toNat_field]
  omega

end Sys2Proof
end

