-- ==== Sys2Proof/Laws/Memory.lean ====
section
/-! SUPPORT. Buffer memory: what each operation does to each address, and that every operation keeps the canonical
form. -/

namespace Sys2Proof.Machine

/-! ## What an address reads as -/

@[simp] theorem lookup_nil (a : Nat) : Memory.lookup [] a = none := rfl

theorem lookup_cons (b : Nat) (v : Byte) (m : Memory) (a : Nat) :
    Memory.lookup ((b, v) :: m) a = if b = a then some v else Memory.lookup m a := rfl

/-- A byte made readable reads as written, and every other address as before. -/
theorem lookup_write (m : Memory) (a : Nat) (v : Byte) (x : Nat) :
    Memory.lookup (Memory.write m a v) x = if a = x then some v else Memory.lookup m x := by
  induction m with
  | nil => simp [Memory.write, lookup_cons]
  | cons c m ih =>
    obtain ⟨b, w⟩ := c
    simp only [Memory.write]
    split
    · simp [lookup_cons]
    · split
      · rename_i h
        subst h
        simp only [lookup_cons]
        split <;> rfl
      · rename_i h
        simp only [lookup_cons, ih]
        by_cases hb : b = x
        · subst hb
          simp [h]
        · simp [hb]

/-- An address made unreadable is unreadable, and every other address reads as before. -/
theorem lookup_erase (m : Memory) (a x : Nat) :
    Memory.lookup (Memory.erase m a) x = if a = x then none else Memory.lookup m x := by
  induction m with
  | nil => simp [Memory.erase]
  | cons c m ih =>
    obtain ⟨b, w⟩ := c
    unfold Memory.erase at ih ⊢
    rw [List.filter_cons]
    by_cases hb : b = a
    · subst hb
      simp only [bne_self_eq_false, Bool.false_eq_true, if_false, ih, lookup_cons]
      split <;> rfl
    · simp only [bne_iff_ne, ne_eq, hb, not_false_eq_true, if_true, lookup_cons, ih]
      by_cases hx : b = x
      · subst hx
        simp [Ne.symm hb]
      · simp [hx]

/-- One change of the platform, address by address. -/
theorem lookup_set (m : Memory) (a : Nat) (v : Option Byte) (x : Nat) :
    Memory.lookup (Memory.set m a v) x = if a = x then v else Memory.lookup m x := by
  cases v with
  | none => exact lookup_erase m a x
  | some v => exact lookup_write m a v x

/-! ## The canonical form -/

/-- Every address of a memory after a write is the one written or was there before. -/
theorem mem_write {m : Memory} {a : Nat} {v : Byte} {c : Host.Cell} (h : c ∈ Memory.write m a v) :
    c = (a, v) ∨ c ∈ m := by
  induction m with
  | nil => exact .inl (by simpa [Memory.write] using h)
  | cons d m ih =>
    obtain ⟨b, w⟩ := d
    simp only [Memory.write] at h
    split at h
    · simpa using h
    · split at h
      · rcases List.mem_cons.mp h with h | h
        · exact .inl h
        · exact .inr (List.mem_cons_of_mem _ h)
      · rcases List.mem_cons.mp h with h | h
        · exact .inr (h ▸ List.mem_cons_self)
        · exact (ih h).imp id (List.mem_cons_of_mem _)

/-- A write inside the address space keeps the canonical form. -/
theorem wf_write {m : Memory} {a : Nat} {v : Byte} (h : Memory.wf m) (ha : a < 2 ^ 32) :
    Memory.wf (Memory.write m a v) := by
  refine ⟨?_, fun c hc => (mem_write hc).elim (fun e => e ▸ ha) (h.2 c)⟩
  have hp := h.1
  clear h
  induction m with
  | nil => simp [Memory.write]
  | cons d m ih =>
    obtain ⟨b, w⟩ := d
    rw [List.pairwise_cons] at hp
    simp only [Memory.write]
    split
    · rename_i hab
      refine List.pairwise_cons.mpr ⟨fun c hc => ?_, List.pairwise_cons.mpr hp⟩
      rcases List.mem_cons.mp hc with rfl | hc
      · exact hab
      · exact Nat.lt_trans hab (hp.1 c hc)
    · split
      · rename_i hab
        subst hab
        exact List.pairwise_cons.mpr hp
      · rename_i hlt hne
        refine List.pairwise_cons.mpr ⟨fun c hc => ?_, ih hp.2⟩
        rcases mem_write hc with rfl | hc
        · change b < a
          omega
        · exact hp.1 c hc

/-- Making an address unreadable keeps the canonical form. -/
theorem wf_erase {m : Memory} {a : Nat} (h : Memory.wf m) : Memory.wf (Memory.erase m a) :=
  ⟨h.1.filter _, fun c hc => h.2 c (List.mem_of_mem_filter hc)⟩

/-- Every change of the platform inside the address space keeps the canonical form. -/
theorem wf_set {m : Memory} {a : Nat} {v : Option Byte} (h : Memory.wf m) (ha : a < 2 ^ 32) :
    Memory.wf (Memory.set m a v) := by
  cases v with
  | none => exact wf_erase h
  | some v => exact wf_write h ha

end Sys2Proof.Machine
end

