-- ==== Sys2Proof/Laws/PerInstr.lean ====
section
/-! SUPPORT. The statement made per instruction: the encoder gives a word that a conforming agent sends
(spec/30_encoding.md R54, R56, R58). -/

/-- The encoding of an operation is a well-formed word of its port. -/
def Sys2Proof.Laws.EncodingWellFormed.Statement (i : Sys2Proof.Instr) : Prop :=
  (Sys2Proof.encode i).wellFormed = true

namespace Sys2Proof.Laws.EncodingWellFormed

theorem engReset : Statement .engReset := rfl

theorem engWrite (w : Word) : Statement (.engWrite w) := by
  have hmask : (0x300000000#34 : BitVec 34) = 3#2 ++ 0#32 := by decide
  have h : (1#2 ++ w) &&& 0x300000000#34 = 0x100000000#34 := by
    rw [hmask, BitVec.and_append, BitVec.and_zero]
    decide
  have hbool : ((1#2 ++ w) &&& 0x300000000#34 == 0x100000000#34) = true := by rw [h]; decide
  show wellFormedEngine (1#2 ++ w) = true
  rw [wellFormedEngine, hbool, Bool.or_true, Bool.true_or]

theorem engRead : Statement .engRead := rfl

theorem fold0 : Statement .fold0 := rfl

theorem fold1 (d0 : Byte) : Statement (.fold1 d0) := by
  have hmask : (0x00FFFFFF#32 : Word) = 0#8 ++ 0xFFFFFF#24 := by decide
  have h : (d0 ++ 0#24) &&& 0x00FFFFFF#32 = 0#32 := by
    rw [hmask, BitVec.and_append, BitVec.and_zero]
    decide
  show wellFormedMicroOp 1#3 (d0 ++ 0#24) = true
  rw [wellFormedMicroOp, h]
  simp

theorem fold2 (d0 d1 : Byte) : Statement (.fold2 d0 d1) := by
  have hmask : (0x0000FFFF#32 : Word) = 0#8 ++ 0#8 ++ 0xFFFF#16 := by decide
  have h : (d0 ++ d1 ++ 0#16) &&& 0x0000FFFF#32 = 0#32 := by
    rw [hmask, BitVec.and_append, BitVec.and_append, BitVec.and_zero, BitVec.and_zero]
    decide
  show wellFormedMicroOp 2#3 (d0 ++ d1 ++ 0#16) = true
  rw [wellFormedMicroOp, h]
  simp

theorem fold3 (d0 d1 d2 : Byte) : Statement (.fold3 d0 d1 d2) := by
  have hmask : (0x000000FF#32 : Word) = 0#8 ++ 0#8 ++ 0#8 ++ 0xFF#8 := by decide
  have h : (d0 ++ d1 ++ d2 ++ 0#8) &&& 0x000000FF#32 = 0#32 := by
    rw [hmask, BitVec.and_append, BitVec.and_append, BitVec.and_append, BitVec.and_zero,
      BitVec.and_zero, BitVec.and_zero]
    decide
  show wellFormedMicroOp 3#3 (d0 ++ d1 ++ d2 ++ 0#8) = true
  rw [wellFormedMicroOp, h]
  simp

theorem word (w : Word) : Statement (.word w) := by
  show wellFormedMicroOp 4#3 w = true
  simp [wellFormedMicroOp]

theorem start (seed : Word) : Statement (.start seed) := by
  have hmask : (0xFFFFFFFF00000000FFFFFFFF#96 : BitVec 96) = 0xFFFFFFFF#32 ++ 0#32 ++ 0xFFFFFFFF#32 := by
    decide
  have h : (0#32 ++ seed ++ 0#32) &&& 0xFFFFFFFF00000000FFFFFFFF#96 = 0#96 := by
    rw [hmask, BitVec.and_append, BitVec.and_append, BitVec.and_zero]
    decide
  have hbool : ((0#32 ++ seed ++ 0#32) &&& 0xFFFFFFFF00000000FFFFFFFF#96 == 0#96) = true := by
    rw [h]
    decide
  show wellFormedCommand (0#32 ++ seed ++ 0#32) = true
  rw [wellFormedCommand, hbool, Bool.true_or, Bool.true_or]

theorem process (addr : Addr) (len : Len) : Statement (.process addr len) := by
  have hmask : (0xFFFFFFFF#96 : BitVec 96) = 0#32 ++ 0#32 ++ 0xFFFFFFFF#32 := by decide
  have h : (len ++ addr ++ 1#32) &&& 0xFFFFFFFF#96 = 1#96 := by
    rw [hmask, BitVec.and_append, BitVec.and_append, BitVec.and_zero, BitVec.and_zero]
    decide
  have hbool : ((len ++ addr ++ 1#32) &&& 0xFFFFFFFF#96 == 1#96) = true := by
    rw [h]
    decide
  show wellFormedCommand (len ++ addr ++ 1#32) = true
  rw [wellFormedCommand, hbool, Bool.or_true, Bool.true_or]

theorem finish : Statement .finish := rfl

end Sys2Proof.Laws.EncodingWellFormed
end

