-- ==== Sys2Proof/Laws/Replay.lean ====
section
/-! SUPPORT. Replaying events on the engine, and operations one after another: both split where their lists do. -/

namespace Sys2Proof.Machine

theorem replayEngine_append (reg : Word) (es fs : List Event) :
    replayEngine reg (es ++ fs) = replayEngine (replayEngine reg es) fs := by
  induction es generalizing reg with
  | nil => rfl
  | cons e es ih => cases e <;> exact ih _

theorem readsAnswered_append (reg : Word) (es fs : List Event) :
    readsAnswered reg (es ++ fs) ↔ readsAnswered reg es ∧ readsAnswered (replayEngine reg es) fs := by
  induction es generalizing reg with
  | nil => exact ⟨fun h => ⟨trivial, h⟩, And.right⟩
  | cons e es ih =>
    cases e with
    | engRead v => exact (and_congr_right fun _ => ih reg).trans and_assoc.symm
    | engReset => exact ih _
    | engWrite w => exact ih _
    | memRead1 a b => exact ih _
    | memRead4 a w => exact ih _

theorem execAll_append {is js : List Instr} {s t : State} (h : execAll is s = .next t) :
    execAll (is ++ js) s = execAll js t := by
  induction is generalizing s with
  | nil => rw [show s = t from Host.Outcome.next.inj h]; rfl
  | cons i is ih =>
    simp only [execAll, List.cons_append] at h ⊢
    cases hx : exec i s with
    | next u => rw [hx] at h; exact ih h
    | fault r => exact nomatch r
    | refused r => rw [hx] at h; exact nomatch h

end Sys2Proof.Machine
end

