-- ==== Sys2Proof/Laws/Run.lean ====
section
/-! SUPPORT. Several steps: the two equations, and that `runSteps` is the host's `Core.run`. -/

namespace Sys2Proof.Machine

@[simp] theorem runSteps_zero (s : State) : runSteps 0 s = .next s := rfl

/-- A run whose first step has a next state goes on from it. -/
theorem runSteps_succ {s t : State} (n : Nat) (h : step s = .next t) :
    runSteps (n + 1) s = runSteps n t := by
  simp only [runSteps, h]

/-- One step of the host's run, for any machine. -/
theorem coreRun_next (M : Host.Core) {s t : M.State} (n : Nat) (h : M.step s = .next t) :
    M.run (n + 1) s = M.run n t := by
  simp only [Host.Core.run, h]

theorem coreRun_refused (M : Host.Core) {s : M.State} {why : M.Refusal} (n : Nat)
    (h : M.step s = .refused why) : M.run (n + 1) s = .refused why := by
  simp only [Host.Core.run, h]

/-- The host's run of this machine is `runSteps`. -/
theorem runSteps_eq_core (n : Nat) (s : State) : Host.Core.run Sys2Proof.core n s = runSteps n s := by
  induction n generalizing s with
  | zero => rfl
  | succ n ih =>
    cases h : step s with
    | next t => exact (coreRun_next Sys2Proof.core n h).trans ((ih t).trans (runSteps_succ n h).symm)
    | fault r => exact nomatch r
    | refused r =>
      exact (coreRun_refused Sys2Proof.core n h).trans (by simp only [runSteps, h]; rfl)

end Sys2Proof.Machine
end

