-- ==== Sys2Proof/Laws/Step.lean ====
section
/-! SUPPORT. What a command and a step can do: one inversion lemma each. -/

namespace Sys2Proof.Machine

/-- The prologue of a host command (spec/60_exceptions.md R126 step 1). -/
theorem hostCommand_cases (body : State → State) (s : State) :
    (s.fault ≠ 0 ∧ hostCommand body s = stickyResponse s) ∨ (s.fault = 0 ∧ hostCommand body s = body s) := by
  unfold hostCommand
  split
  · exact .inl ⟨‹_›, rfl⟩
  · exact .inr ⟨not_not.mp ‹_›, rfl⟩

/-- The checks of PROCESS in order (spec/43_session_commands.md R107). -/
theorem processBody_cases (addr : Addr) (len : Len) (s : State) :
    (s.phase = .CLOSED ∧ processBody addr len s = raise (.protocolViolation .process) s) ∨
    (s.phase = .OPEN ∧ 2 ^ 32 < addr.toNat + len.toNat ∧
      processBody addr len s = raise (.bufferRange addr len) s) ∨
    (s.phase = .OPEN ∧ addr.toNat + len.toNat ≤ 2 ^ 32 ∧
      processBody addr len s = endProcess (processBuffer addr len s)) := by
  unfold processBody pastTop
  cases hp : s.phase with
  | CLOSED => exact .inl ⟨rfl, if_pos rfl⟩
  | OPEN =>
    rw [if_neg (by decide : Phase.OPEN ≠ Phase.CLOSED)]
    by_cases hr : 2 ^ 32 < addr.toNat + len.toNat
    · exact .inr (.inl ⟨rfl, hr, if_pos (decide_eq_true hr)⟩)
    · exact .inr (.inr ⟨rfl, Nat.le_of_not_lt hr, if_neg (by simpa using hr)⟩)

/-- What the fetch of an engine request gives (R55, R56). -/
theorem fetchEngine_cases (r : BitVec 34) (s : State) :
    (∃ i, decodeEngine r = .ok i ∧ wellFormedEngine r = true ∧ fetchEngine r s = .run i s) ∨
    (∃ i, decodeEngine r = .ok i ∧ wellFormedEngine r = false ∧
      fetchEngine r s = .settled (.refused (.engineRequestData r))) ∨
    (∃ e, decodeEngine r = .error e ∧
      fetchEngine r s = .settled (.refused (.reservedEngineRequest r))) := by
  unfold fetchEngine
  cases decodeEngine r with
  | error e => exact .inr (.inr ⟨e, rfl, rfl⟩)
  | ok i =>
    cases wellFormedEngine r with
    | true => exact .inl ⟨i, rfl, rfl, rfl⟩
    | false => exact .inr (.inl ⟨i, rfl, rfl, rfl⟩)

/-- What a step on an engine request can do: run it, or refuse it under one of two names. -/
def engineStep (r : BitVec 34) (rest : List Input) (s : State) : Prop :=
  (∃ i, decodeEngine r = .ok i ∧ wellFormedEngine r = true ∧
    step s = exec i { s with inputs := rest }) ∨
  (∃ i, decodeEngine r = .ok i ∧ wellFormedEngine r = false ∧
    step s = .refused (.engineRequestData r)) ∨
  (∃ e, decodeEngine r = .error e ∧ step s = .refused (.reservedEngineRequest r))

/-- A step whose fetch is that of an engine request. -/
theorem engineStep_of_fetch {r : BitVec 34} {rest : List Input} {s : State}
    (h : fetch s = fetchEngine r { s with inputs := rest }) : engineStep r rest s := by
  rcases fetchEngine_cases r { s with inputs := rest } with ⟨i, hd, hw, hf⟩ | ⟨i, hd, hw, hf⟩ | ⟨e, hd, hf⟩
  · exact .inl ⟨i, hd, hw, by simp only [step, h, hf]⟩
  · exact .inr (.inl ⟨i, hd, hw, by simp only [step, h, hf]⟩)
  · exact .inr (.inr ⟨e, hd, by simp only [step, h, hf]⟩)

/-- The events of a command that `exec` completes or stops. -/
theorem commandEvents_of_exec {c : BitVec 96} {i : Instr} {s t : State} {es : List Event}
    (hd : decodeCommand c = .ok i) (hx : exec i s = .next t) (ht : t.trace = s.trace ++ es) :
    commandEvents c s = es := by
  simp only [commandEvents, hd, hx, ht, List.drop_left]

/-- A hardware reset during a command is a hardware reset after some of the command's events. -/
theorem resetDuring_eq (c : BitVec 96) (n : Nat) (s : State) :
    resetDuring c n s =
      { hardwareReset s with trace := s.trace ++ (commandEvents c s).take n } := rfl

/-- Everything a step can do. -/
theorem step_cases (s : State) :
    (s.inputs = [] ∧ step s = .next s) ∨
    (∃ c rest, s.inputs = .port (.command c) :: rest ∧
      ((∃ i, decodeCommand c = .ok i ∧ step s = exec i { s with inputs := rest }) ∨
        (∃ e, decodeCommand c = .error e ∧
          step s = .next (illegalCommand c { s with inputs := rest })))) ∨
    (∃ r rest, s.inputs = .port (.engine r) :: rest ∧ engineStep r rest s) ∨
    (∃ l d rest, s.inputs = .port (.microOp l d) :: rest ∧
      ((∃ i, decodeMicroOp l d = .ok i ∧ step s = exec i { s with inputs := rest }) ∨
        (∃ e, decodeMicroOp l d = .error e ∧ step s = .refused (.reservedMicroOp l)))) ∨
    (∃ r rest, s.inputs = .foreign r :: rest ∧
      ((s.phase = .OPEN ∧ step s = .refused (.foreignEngineRequest r)) ∨
        (s.phase = .CLOSED ∧ engineStep r rest s))) ∨
    (∃ rest, s.inputs = .hardwareReset :: rest ∧
      step s = .next (hardwareReset { s with inputs := rest })) ∨
    (∃ c n rest, s.inputs = .resetDuring c n :: rest ∧
      step s = .next (resetDuring c n { s with inputs := rest })) ∨
    (∃ a v rest, s.inputs = .setByte a v :: rest ∧
      step s = .next (setByte a v { s with inputs := rest })) := by
  cases hin : s.inputs with
  | nil => exact .inl ⟨rfl, by simp only [step, fetch, hin]⟩
  | cons input rest =>
    refine .inr ?_
    cases input with
    | port p =>
      cases p with
      | command c =>
        refine .inl ⟨c, rest, rfl, ?_⟩
        cases hd : decodeCommand c with
        | ok i => exact .inl ⟨i, rfl, by simp only [step, fetch, hin, fetchInput, fetchCommand, hd]⟩
        | error e => exact .inr ⟨e, rfl, by simp only [step, fetch, hin, fetchInput, fetchCommand, hd]⟩
      | engine r =>
        exact .inr (.inl ⟨r, rest, rfl, engineStep_of_fetch (by simp only [fetch, hin, fetchInput])⟩)
      | microOp l d =>
        refine .inr (.inr (.inl ⟨l, d, rest, rfl, ?_⟩))
        cases hd : decodeMicroOp l d with
        | ok i => exact .inl ⟨i, rfl, by simp only [step, fetch, hin, fetchInput, fetchMicroOp, hd]⟩
        | error e => exact .inr ⟨e, rfl, by simp only [step, fetch, hin, fetchInput, fetchMicroOp, hd]⟩
    | foreign r =>
      refine .inr (.inr (.inr (.inl ⟨r, rest, rfl, ?_⟩)))
      by_cases hp : s.phase = .OPEN
      · exact .inl ⟨hp, by simp only [step, fetch, hin, fetchInput, fetchForeign, if_pos hp]⟩
      · refine .inr ⟨by cases h : s.phase <;> simp_all, ?_⟩
        exact engineStep_of_fetch (by simp only [fetch, hin, fetchInput, fetchForeign, if_neg hp])
    | hardwareReset =>
      exact .inr (.inr (.inr (.inr (.inl ⟨rest, rfl, by simp only [step, fetch, hin, fetchInput]⟩))))
    | resetDuring c n =>
      exact .inr (.inr (.inr (.inr (.inr (.inl
        ⟨c, n, rest, rfl, by simp only [step, fetch, hin, fetchInput]⟩)))))
    | setByte a v =>
      exact .inr (.inr (.inr (.inr (.inr (.inr
        ⟨a, v, rest, rfl, by simp only [step, fetch, hin, fetchInput]⟩)))))

end Sys2Proof.Machine
end

