-- ==== Sys2Proof/Tests/Slice0.lean ====
section
/-! SUPPORT. Tests of the model on values written out in spec/, and for every obligation with hypotheses a state and
operands that meet them. Expected results come from spec/95_test_vectors.md; each test names its section. -/

namespace Sys2Proof.Tests

open Sys2Proof Sys2Proof.Machine

set_option maxRecDepth 20000

/-! ## Small states -/

/-- The next state of an outcome. -/
def nextOf : Host.Outcome State Fault Refusal → Option State
  | .next t => some t
  | .fault _ => none
  | .refused _ => none

/-- The refusal of an outcome. -/
def refusalOf : Host.Outcome State Fault Refusal → Option Refusal
  | .next _ => none
  | .fault _ => none
  | .refused r => some r

/-- After reset, with the two registers given. -/
def holding (reg corr : Word) : State := { State.reset with reg := reg, corr := corr }

/-- An open session over a memory, with the two registers given. -/
def opened (reg corr : Word) (mem : Memory) : State := { holding reg corr with phase := .OPEN, mem := mem }

/-- `s` with one input waiting. -/
def waiting (input : Input) (s : State) : State := { s with inputs := [input] }

/-- `s` with a fault recorded. -/
def faulted (info : FaultInfo) (s : State) : State :=
  { s with fault := faultCode info, faultInfo := some info }

/-- `REG` and `CORR` after an operation. -/
def registersAfter (i : Instr) (s : State) : Option (Word × Word) :=
  (nextOf (exec i s)).map fun t => (t.reg, t.corr)

/-- The responses and the trace after a step. -/
def seenAfter (s : State) : Option (List Response × List Event) :=
  (nextOf (step s)).map fun t => (t.responses, t.trace)

/-- Bytes at consecutive addresses, as memory. -/
def bytesAt : Nat → List Byte → Memory
  | _, [] => []
  | a, b :: bs => (a, b) :: bytesAt (a + 1) bs

/-- The last five bytes of the check string of program P1. -/
def mem59 : Memory := bytesAt 0x20000004 [0x35#8, 0x36#8, 0x37#8, 0x38#8, 0x39#8]

/-! ## Ill-formed words -/

/-- Section 2.7: each shape of illegal descriptor is refused by the well-formedness check. -/
theorem test_illFormed_command :
    wellFormedCommand 0x000000000000000000000003#96 = false ∧
    wellFormedCommand 0x000000000000000000000004#96 = false ∧
    wellFormedCommand 0x000000000000000080000000#96 = false ∧
    wellFormedCommand 0x00000001AAAAAAAA00000000#96 = false ∧
    wellFormedCommand 0x000000000000000100000002#96 = false ∧
    wellFormedCommand 0x000000010000000000000002#96 = false := by decide

/-- R56: a reserved request, and DATA on ENG.RESET and ENG.READ. -/
theorem test_illFormed_engine :
    wellFormedEngine 0x300000000#34 = false ∧ wellFormedEngine 0x000000001#34 = false ∧
    wellFormedEngine 0x280000000#34 = false := by decide

/-- R58: labels that are never generated, and operand bits a label does not have. -/
theorem test_illFormed_microOp :
    wellFormedMicroOp 5#3 0#32 = false ∧ wellFormedMicroOp 6#3 0#32 = false ∧
    wellFormedMicroOp 7#3 0#32 = false ∧ wellFormedMicroOp 0#3 1#32 = false ∧
    wellFormedMicroOp 1#3 0x00010000#32 = false ∧ wellFormedMicroOp 2#3 0x00000100#32 = false ∧
    wellFormedMicroOp 3#3 0x00000001#32 = false := by decide

/-! ## Decoding by written-out words -/

/-- Section 2.7, the legal descriptors, most significant word first as printed. -/
theorem test_decode_commands :
    decodeTableWord 96 0x00000000_AAAAAAAA_00000000 = some (.start 0xAAAAAAAA#32) ∧
    decodeTableWord 96 0 = some (.start 0#32) ∧
    decodeTableWord 96 0x00000010_20000101_00000001 = some (.process 0x20000101#32 16#32) ∧
    decodeTableWord 96 0x00000000_00000000_00000001 = some (.process 0#32 0#32) ∧
    decodeTableWord 96 0xFFFFFFFF_FFFFFFFF_00000001 = some (.process 0xFFFFFFFF#32 0xFFFFFFFF#32) ∧
    decodeTableWord 96 0x00000000_00000000_00000002 = some .finish := by decide

/-- Section 2.7, the illegal descriptors, each under its own name. -/
theorem test_decode_illegal :
    [0x000000000000000000000003#96, 0x000000000000000000000004#96, 0x000000000000000080000000#96,
      0x00000001AAAAAAAA00000000#96, 0x000000000000000100000002#96,
      0x000000010000000000000002#96].map (fun c => (decodeCommand c).toOption) =
      [none, none, none, none, none, none] := by decide

/-- Section 2.7, the engine requests; the masks of R55 read only `EOP` on ENG.RESET and ENG.READ. -/
theorem test_decode_engine :
    decodeTableWord 40 0x0_00000000 = some .engReset ∧
    decodeTableWord 40 0x1_12345678 = some (.engWrite 0x12345678#32) ∧
    decodeTableWord 40 0x2_00000000 = some .engRead ∧
    decodeTableWord 40 0x3_00000000 = none ∧
    decodeTableWord 40 0x2_00000001 = some .engRead := by decide

/-- R58: the five labels and the three that are never generated. -/
theorem test_decode_microOps :
    [0b000, 0b001, 0b010, 0b011, 0b100, 0b101, 0b110, 0b111].map (decodeTableWord 8) =
      [some .fold0, some (.fold1 0#8), some (.fold2 0#8 0#8), some (.fold3 0#8 0#8 0#8), some (.word 0#32),
        none, none, none] := by decide

/-- Log 6: the first stream byte is the top byte of the operand word. -/
theorem test_decode_operands :
    (decodeMicroOp 1#3 0xAB000000#32).toOption = some (.fold1 0xAB#8) ∧
    (decodeMicroOp 2#3 0xABCD0000#32).toOption = some (.fold2 0xAB#8 0xCD#8) ∧
    (decodeMicroOp 3#3 0xABCDEF00#32).toOption = some (.fold3 0xAB#8 0xCD#8 0xEF#8) ∧
    (decodeMicroOp 4#3 0xABCDEF01#32).toOption = some (.word 0xABCDEF01#32) := by decide

/-- The placed word is the next operation run. -/
theorem test_withFetchWord :
    (nextOf (step (State.reset.withFetchWord 96 0x00000000_AAAAAAAA_00000000))).map (·.corr) =
      some 0x55555555#32 := by decide

/-! ## The functions -/

/-- Section 2.1: `crc_bit`. -/
theorem test_crcBit :
    crcBit 0xFFFFFFFF#32 false = 0xFB3EE249#32 ∧ crcBit 0xFFFFFFFF#32 true = 0xFFFFFFFE#32 ∧
    crcBit 0#32 true = 0x04C11DB7#32 ∧ crcBit 0x80000000#32 true = 0#32 ∧
    crcBit 0x7FFFFFFF#32 true = 0xFB3EE249#32 := by decide

/-- Section 2.1: `crc_byte`. -/
theorem test_crcByte :
    crcByte 0xFFFFFFFF#32 0x00#8 = 0x4E08BFB4#32 ∧ crcByte 0#32 0x80#8 = 0x690CE0EE#32 ∧
    crcByte 0xFFFFFFFF#32 0x31#8 = 0x9EFBCF93#32 := by decide

/-- Section 2.1: `crc_word`. -/
theorem test_crcWord :
    crcWord 0xFFFFFFFF#32 0#32 = 0xC704DD7B#32 ∧ crcWord 0#32 0x80000000#32 = 0xA6E63D1D#32 ∧
    crcWord 0xFFFFFFFF#32 0x31323334#32 = 0xA695C4AA#32 := by decide

/-- Section 2.1: the check value of "123456789". -/
theorem test_crcBytes :
    crcBytes 0xFFFFFFFF#32 [0x31#8, 0x32#8, 0x33#8, 0x34#8, 0x35#8, 0x36#8, 0x37#8, 0x38#8, 0x39#8] =
      0x0376E6E7#32 := by decide

/-- Section 2.2: BSWAP32 and the two byte orders. -/
theorem test_byteOrder :
    bswap32 0x12345678#32 = 0x78563412#32 ∧ bswap32 0x80000001#32 = 0x01000080#32 ∧
    beWord 0x31#8 0x32#8 0x33#8 0x34#8 = 0x31323334#32 ∧
    leWord 0x31#8 0x32#8 0x33#8 0x34#8 = 0x34333231#32 := by decide

/-- Section 2.5: rows of the split, as lead, words and tail. -/
theorem test_split :
    splitBuffer 0#32 9#32 = ⟨0, 2, 1⟩ ∧ splitBuffer 1#32 1#32 = ⟨1, 0, 0⟩ ∧
    splitBuffer 1#32 4#32 = ⟨3, 0, 1⟩ ∧ splitBuffer 1#32 16#32 = ⟨3, 3, 1⟩ ∧
    splitBuffer 2#32 7#32 = ⟨2, 1, 1⟩ ∧ splitBuffer 3#32 4#32 = ⟨1, 0, 3⟩ ∧
    splitBuffer 3#32 9#32 = ⟨1, 2, 0⟩ ∧ splitBuffer 3#32 0#32 = ⟨0, 0, 0⟩ := by decide

/-! ## The operations -/

/-- Section 2.1, the engine requests: ENG.RESET. -/
theorem test_engReset :
    registersAfter .engReset (holding 0x12345678#32 0x9ABCDEF0#32) =
      some (0xFFFFFFFF#32, 0x9ABCDEF0#32) := by decide

/-- Section 2.1: ENG.WRITE from the reset value, and of the register's own value. -/
theorem test_engWrite :
    registersAfter (.engWrite 0x12345678#32) (holding 0xFFFFFFFF#32 1#32) = some (0xDF8A8A2B#32, 1#32) ∧
    registersAfter (.engWrite 0xDF8A8A2B#32) (holding 0xDF8A8A2B#32 1#32) = some (0#32, 1#32) := by
  decide

/-- Section 2.1: ENG.READ answers the register and leaves it. -/
theorem test_engRead :
    (nextOf (exec .engRead (holding 0xDF8A8A2B#32 1#32))).map (fun t => (t.reg, t.trace)) =
      some (0xDF8A8A2B#32, [.engRead 0xDF8A8A2B#32]) := by decide

/-- Section 2.3, row 1: FOLD0 issues no request. -/
theorem test_fold0 :
    nextOf (exec .fold0 (holding 0x12345678#32 0x9ABCDEF0#32)) =
      some (holding 0x12345678#32 0x9ABCDEF0#32) := by decide

/-- Section 2.3: FOLD1 rows with `CORR` zero and non-zero (and the counter-vector S6). -/
theorem test_fold1 :
    registersAfter (.fold1 0x31#8) (holding 0xFFFFFFFF#32 0#32) = some (0x61043093#32, 0xFFFFFF00#32) ∧
    registersAfter (.fold1 0xAB#8) (holding 0x12345678#32 0x9ABCDEF0#32) =
      some (0x95609039#32, 0x88888800#32) := by decide

/-- Section 2.3: a FOLD2 row, with the word written. -/
theorem test_fold2 :
    registersAfter (.fold2 0xAB#8 0xCD#8) (holding 0x12345678#32 0x9ABCDEF0#32) =
      some (0x710B72E9#32, 0x88880000#32) ∧
    (nextOf (exec (.fold2 0xAB#8 0xCD#8) (holding 0x12345678#32 0x9ABCDEF0#32))).map (·.trace) =
      some [.engRead 0x12345678#32, .engWrite 0x1234753D#32] := by decide

/-- Section 2.3: FOLD3 rows, the last with `REG' = 0`. -/
theorem test_fold3 :
    registersAfter (.fold3 0xAB#8 0xCD#8 0xEF#8) (holding 0x12345678#32 0x9ABCDEF0#32) =
      some (0x5DE57FC2#32, 0x88000000#32) ∧
    registersAfter (.fold3 0xFF#8 0xFF#8 0xFF#8) (holding 0#32 0xFFFFFFFF#32) =
      some (0#32, 0xFF000000#32) := by decide

/-- Section 2.4: WORD rows with `CORR` non-zero. -/
theorem test_word :
    registersAfter (.word 0xCAFEBABE#32) (holding 0x12345678#32 0x9ABCDEF0#32) =
      some (0x67DA39D6#32, 0#32) ∧
    registersAfter (.word 0x12345678#32) (holding 0xFFFFFFFF#32 0xEDCBA987#32) = some (0#32, 0#32) := by
  decide

/-- Section 2.6: START, also as a restart in an open session. -/
theorem test_start :
    registersAfter (.start 0xAAAAAAAA#32) State.reset = some (0xFFFFFFFF#32, 0x55555555#32) ∧
    registersAfter (.start 0xCAFEBABE#32) (opened 0xFFFFFFFF#32 0xEDCBA987#32 []) =
      some (0xFFFFFFFF#32, 0x35014541#32) := by decide

/-- Program P1 from its second word on: one aligned word, then a tail of one byte. -/
theorem test_process_word_tail :
    (nextOf (exec (.process 0x20000004#32 5#32) (opened 0xA695C4AA#32 0#32 mem59))).map
      (fun t => (t.reg, t.corr, t.trace)) =
    some (0xE0B41DE7#32, 0xE3C2FB00#32,
      [.memRead4 0x20000004#32 0x38373635#32, .engWrite 0x35363738#32, .memRead1 0x20000008#32 0x39#8,
        .engRead 0x49E3C2FB#32, .engWrite 0x49E3C28B#32]) := by decide

/-- Section 2.6, top of memory: a lead that ends at the last address. -/
theorem test_process_top :
    (nextOf (exec (.process 0xFFFFFFFE#32 2#32)
      (opened 0xFFFFFFFF#32 0xFFFFFFFF#32 [(0xFFFFFFFE, 0x01#8), (0xFFFFFFFF, 0x02#8)]))).map
      (fun t => (t.corr, t.reg, t.fault)) = some (0#32, 0xDB9BFAB2#32, 0#3) := by decide

/-- Program P7, its second word and the fault: the tail's read faults before the FOLD1. -/
theorem test_process_busFault :
    (nextOf (exec (.process 0x20000004#32 5#32) (opened 0xA695C4AA#32 0#32 (mem59.take 4)))).map
      (fun t => (t.fault, t.reg, t.corr, t.faultInfo, t.phase)) =
    some (4#3, 0x49E3C2FB#32, 0#32, some (.busFault 0x20000008#32), .OPEN) := by decide

/-- Section 2.8, range, and protocol before range. -/
theorem test_process_range :
    (nextOf (exec (.process 0xFFFFFFFE#32 3#32) (opened 0#32 0#32 []))).map (·.fault) = some 3#3 ∧
    (nextOf (exec (.process 0xFFFFFFFE#32 3#32) State.reset)).map (·.fault) = some 2#3 := by decide

/-- Program P1: FINISH. -/
theorem test_finish :
    (nextOf (exec .finish (opened 0xE0B41DE7#32 0xE3C2FB00#32 []))).map
      (fun t => (t.responses, t.phase, t.corr)) =
    some ([⟨0, 0x0376E6E7#32⟩], .CLOSED, 0xE3C2FB00#32) := by decide

/-- R140 over the last bytes of program P1: a reset after two events of a PROCESS leaves those two in the trace, no
response and no session; one before any event leaves none. -/
theorem test_resetDuring :
    (nextOf (step (waiting (.resetDuring 0x000000052000000400000001#96 2)
      (opened 0xA695C4AA#32 0#32 mem59)))).map
      (fun t => (t.trace, t.responses, t.phase, t.fault)) =
    some ([.memRead4 0x20000004#32 0x38373635#32, .engWrite 0x35363738#32], [], .CLOSED, 0#3) ∧
    seenAfter (waiting (.resetDuring 0#96 0) State.reset) = some ([], []) := by decide

/-- Section 2.8: FINISH before START. -/
theorem test_finish_closed :
    (nextOf (exec .finish State.reset)).map (fun t => (t.responses, t.trace)) =
      some ([⟨2, 0⟩], []) := by decide

/-- Section 2.8: an illegal descriptor beats the protocol check, and a recorded fault beats both. -/
theorem test_priority :
    seenAfter (waiting (.port (.command 0x000000000000000100000002#96)) State.reset) =
      some ([⟨1, 0⟩], []) ∧
    seenAfter (waiting (.port (.command 3#96)) (faulted (.protocolViolation .process) State.reset)) =
      some ([⟨2, 0⟩], []) := by decide

/-! ## What meets the hypotheses of each obligation

One theorem per obligation that has hypotheses, in the order of the obligations. -/

theorem witness_EncodeOfDecode :
    (encode (.process 0x20000101#32 16#32)).wellFormed = true ∧
    decode (encode (.process 0x20000101#32 16#32)) = .ok (.process 0x20000101#32 16#32) ∧
    (encode (.fold3 1#8 2#8 3#8)).wellFormed = true ∧ (encode (.engWrite 5#32)).wellFormed = true :=
  ⟨by decide, rfl, by decide, by decide⟩

/-- One descriptor for each clause, in order. -/
theorem witness_DescriptorDecodesByR63 :
    (0x4#96).extractLsb' 2 30 ≠ 0 ∧
    ((0xFFFFFFFF00000000#96).extractLsb' 2 30 = 0 ∧ (0xFFFFFFFF00000000#96).extractLsb' 0 2 = 0 ∧
      (0xFFFFFFFF00000000#96).extractLsb' 64 32 = 0) ∧
    (0x00000001AAAAAAAA00000000#96).extractLsb' 64 32 ≠ 0 ∧
    ((0xFFFFFFFFFFFFFFFF00000001#96).extractLsb' 2 30 = 0 ∧
      (0xFFFFFFFFFFFFFFFF00000001#96).extractLsb' 0 2 = 1) ∧
    ((2#96).extractLsb' 2 30 = 0 ∧ (2#96).extractLsb' 0 2 = 2 ∧ (2#96).extractLsb' 32 64 = 0) ∧
    (0x000000010000000000000002#96).extractLsb' 32 64 ≠ 0 ∧
    (3#96).extractLsb' 0 2 = 3 ∧
    isHostCommand .finish = true ∧ decodeCommand 2#96 = .ok .finish :=
  ⟨by decide, by decide, by decide, by decide, by decide, by decide, by decide, rfl, rfl⟩

theorem witness_StepRunsDecodedOperation :
    ((waiting (.port (encode (.fold1 0xAB#8))) State.reset).inputs =
        .port (encode (.fold1 0xAB#8)) :: [] ∧
      decode (encode (.fold1 0xAB#8)) = .ok (.fold1 0xAB#8) ∧
      ∀ r, encode (.fold1 0xAB#8) = .engine r → wellFormedEngine r = true) ∧
    (decode (.engine 0x200000000#34) = .ok .engRead ∧ wellFormedEngine 0x200000000#34 = true) :=
  ⟨⟨rfl, rfl, fun _ h => nomatch h⟩, rfl, by decide⟩

theorem witness_ForeignRequestMovesOnlyWhileClosed :
    (waiting (.foreign 0x112345678#34) (opened 1#32 2#32 [])).inputs = .foreign 0x112345678#34 :: [] ∧
    (waiting (.foreign 0x112345678#34) (opened 1#32 2#32 [])).phase = .OPEN ∧
    (waiting (.foreign 0x112345678#34) State.reset).phase = .CLOSED ∧
    wellFormedEngine 0x112345678#34 = true ∧
    decodeEngine 0x112345678#34 = .ok (.engWrite 0x12345678#32) := ⟨rfl, rfl, rfl, by decide, rfl⟩

/-- A request of each refused shape, on the block's port and from another agent. -/
theorem witness_UnspecifiedRequestsRefused :
    (waiting (.port (.engine 0x300000000#34)) (opened 1#32 2#32 [])).inputs =
      .port (.engine 0x300000000#34) :: [] ∧
    ((waiting (.foreign 0x200000001#34) State.reset).inputs = .foreign 0x200000001#34 :: [] ∧
      (waiting (.foreign 0x200000001#34) State.reset).phase = .CLOSED) ∧
    (0x300000000#34).extractLsb' 32 2 = 3 ∧
    ((0x080000000#34).extractLsb' 32 2 = 0 ∧ (0x080000000#34).extractLsb' 0 32 ≠ 0) ∧
    ((0x200000001#34).extractLsb' 32 2 = 2 ∧ (0x200000001#34).extractLsb' 0 32 ≠ 0) := by decide

theorem witness_IdleHoldsState : (holding 1#32 2#32).inputs = [] := rfl

/-- Each refusal does come. -/
theorem witness_StepRefusesOnlyByName :
    refusalOf (step (waiting (.port (.engine 0x300000000#34)) State.reset)) =
      some (.reservedEngineRequest 0x300000000#34) ∧
    refusalOf (step (waiting (.foreign 0x300000000#34) State.reset)) =
      some (.reservedEngineRequest 0x300000000#34) ∧
    refusalOf (step (waiting (.port (.engine 0x200000001#34)) State.reset)) =
      some (.engineRequestData 0x200000001#34) ∧
    refusalOf (step (waiting (.foreign 0x000000001#34) State.reset)) =
      some (.engineRequestData 0x000000001#34) ∧
    refusalOf (step (waiting (.foreign 0#34) (opened 1#32 2#32 []))) =
      some (.foreignEngineRequest 0#34) ∧
    refusalOf (step (waiting (.port (.microOp 5#3 0#32)) State.reset)) = some (.reservedMicroOp 5#3) := by
  decide

theorem witness_HardwareResetEvent :
    (waiting .hardwareReset (faulted (.busFault 4#32) (opened 1#32 2#32 mem59))).inputs =
      .hardwareReset :: [] := rfl

/-- A command that decodes and one that does not. -/
theorem witness_HardwareResetDuringCommand :
    (waiting (.resetDuring 2#96 0) (opened 1#32 2#32 [])).inputs = .resetDuring 2#96 0 :: [] ∧
    decodeCommand 2#96 = .ok .finish ∧ ∀ i, decodeCommand 3#96 ≠ .ok i :=
  ⟨rfl, rfl, fun _ h => nomatch h⟩

/-- A state with memory, a fault and records meets the invariant, and steps. -/
theorem witness_StepKeepsInvariant :
    ({ waiting (.port (encode .finish)) (faulted (.busFault 4#32) (opened 1#32 2#32 mem59)) with
      responses := [⟨4, 0⟩], trace := [.memRead4 4#32 0#32] }).Inv ∧
    (nextOf (step { waiting (.port (encode .finish)) (faulted (.busFault 4#32) (opened 1#32 2#32 mem59))
      with responses := [⟨4, 0⟩], trace := [.memRead4 4#32 0#32] })).isSome = true := by
  refine ⟨⟨by decide, rfl, ?_, ?_⟩, by decide⟩
  · intro r hr
    obtain rfl : r = ⟨4, 0⟩ := List.mem_singleton.mp hr
    exact ⟨by decide, fun _ => rfl⟩
  · intro a w h
    cases List.mem_singleton.mp h
    decide

theorem witness_PlatformChangesOneByte :
    (waiting (.setByte 0xFFFFFFFF#32 none) State.reset).inputs = .setByte 0xFFFFFFFF#32 none :: [] ∧
    (3 : Nat) ≠ (0xFFFFFFFF#32 : Addr).toNat := ⟨rfl, by decide⟩

theorem witness_nonzero_SubWord :
    (SubWord.one 0#8) ≠ .zero ∧ (SubWord.two 0#8 0#8) ≠ .zero ∧ (SubWord.three 0#8 0#8 0#8) ≠ .zero := by
  decide

/-- A readable byte, an unreadable one, a readable word at the top of memory, a word whose last byte is not. -/
theorem witness_ReadPrimitives :
    Memory.lookup mem59 (0x20000008#32 : Addr).toNat = some 0x39#8 ∧
    Memory.lookup mem59 (0x20000009#32 : Addr).toNat = none ∧
    ((0xFFFFFFFC#32 : Addr).toNat % 4 = 0 ∧
      bufferBytes (bytesAt 0xFFFFFFFC [1#8, 2#8, 3#8, 4#8]) (0xFFFFFFFC#32 : Addr).toNat 4 =
        some [1#8, 2#8, 3#8, 4#8]) ∧
    ((∀ i, i < 3 → Memory.readable (bytesAt 0xFFFFFFFC [1#8, 2#8, 3#8])
        ((0xFFFFFFFC#32 : Addr).toNat + i) = true) ∧
      Memory.readable (bytesAt 0xFFFFFFFC [1#8, 2#8, 3#8]) ((0xFFFFFFFC#32 : Addr).toNat + 3) = false) := by
  decide

theorem witness_EngWriteResult : (0x12345678#32 : Word) = (holding 0x12345678#32 0#32).reg := rfl

theorem witness_FoldResults :
    (0x88888888#32 : Word) = (holding 0x12345678#32 0x9ABCDEF0#32).reg ^^^
      (holding 0x12345678#32 0x9ABCDEF0#32).corr ∧
    (0x1234565B#32 : Word) = 0x12345678#32 ^^^ (0xAB#8).setWidth 32 ^^^ (0x88888888#32 >>> 24) ∧
    (0x1234753D#32 : Word) = 0x12345678#32 ^^^ (0xAB#8 ++ 0xCD#8).setWidth 32 ^^^ (0x88888888#32 >>> 16) ∧
    (0x1217131F#32 : Word) =
      0x12345678#32 ^^^ (0xAB#8 ++ 0xCD#8 ++ 0xEF#8).setWidth 32 ^^^ (0x88888888#32 >>> 8) := by decide

theorem witness_FoldCornerCases :
    (holding 0xDEADBEEF#32 0xDEADBEEF#32).corr = (holding 0xDEADBEEF#32 0xDEADBEEF#32).reg ∧
    packLo (.three 0xFF#8 0xFF#8 0xFF#8) =
      ((holding 0#32 0xFFFFFFFF#32).reg ^^^ (holding 0#32 0xFFFFFFFF#32).corr) >>>
        (32 - 8 * subWordCount (.three 0xFF#8 0xFF#8 0xFF#8)) := by decide

theorem witness_StartResult : State.reset.fault = 0 ∧ (opened 1#32 2#32 []).fault = 0 := ⟨rfl, rfl⟩

theorem witness_SplitOfBuffer : (0x20000101#32 : Addr).extractLsb' 0 2 = (0xFFFFFFFD#32 : Addr).extractLsb' 0 2 := by
  decide

theorem witness_ProtocolViolationRaised : State.reset.fault = 0 ∧ State.reset.phase = .CLOSED := ⟨rfl, rfl⟩

/-- One past the top, exactly at the top, and no bytes at the last address. -/
theorem witness_BufferRangeRaised :
    ((opened 1#32 2#32 []).fault = 0 ∧ (opened 1#32 2#32 []).phase = .OPEN ∧
      2 ^ 32 < (0xFFFFFFFE#32 : Addr).toNat + (3#32 : Len).toNat) ∧
    (0xFFFFFFFE#32 : Addr).toNat + (2#32 : Len).toNat = 2 ^ 32 ∧
    (nextOf (exec (.process 0xFFFFFFFE#32 2#32) State.reset)).isSome = true ∧
    (nextOf (exec (.process 0xFFFFFFFF#32 0#32) State.reset)).isSome = true := by decide

theorem witness_ZeroLengthProcess :
    ((opened 1#32 2#32 []).fault = 0 ∧ (opened 1#32 2#32 []).phase = .OPEN) ∧
    (State.reset.fault = 0 ∧ State.reset.phase = .CLOSED) := by decide

/-- A readable buffer in an open session. -/
theorem witness_readableBuffer :
    (opened 1#32 2#32 mem59).fault = 0 ∧ (opened 1#32 2#32 mem59).phase = .OPEN ∧
    bufferHolds (opened 1#32 2#32 mem59).mem 0x20000004#32 5#32 [0x35#8, 0x36#8, 0x37#8, 0x38#8, 0x39#8] :=
  ⟨rfl, rfl, by decide, by decide⟩

/-- A PROCESS that completes; the bytes its reads returned are the last five of program P1. -/
theorem witness_ProcessFoldsTheBytesItsReadsReturned :
    (opened 0xA695C4AA#32 0#32 mem59).fault = 0 ∧
    (nextOf (exec (.process 0x20000004#32 5#32) (opened 0xA695C4AA#32 0#32 mem59))).map
      (fun t => (t.fault, t.trace.flatMap eventBytes)) =
    some (0#3, [0x35#8, 0x36#8, 0x37#8, 0x38#8, 0x39#8]) := by decide

/-- One readable buffer for each case of the final `CORR` of a PROCESS: none, words only, a tail, a lead only. -/
theorem witness_ProcessNetEffect :
    (bufferHolds mem59 0xFFFFFFFF#32 0#32 []) ∧
    (bufferHolds mem59 0x20000004#32 4#32 [0x35#8, 0x36#8, 0x37#8, 0x38#8] ∧
      (splitBuffer 0x20000004#32 4#32).tail.val = 0 ∧ 0 < (splitBuffer 0x20000004#32 4#32).words) ∧
    (bufferHolds mem59 0x20000004#32 5#32 [0x35#8, 0x36#8, 0x37#8, 0x38#8, 0x39#8] ∧
      0 < (splitBuffer 0x20000004#32 5#32).tail.val) ∧
    (bufferHolds mem59 0x20000005#32 3#32 [0x36#8, 0x37#8, 0x38#8] ∧
      (splitBuffer 0x20000005#32 3#32).words = 0 ∧ (splitBuffer 0x20000005#32 3#32).tail.val = 0 ∧
      0 < (splitBuffer 0x20000005#32 3#32).lead.val) :=
  ⟨⟨by decide, by decide⟩, ⟨⟨by decide, by decide⟩, by decide⟩, ⟨⟨by decide, by decide⟩, by decide⟩,
    ⟨by decide, by decide⟩, by decide⟩

/-- Other memory that holds the same bytes in the buffer. -/
theorem witness_ProcessDependsOnlyOnItsBuffer :
    (∀ a, (0x20000004#32 : Addr).toNat ≤ a → a < (0x20000004#32 : Addr).toNat + (5#32 : Len).toNat →
      Memory.lookup ((7, 1#8) :: mem59) a = Memory.lookup mem59 a) ∧
    (nextOf (exec (.process 0x20000004#32 5#32) (opened 1#32 2#32 mem59))).isSome = true := by
  refine ⟨fun a h _ => ?_, by decide⟩
  have h7 : (7 : Nat) ≠ a := fun e => absurd (e ▸ h) (by decide)
  simp [Memory.lookup, h7]

/-- The fault at the first byte, after a lead, and in a second word: no piece, the lead, and a word folded before it. -/
theorem witness_BusFaultRaised :
    ((0x20000003#32 : Addr).toNat + (6#32 : Len).toNat ≤ 2 ^ 32 ∧ 0 < (6#32 : Len).toNat ∧
      bufferBytes mem59 (0x20000003#32 : Addr).toNat 0 = some [] ∧
      Memory.lookup mem59 ((0x20000003#32 : Addr).toNat + 0) = none) ∧
    ((0x20000004#32 : Addr).toNat + (8#32 : Len).toNat ≤ 2 ^ 32 ∧ 5 < (8#32 : Len).toNat ∧
      bufferBytes mem59 (0x20000004#32 : Addr).toNat 5 = some [0x35#8, 0x36#8, 0x37#8, 0x38#8, 0x39#8] ∧
      Memory.lookup mem59 ((0x20000004#32 : Addr).toNat + 5) = none) ∧
    foldedBefore 0x20000003#32 6#32 0 = 0 ∧
    (foldedBefore 0x20000005#32 8#32 4 = 3 ∧ (splitBuffer 0x20000005#32 8#32).lead.val = 3 ∧
      bufferBytes mem59 (0x20000005#32 : Addr).toNat 4 = some [0x36#8, 0x37#8, 0x38#8, 0x39#8] ∧
      Memory.lookup mem59 ((0x20000005#32 : Addr).toNat + 4) = none) ∧
    (splitBuffer 0x20000004#32 8#32).lead.val < foldedBefore 0x20000004#32 8#32 5 := by decide

theorem witness_FinishResult : (opened 1#32 2#32 []).fault = 0 ∧ (opened 1#32 2#32 []).phase = .OPEN :=
  ⟨rfl, rfl⟩

theorem witness_IllegalCommandRaised :
    (waiting (.port (.command 3#96)) State.reset).inputs = .port (.command 3#96) :: [] ∧
    (waiting (.port (.command 3#96)) State.reset).fault = 0 ∧ ∀ i, decodeCommand 3#96 ≠ .ok i :=
  ⟨rfl, rfl, fun _ h => nomatch h⟩

theorem witness_FaultIsSticky :
    isHostCommand .finish = true ∧ (faulted (.busFault 4#32) (opened 1#32 2#32 [])).fault ≠ 0 ∧
    (nextOf (step (waiting (.setByte 0#32 none) (faulted (.busFault 4#32) State.reset)))).isSome = true ∧
    ∀ input rest, (waiting (.setByte 0#32 none) (faulted (.busFault 4#32) State.reset)).inputs =
      input :: rest → isReset input = false := by
  refine ⟨rfl, by decide, by decide, fun input rest h => ?_⟩
  obtain ⟨rfl, -⟩ := List.cons.inj h
  rfl

/-- One descriptor and state for each clause, in order. -/
theorem witness_CommandPriority :
    (faulted (.busFault 4#32) (waiting (.port (.command 3#96)) State.reset)).fault ≠ 0 ∧
    (∀ i, decodeCommand 3#96 ≠ .ok i) ∧
    (decodeCommand 2#96 = .ok .finish ∧ Instr.finish.mnemonic ≠ .start ∧ State.reset.phase = .CLOSED) ∧
    (decodeCommand 0x00000003FFFFFFFE00000001#96 = .ok (.process 0xFFFFFFFE#32 3#32) ∧
      2 ^ 32 < (0xFFFFFFFE#32 : Addr).toNat + (3#32 : Len).toNat) ∧
    (decodeCommand 0x000000052000000400000001#96 = .ok (.process 0x20000004#32 5#32) ∧
      bufferBytes mem59 (0x20000004#32 : Addr).toNat (5#32 : Len).toNat =
        some [0x35#8, 0x36#8, 0x37#8, 0x38#8, 0x39#8] ∧
      bufferBytes (mem59.take 4) (0x20000004#32 : Addr).toNat 4 = some [0x35#8, 0x36#8, 0x37#8, 0x38#8] ∧
      Memory.lookup (mem59.take 4) ((0x20000004#32 : Addr).toNat + 4) = none) ∧
    (decodeCommand 0#96 = .ok (.start 0#32) ∧ (Instr.start 0#32).mnemonic = .start) ∧
    (Instr.finish.mnemonic = .finish ∧ (opened 1#32 2#32 []).phase = .OPEN) :=
  ⟨by decide, (fun _ h => nomatch h), ⟨rfl, by decide, rfl⟩, ⟨rfl, by decide⟩,
    ⟨rfl, by decide, by decide, by decide⟩, ⟨rfl, rfl⟩, rfl, rfl⟩

/-- Each register does change somewhere. -/
theorem witness_RegistersWrittenOnlyByTheirWriters :
    (nextOf (exec (.start 1#32) State.reset)).map
      (fun t => (t.corr != State.reset.corr, t.reg != State.reset.reg, t.phase != State.reset.phase)) =
      some (true, true, true) ∧
    (nextOf (exec (.process 0x20000004#32 1#32) (opened 1#32 2#32 []))).map
      (fun t => (t.fault != 0, t.ptr != 0#32, t.cnt != 0#32)) = some (true, true, true) := by decide

theorem witness_SoleMutatorsOfCorr :
    (nextOf (step (waiting (.port (encode (.start 1#32))) State.reset))).map (fun t => t.corr != State.reset.corr) =
      some true := by decide

theorem witness_OneResponsePerHostCommand :
    isHostCommand .finish = true ∧ isHostCommand (.word 1#32) = false ∧
    (nextOf (exec .finish (opened 1#32 2#32 []))).map (·.responses) = some [⟨0, 3#32⟩] ∧
    (nextOf (exec (.word 1#32) State.reset)).map (·.responses) = some [] := by decide

theorem witness_RequestsWellFormed :
    (nextOf (exec (.start 1#32) State.reset)).map (·.trace) = some [.engReset] ∧
    (nextOf (exec (.fold1 1#8) State.reset)).map (fun t => t.trace.map eventKind) =
      some [.engRead, .engWrite] ∧
    (nextOf (exec (.process 0x20000004#32 5#32) (opened 1#32 2#32 mem59))).map
      (fun t => t.trace.map eventKind) =
      some [.memRead4, .engWrite, .memRead1, .engRead, .engWrite] := by decide

/-- Two states with different hidden registers and a host command waiting. -/
theorem witness_HiddenRegistersUnobservable :
    hostAlike (waiting (.port (encode (.start 7#32))) (holding 1#32 2#32))
      (waiting (.port (encode (.start 7#32))) (holding 3#32 4#32)) ∧
    (∀ input rest, (waiting (.port (encode (.start 7#32))) (holding 1#32 2#32)).inputs = input :: rest →
      hostMove input = true) ∧
    (nextOf (step (waiting (.port (encode (.start 7#32))) (holding 1#32 2#32)))).isSome = true := by
  refine ⟨⟨rfl, rfl, rfl, rfl, rfl, rfl, rfl, rfl, fun h => nomatch h⟩, ?_, by decide⟩
  intro input rest h
  obtain ⟨rfl, -⟩ := List.cons.inj h
  rfl

/-- The open session of program P1 after its first word, with a fold waiting. -/
theorem witness_SessionInvariantKept :
    (waiting (.port (encode (.fold1 0x35#8))) (opened 0xA695C4AA#32 0#32 mem59)).inputs =
      .port (encode (.fold1 0x35#8)) :: [] ∧
    (∀ p i, Input.port (encode (.fold1 0x35#8)) = .port p → decode p = .ok i →
      i.mnemonic ≠ .engReset ∧ i.mnemonic ≠ .engWrite) ∧
    (opened 0xA695C4AA#32 0#32 mem59).reg ^^^ (opened 0xA695C4AA#32 0#32 mem59).corr =
      crcBytes 0xFFFFFFFF#32 [0x31#8, 0x32#8, 0x33#8, 0x34#8] ∧
    (nextOf (step (waiting (.port (encode (.fold1 0x35#8))) (opened 0xA695C4AA#32 0#32 mem59)))).map
      (fun t => (t.phase, t.fault)) = some (.OPEN, 0#3) := by
  refine ⟨rfl, fun p i hp hi => ?_, by decide, by decide⟩
  cases hp
  obtain rfl : .fold1 0x35#8 = i := Except.ok.inj hi
  decide

/-- From that state an input for each clause leaves the session open with no fault: START, PROCESS, a fold, WORD, and
the platform's `setByte`. -/
theorem witness_SessionInvariantKept_steps :
    [commandInput (.start 7#32), commandInput (.process 0x20000004#32 1#32), .port (encode (.fold1 0x35#8)),
      .port (encode (.word 0x35363738#32)), .setByte 0x20000004#32 none].map
      (fun input => (nextOf (step (waiting input (opened 0xA695C4AA#32 0#32 mem59)))).map
        fun t => (t.phase, t.fault)) =
    List.replicate 5 (some (.OPEN, 0#3)) := by decide

/-- The same session with one call of five bytes and with two calls of three and two, the first in other memory. -/
theorem witness_Sessions :
    buffersHold mem59 [(0x20000004#32, 5#32)] [[0x35#8, 0x36#8, 0x37#8, 0x38#8, 0x39#8]] ∧
    buffersHold mem59 [(0x20000004#32, 3#32), (0x20000007#32, 2#32)]
      [[0x35#8, 0x36#8, 0x37#8], [0x38#8, 0x39#8]] ∧
    [[(0x35#8 : Byte), 0x36#8, 0x37#8, 0x38#8, 0x39#8]].flatten =
      [[0x35#8, 0x36#8, 0x37#8], [0x38#8, 0x39#8]].flatten ∧
    ({ State.reset with inputs := sessionInputs 5#32 [(0x20000004#32, 5#32)] }).inputs =
      sessionInputs 5#32 [(0x20000004#32, 5#32)] ++ [] ∧ State.reset.fault = 0 :=
  ⟨.cons ⟨by decide, by decide⟩ .nil,
    .cons ⟨by decide, by decide⟩ (.cons ⟨by decide, by decide⟩ .nil), by decide, by decide, rfl⟩

end Sys2Proof.Tests
end

section
/-! PROOFS. The step on a port word that decodes (spec/00_scope.md R7): the fetch hands the operation on, and the step
runs it. -/

namespace Sys2Proof.Machine

/-- An operation that the fetch hands on is the one the step runs. -/
theorem step_of_fetch_run {s t : State} {i : Instr} (h : fetch s = .run i t) : step s = exec i t := by
  simp only [step, h]

/-- A descriptor that decodes is handed on (R126). -/
theorem fetchCommand_of_decode {c : BitVec 96} {i : Instr} (s : State) (h : decodeCommand c = .ok i) :
    fetchCommand c s = .run i s := by
  simp only [fetchCommand, h]

/-- An engine request that the block may issue is handed on (R56). -/
theorem fetchEngine_of_decode {r : BitVec 34} {i : Instr} (s : State) (h : decodeEngine r = .ok i)
    (hw : wellFormedEngine r = true) : fetchEngine r s = .run i s := by
  simp only [fetchEngine, h, hw, if_true]

/-- A label that is generated is handed on (R58). -/
theorem fetchMicroOp_of_decode {l : BitVec 3} {d : Word} {i : Instr} (s : State)
    (h : decodeMicroOp l d = .ok i) : fetchMicroOp l d s = .run i s := by
  simp only [fetchMicroOp, h]

/-- On every port a word that decodes is handed on; only on the engine's port must it be well formed as well. -/
theorem fetchInput_port_of_decode {p : PortWord} {i : Instr} (s : State) (hd : decode p = .ok i)
    (hw : ∀ r, p = .engine r → wellFormedEngine r = true) : fetchInput (.port p) s = .run i s := by
  cases p with
  | command c => exact fetchCommand_of_decode s hd
  | engine r => exact fetchEngine_of_decode s hd (hw r rfl)
  | microOp l d => exact fetchMicroOp_of_decode s hd

/-- The fetch takes the head of the queue. -/
theorem fetch_of_inputs {s : State} {input : Input} {rest : List Input} (h : s.inputs = input :: rest) :
    fetch s = fetchInput input { s with inputs := rest } := by
  simp only [fetch, h]

/-- Settles O7, through the fetch: it takes the head of the queue, and a port word that decodes is handed on to `exec`. -/
theorem stepRunsDecodedOperation : Obligations.StepRunsDecodedOperation := by
  intro s p rest i hin hd hw
  exact step_of_fetch_run ((fetch_of_inputs hin).trans (fetchInput_port_of_decode _ hd hw))

end Sys2Proof.Machine
end

section
/-! PROOFS. What the host cannot see (spec/10_state.md R20, R21): no command answers from a register that it has not
itself written or that an open session has not fixed. -/

namespace Sys2Proof.Machine

/-! ## The fetch that hands no operation on -/

/-- With nothing waiting the step leaves the state (R135). -/
theorem step_of_idle {s : State} (h : s.inputs = []) : step s = .next s := by
  simp only [step, fetch, h]

/-- An outcome that the fetch settles is the step's. -/
theorem step_of_fetch_settled {s : State} {o : Host.Outcome State Fault Refusal}
    (h : fetch s = .settled o) : step s = o := by
  simp only [step, h]

/-- A descriptor that does not decode is answered before any operation (R122, R126). -/
theorem fetchCommand_of_reject {c : BitVec 96} {e : Reject} (s : State) (h : decodeCommand c = .error e) :
    fetchCommand c s = .settled (.next (illegalCommand c s)) := by
  simp only [fetchCommand, h]

/-! ## States the host cannot tell apart -/

/-- Two such states are one state, up to the cursor and, while no session is open, up to `REG` and `CORR`. -/
theorem hostAlike_iff {s t : State} :
    hostAlike s t ↔ (s.phase = .OPEN → s.corr = t.corr ∧ s.reg = t.reg) ∧
      t = { s with corr := t.corr, reg := t.reg, ptr := t.ptr, cnt := t.cnt } := by
  constructor
  · rintro ⟨hphase, hfault, hinfo, hmem, hin, hresp, htrace, hfresh, hopen⟩
    refine ⟨hopen, ?_⟩
    rw [hphase, hfault, hinfo, hmem, hin, hresp, htrace, hfresh]
  · rintro ⟨hopen, ht⟩
    rw [ht]
    exact ⟨rfl, rfl, rfl, rfl, rfl, rfl, rfl, rfl, hopen⟩

/-- The cursor is hidden always, even in an open session. -/
theorem hostAlike_cursor (s : State) (p : Addr) (n : Len) : hostAlike s { s with ptr := p, cnt := n } :=
  hostAlike_iff.mpr ⟨fun _ => ⟨rfl, rfl⟩, rfl⟩

theorem hostAlike_refl (s : State) : hostAlike s s := hostAlike_cursor s s.ptr s.cnt

/-- In an open session nothing but the cursor is hidden. -/
theorem eq_cursor_of_hostAlike_open {s t : State} (h : hostAlike s t) (hp : s.phase = .OPEN) :
    t = { s with ptr := t.ptr, cnt := t.cnt } := by
  obtain ⟨hopen, ht⟩ := hostAlike_iff.mp h
  obtain ⟨hcorr, hreg⟩ := hopen hp
  rw [← hcorr, ← hreg] at ht
  exact ht

section
variable {s t : State} (h : hostAlike s t)
include h

theorem hostAlike_phase : s.phase = t.phase := by
  obtain ⟨hphase, -⟩ := h
  exact hphase

theorem hostAlike_fault : s.fault = t.fault := by
  obtain ⟨-, hfault, -⟩ := h
  exact hfault

theorem hostAlike_inputs : s.inputs = t.inputs := by
  obtain ⟨-, -, -, -, hin, -⟩ := h
  exact hin

theorem hostAlike_trace : s.trace = t.trace := by
  obtain ⟨-, -, -, -, -, -, htrace, -⟩ := h
  exact htrace

/-- What neither reads nor writes the four registers, and leaves `PHASE`, shows nothing. -/
theorem hostAlike_of_registersUntouched {f : State → State}
    (hf : ∀ (u : State) (c r : Word) (p : Addr) (n : Len),
      f { u with corr := c, reg := r, ptr := p, cnt := n } =
        { f u with corr := c, reg := r, ptr := p, cnt := n })
    (hphase : (f s).phase = s.phase) : hostAlike (f s) (f t) := by
  obtain ⟨hopen, ht⟩ := hostAlike_iff.mp h
  have hown : f s = { f s with corr := s.corr, reg := s.reg, ptr := s.ptr, cnt := s.cnt } := hf s _ _ _ _
  have hcorr : (f s).corr = s.corr := by rw [hown]
  have hreg : (f s).reg = s.reg := by rw [hown]
  rw [ht, hf s t.corr t.reg t.ptr t.cnt]
  refine ⟨rfl, rfl, rfl, rfl, rfl, rfl, rfl, rfl, fun hp => ?_⟩
  rw [hcorr, hreg]
  exact hopen (hphase.symm.trans hp)

/-- Taking the head of the queue shows nothing. -/
theorem hostAlike_takeInput (rest : List Input) :
    hostAlike { s with inputs := rest } { t with inputs := rest } :=
  hostAlike_of_registersUntouched h (f := fun u => { u with inputs := rest }) (fun _ _ _ _ _ => rfl) rfl

theorem hostAlike_extendTrace (es : List Event) :
    hostAlike { s with trace := s.trace ++ es } { t with trace := t.trace ++ es } :=
  hostAlike_of_registersUntouched h (f := fun u => { u with trace := u.trace ++ es })
    (fun _ _ _ _ _ => rfl) rfl

theorem hostAlike_respond (status : BitVec 3) (value : Word) :
    hostAlike (respond status value s) (respond status value t) :=
  hostAlike_of_registersUntouched h (fun _ _ _ _ _ => rfl) rfl

theorem hostAlike_raise (info : FaultInfo) : hostAlike (raise info s) (raise info t) :=
  hostAlike_of_registersUntouched h (fun _ _ _ _ _ => rfl) rfl

theorem hostAlike_setByte (a : Addr) (v : Option Byte) : hostAlike (setByte a v s) (setByte a v t) :=
  hostAlike_of_registersUntouched h (fun _ _ _ _ _ => rfl) rfl

/-- A hardware reset closes the session, so what the four registers hold after it does not show (R140). -/
theorem hostAlike_hardwareReset : hostAlike (hardwareReset s) (hardwareReset t) := by
  obtain ⟨-, ht⟩ := hostAlike_iff.mp h
  rw [ht]
  exact hostAlike_refl _

/-! ## The host commands -/

/-- The prologue tests `FAULT` only, which the host knows (R126). -/
theorem hostAlike_hostCommand {body : State → State} (hbody : hostAlike (body s) (body t)) :
    hostAlike (hostCommand body s) (hostCommand body t) := by
  have hfault := hostAlike_fault h
  rcases hostCommand_cases body s with ⟨hs, es⟩ | ⟨hs, es⟩ <;>
    rcases hostCommand_cases body t with ⟨ht, et⟩ | ⟨ht, et⟩
  · rw [es, et, stickyResponse, stickyResponse, hfault]
    exact hostAlike_respond h _ _
  · exact absurd (hfault.trans ht) hs
  · exact absurd (hfault.symm.trans hs) ht
  · rw [es, et]
    exact hbody

/-- START writes `REG` and `CORR` both (R100). -/
theorem hostAlike_startBody (seed : Word) : hostAlike (startBody seed s) (startBody seed t) := by
  obtain ⟨-, ht⟩ := hostAlike_iff.mp h
  rw [ht]
  exact hostAlike_cursor (startBody seed s) _ _

/-- PROCESS sets the cursor before it reads it, and reads `REG` and `CORR` only in an open session (R107, R121). -/
theorem hostAlike_processBody (addr : Addr) (len : Len) :
    hostAlike (processBody addr len s) (processBody addr len t) := by
  have hphase := hostAlike_phase h
  cases hp : s.phase with
  | CLOSED =>
    rw [processBody, processBody, if_pos hp, if_pos (hphase.symm.trans hp)]
    exact hostAlike_raise h _
  | OPEN =>
    have hne {u : State} (hu : u.phase = .OPEN) : u.phase ≠ .CLOSED := hu ▸ Phase.noConfusion
    rw [processBody, processBody, if_neg (hne hp), if_neg (hne (hphase.symm.trans hp))]
    split
    · exact hostAlike_raise h _
    · rw [eq_cursor_of_hostAlike_open h hp]
      exact hostAlike_refl (endProcess (processBuffer addr len s))

/-- FINISH reads `REG` and `CORR` in an open session only, and closes it (R110, R121). -/
theorem hostAlike_finishBody : hostAlike (finishBody s) (finishBody t) := by
  cases hp : s.phase with
  | CLOSED =>
    rw [finishBody, finishBody, if_pos hp, if_pos ((hostAlike_phase h).symm.trans hp)]
    exact hostAlike_raise h _
  | OPEN =>
    rw [eq_cursor_of_hostAlike_open h hp]
    have hne : ¬ s.phase = .CLOSED := hp ▸ Phase.noConfusion
    rw [finishBody, finishBody, if_neg hne, if_neg hne]
    exact hostAlike_cursor _ _ _

/-- A host command that arrives on the port shows nothing (R152). -/
theorem hostAlike_exec_of_decodeCommand {c : BitVec 96} {i : Instr} (hd : decodeCommand c = .ok i) :
    ∃ s' t', exec i s = .next s' ∧ exec i t = .next t' ∧ hostAlike s' t' := by
  rcases decodeCommand_ok hd with ⟨-, -, -, rfl⟩ | ⟨-, -, rfl⟩ | ⟨-, -, -, -, rfl⟩
  · exact ⟨_, _, rfl, rfl, hostAlike_hostCommand h (hostAlike_startBody h _)⟩
  · exact ⟨_, _, rfl, rfl, hostAlike_hostCommand h (hostAlike_processBody h _ _)⟩
  · exact ⟨_, _, rfl, rfl, hostAlike_hostCommand h (hostAlike_finishBody h)⟩

/-- The events of a command are what the host sees of it on the two ports. -/
theorem commandEvents_of_hostAlike (c : BitVec 96) : commandEvents c s = commandEvents c t := by
  cases hd : decodeCommand c with
  | error e => simp only [commandEvents, hd]
  | ok i =>
    obtain ⟨s', t', hs, ht, h'⟩ := hostAlike_exec_of_decodeCommand h hd
    simp only [commandEvents, hd, hs, ht, hostAlike_trace h, hostAlike_trace h']

theorem hostAlike_resetDuring (c : BitVec 96) (n : Nat) :
    hostAlike (resetDuring c n s) (resetDuring c n t) := by
  rw [resetDuring, resetDuring, commandEvents_of_hostAlike h c]
  exact hostAlike_hardwareReset (hostAlike_extendTrace h _)

/-! ## The step -/

/-- Every move of the host or the platform, taken from the queue, shows nothing. -/
theorem hostAlike_fetchInput {input : Input} (hmove : hostMove input = true) :
    (∃ i s' t', fetchInput input s = .run i s ∧ fetchInput input t = .run i t ∧
      exec i s = .next s' ∧ exec i t = .next t' ∧ hostAlike s' t') ∨
    (∃ s' t', fetchInput input s = .settled (.next s') ∧ fetchInput input t = .settled (.next t') ∧
      hostAlike s' t') := by
  cases input with
  | port p =>
    cases p with
    | command c =>
      cases hd : decodeCommand c with
      | ok i =>
        obtain ⟨s', t', hs, ht, h'⟩ := hostAlike_exec_of_decodeCommand h hd
        exact .inl ⟨i, s', t', fetchCommand_of_decode s hd, fetchCommand_of_decode t hd, hs, ht, h'⟩
      | error e =>
        exact .inr ⟨_, _, fetchCommand_of_reject s hd, fetchCommand_of_reject t hd,
          hostAlike_hostCommand h (hostAlike_raise h _)⟩
    | engine r => exact nomatch hmove
    | microOp l d => exact nomatch hmove
  | foreign r => exact nomatch hmove
  | hardwareReset => exact .inr ⟨_, _, rfl, rfl, hostAlike_hardwareReset h⟩
  | resetDuring c n => exact .inr ⟨_, _, rfl, rfl, hostAlike_resetDuring h c n⟩
  | setByte a v => exact .inr ⟨_, _, rfl, rfl, hostAlike_setByte h a v⟩

end

/-- Settles O55: an idle step shows nothing, and neither does any input that the host or the platform puts in the
queue. -/
theorem hiddenRegistersUnobservable : Obligations.HiddenRegistersUnobservable := by
  intro s t s' h hmove hs
  cases hin : s.inputs with
  | nil =>
    rw [step_of_idle hin] at hs
    obtain rfl := Host.Outcome.next.inj hs
    exact ⟨t, step_of_idle ((hostAlike_inputs h).symm.trans hin), h⟩
  | cons input rest =>
    have hfs := fetch_of_inputs hin
    have hft := fetch_of_inputs ((hostAlike_inputs h).symm.trans hin)
    rcases hostAlike_fetchInput (hostAlike_takeInput h rest) (hmove input rest hin) with
      ⟨i, u, u', es, et, xs, xt, h'⟩ | ⟨u, u', es, et, h'⟩
    · rw [step_of_fetch_run (hfs.trans es), xs] at hs
      obtain rfl := Host.Outcome.next.inj hs
      exact ⟨u', (step_of_fetch_run (hft.trans et)).trans xt, h'⟩
    · rw [step_of_fetch_settled (hfs.trans es)] at hs
      obtain rfl := Host.Outcome.next.inj hs
      exact ⟨u', step_of_fetch_settled (hft.trans et), h'⟩

end Sys2Proof.Machine
end

section
/-! PROOFS. The reference function over whole lists (spec/40_engine_primitives.md R72, R73, R77): it concatenates, it is
linear, and over the register's own bytes it only shifts. -/

namespace Sys2Proof.Machine

/-- XOR of the same word twice cancels. -/
theorem xor_xor_cancel_left (a b : Word) : a ^^^ (a ^^^ b) = b := by
  rw [← BitVec.xor_assoc, BitVec.xor_self, BitVec.zero_xor]

@[simp] theorem crcBytes_nil (c : Word) : crcBytes c [] = c := rfl

@[simp] theorem crcBytes_cons (c : Word) (d : Byte) (ds : List Byte) :
    crcBytes c (d :: ds) = crcBytes (crcByte c d) ds := rfl

/-- The concatenation law (R72). -/
theorem crcBytes_append (c : Word) (xs ys : List Byte) :
    crcBytes c (xs ++ ys) = crcBytes (crcBytes c xs) ys := by
  induction xs generalizing c with
  | nil => rfl
  | cons x xs ih => exact ih (crcByte c x)

/-- The reference function is linear over XOR in the register and the bytes together. -/
theorem crcBytes_xor (a b : Word) {xs ys : List Byte} (h : xs.length = ys.length) :
    crcBytes (a ^^^ b) (List.zipWith (· ^^^ ·) xs ys) = crcBytes a xs ^^^ crcBytes b ys := by
  induction xs generalizing a b ys with
  | nil =>
    obtain rfl := List.eq_nil_of_length_eq_zero h.symm
    rfl
  | cons x xs ih =>
    cases ys with
    | nil => exact nomatch h
    | cons y ys =>
      rw [List.zipWith_cons_cons, crcBytes_cons, crcByte_xor]
      exact ih _ _ (Nat.succ.inj h)

/-- Bytes that are 0 leave a register that is 0. -/
theorem crcBytes_zero (n : Nat) : crcBytes 0#32 (List.replicate n 0#8) = 0#32 := by
  have hstep : crcByte 0#32 0#8 = 0#32 := by decide
  induction n with
  | zero => rfl
  | succ n ih => rw [List.replicate_succ, crcBytes_cons, hstep, ih]

/-- The top `k` bytes of a register, the most significant first. -/
def topBytes : Nat → Word → List Byte
  | 0, _ => []
  | k + 1, c => c.extractLsb' 24 8 :: topBytes k (c <<< 8)

theorem length_topBytes (k : Nat) (c : Word) : (topBytes k c).length = k := by
  induction k generalizing c with
  | zero => rfl
  | succ k ih => exact congrArg Nat.succ (ih (c <<< 8))

/-- Folding the register's own top bytes only shifts it. -/
theorem crcBytes_topBytes (k : Nat) (c : Word) : crcBytes c (topBytes k c) = c <<< (8 * k) := by
  induction k generalizing c with
  | zero => exact (BitVec.shiftLeft_zero c).symm
  | succ k ih =>
    rw [topBytes, crcBytes_cons, crcByte_top, ih, ← BitVec.shiftLeft_add, Nat.mul_succ, Nat.add_comm]

theorem topBytes_xor (k : Nat) (a b : Word) :
    topBytes k (a ^^^ b) = List.zipWith (· ^^^ ·) (topBytes k a) (topBytes k b) := by
  induction k generalizing a b with
  | zero => rfl
  | succ k ih =>
    rw [topBytes, topBytes, topBytes, BitVec.shiftLeft_xor_distrib, ih, BitVec.extractLsb'_xor]
    rfl

/-- A byte of a register shifted up. -/
theorem extractLsb'_shiftLeft_top (w : Word) {n : Nat} (hn : n ≤ 24) :
    (w <<< n).extractLsb' 24 8 = w.extractLsb' (24 - n) 8 := by
  ext i hi
  have hlow : ¬ 24 + i < n := by omega
  have hidx : 24 + i - n = 24 - n + i := by omega
  have hlt : 24 + i < 32 := by omega
  rw [BitVec.getElem_extractLsb', BitVec.getElem_extractLsb', BitVec.getLsbD_shiftLeft, hidx,
    decide_eq_true hlt, decide_eq_false hlow, Bool.not_false, Bool.true_and, Bool.true_and]

/-- A byte of a register shifted down. -/
theorem extractLsb'_shiftRight (w : Word) (n p : Nat) :
    (w >>> n).extractLsb' p 8 = w.extractLsb' (n + p) 8 := by
  ext i hi
  simp [Nat.add_assoc]

/-- Past the top of a register there is nothing. -/
theorem extractLsb'_pastTop (w : Word) {p : Nat} (hp : 32 ≤ p) : w.extractLsb' p 8 = 0#8 := by
  ext i hi
  simp [BitVec.getLsbD_of_ge, Nat.le_add_right_of_le hp]

/-- The four bytes of a word are its top four. -/
theorem topBytes_four (w : Word) :
    topBytes 4 w = [w.extractLsb' 24 8, w.extractLsb' 16 8, w.extractLsb' 8 8, w.extractLsb' 0 8] := by
  simp only [topBytes, ← BitVec.shiftLeft_add]
  rw [extractLsb'_shiftLeft_top w (by decide : 8 ≤ 24), extractLsb'_shiftLeft_top w (by decide : 8 + 8 ≤ 24),
    extractLsb'_shiftLeft_top w (by decide : 8 + 8 + 8 ≤ 24)]

/-- The four bytes of four bytes in a row. -/
theorem topBytes_bytes (b3 b2 b1 b0 : Byte) : topBytes 4 (b3 ++ b2 ++ b1 ++ b0) = [b3, b2, b1, b0] := by
  obtain ⟨h3, h2, h1, h0⟩ := byteAt_bytes b3 b2 b1 b0
  rw [topBytes_four]
  exact congr (congrArg _ h3) (congr (congrArg _ h2) (congr (congrArg _ h1) (congrArg (· :: []) h0)))

/-- `crc_word` folds the four bytes of its word (R73). -/
theorem crcWord_eq_topBytes (c w : Word) : crcWord c w = crcBytes c (topBytes 4 w) := by
  rw [topBytes_four, crcWord]

/-- A register folded into itself leaves 0 (R77). -/
theorem crcWord_self (c : Word) : crcWord c c = 0 := by
  rw [crcWord_eq_topBytes, crcBytes_topBytes]
  exact BitVec.shiftLeft_eq_zero (Nat.le_refl 32)

theorem crcWord_xor (a b u v : Word) : crcWord (a ^^^ b) (u ^^^ v) = crcWord a u ^^^ crcWord b v := by
  simp only [crcWord_eq_topBytes, topBytes_xor]
  exact crcBytes_xor a b ((length_topBytes 4 u).trans (length_topBytes 4 v).symm)

/-- Only the XOR of register and word counts (R77). -/
theorem crcWord_eq_t32 (c w : Word) : crcWord c w = t32 (c ^^^ w) := by
  calc crcWord c w = crcWord (w ^^^ (c ^^^ w)) (w ^^^ 0#32) := by
        rw [BitVec.xor_zero, BitVec.xor_comm c, xor_xor_cancel_left]
    _ = crcWord w w ^^^ t32 (c ^^^ w) := crcWord_xor _ _ _ _
    _ = t32 (c ^^^ w) := by rw [crcWord_self]; exact BitVec.zero_xor

/-- A register shifted down to its top `k` bytes. -/
theorem topBytes_shiftRight {k : Nat} (hk : k ≤ 4) (c : Word) :
    topBytes 4 (c >>> (32 - 8 * k)) = List.replicate (4 - k) 0#8 ++ topBytes k c := by
  rw [topBytes_four]
  simp only [extractLsb'_shiftRight]
  interval_cases k <;> simp [extractLsb'_pastTop, extractLsb'_shiftLeft_top, topBytes, List.replicate_succ]

theorem subWordCount_le (d : SubWord) : subWordCount d ≤ 3 := by
  cases d <;> simp [subWordCount]

theorem length_subWordBytes (d : SubWord) : (subWordBytes d).length = subWordCount d := by
  cases d <;> rfl

/-- The packed words of two and of three data bytes, as four bytes in a row (R90). -/
theorem packLo_two_eq (d0 d1 : Byte) : packLo (.two d0 d1) = 0#8 ++ 0#8 ++ d0 ++ d1 :=
  (BitVec.append_assoc (x₁ := 0#8 ++ 0#8) (x₂ := d0) (x₃ := d1)).symm

theorem packLo_three_eq (d0 d1 d2 : Byte) : packLo (.three d0 d1 d2) = 0#8 ++ d0 ++ d1 ++ d2 :=
  calc packLo (.three d0 d1 d2) = 0#8 ++ (d0 ++ d1) ++ d2 :=
        (BitVec.append_assoc (x₁ := 0#8) (x₂ := d0 ++ d1) (x₃ := d2)).symm
    _ = 0#8 ++ d0 ++ d1 ++ d2 :=
        congrArg (· ++ d2) (BitVec.append_assoc (x₁ := 0#8) (x₂ := d0) (x₃ := d1)).symm

/-- The data of a fold stand in the low bytes of its packed word (R90). -/
theorem topBytes_packLo {d : SubWord} (hd : d ≠ .zero) :
    topBytes 4 (packLo d) = List.replicate (4 - subWordCount d) 0#8 ++ subWordBytes d := by
  cases d with
  | zero => exact absurd rfl hd
  | one d0 => exact topBytes_bytes 0#8 0#8 0#8 d0
  | two d0 d1 => rw [packLo_two_eq]; exact topBytes_bytes 0#8 0#8 d0 d1
  | three d0 d1 d2 => rw [packLo_three_eq]; exact topBytes_bytes 0#8 d0 d1 d2

/-- The synthetic word of a fold, folded into 0: its top bytes are 0, the others are the data XOR the top of `t`
(R92). -/
theorem t32_synthetic {d : SubWord} (hd : d ≠ .zero) (t : Word) :
    t32 (packLo d ^^^ t >>> (32 - 8 * subWordCount d)) =
      crcBytes 0#32 (List.zipWith (· ^^^ ·) (subWordBytes d) (topBytes (subWordCount d) t)) := by
  have hpad : List.zipWith (· ^^^ ·) (List.replicate (4 - subWordCount d) 0#8)
      (List.replicate (4 - subWordCount d) 0#8) = List.replicate (4 - subWordCount d) 0#8 := by
    rw [List.zipWith_replicate, Nat.min_self, BitVec.xor_self]
  have hword (x : Word) : t32 x = crcWord 0#32 x := by rw [crcWord_eq_t32, BitVec.zero_xor]
  rw [hword, crcWord_eq_topBytes, topBytes_xor, topBytes_packLo hd,
    topBytes_shiftRight (Nat.le_succ_of_le (subWordCount_le d)),
    List.zipWith_append rfl, hpad, crcBytes_append, crcBytes_zero]

/-- The law of a fold (R96): the shifted register and the synthetic word together fold the data bytes. -/
theorem crcBytes_subWord {d : SubWord} (hd : d ≠ .zero) (t : Word) :
    crcBytes t (subWordBytes d) =
      t32 (packLo d ^^^ t >>> (32 - 8 * subWordCount d)) ^^^ t <<< (8 * subWordCount d) := by
  have hlen : (subWordBytes d).length = (topBytes (subWordCount d) t).length :=
    (length_subWordBytes d).trans (length_topBytes _ t).symm
  rw [t32_synthetic hd, ← BitVec.xor_self (x := t), crcBytes_xor t t hlen, crcBytes_topBytes,
    BitVec.xor_assoc, BitVec.xor_self, BitVec.xor_zero]

end Sys2Proof.Machine
end

section
/-! PROOFS. The true CRC `TRUE = REG ^ CORR` (spec/10_state.md R13) under a fold and a WORD
(spec/42_subword_corrector.md R96, R98). -/

namespace Sys2Proof.Machine

/-- A fold extends the true CRC by its data bytes (R96). -/
theorem trueCrc_foldSubWord (d : SubWord) (s : State) :
    trueCrc (foldSubWord d s) = crcBytes (trueCrc s) (subWordBytes d) := by
  by_cases hd : d = .zero
  · rw [hd]
    rfl
  · have hval : s.reg ^^^ (s.reg ^^^ packLo d ^^^ (s.reg ^^^ s.corr) >>> (32 - 8 * subWordCount d)) =
        packLo d ^^^ (s.reg ^^^ s.corr) >>> (32 - 8 * subWordCount d) := by
      rw [BitVec.xor_assoc, xor_xor_cancel_left]
    rw [foldSubWord_eq, if_neg hd, foldBytes_eq, trueCrc, trueCrc, crcWord_eq_t32, hval,
      crcBytes_subWord hd]

/-- A WORD extends the true CRC by the four bytes of its word (R98). -/
theorem trueCrc_foldWord (w : Word) (s : State) : trueCrc (foldWord w s) = crcWord (trueCrc s) w := by
  have hval : s.reg ^^^ (w ^^^ s.corr) = s.reg ^^^ s.corr ^^^ w := by
    rw [BitVec.xor_comm w, BitVec.xor_assoc]
  have hcorr : trueCrc (foldWord w s) = crcWord s.reg (w ^^^ s.corr) := BitVec.xor_zero
  rw [hcorr, crcWord_eq_t32, hval, ← crcWord_eq_t32, trueCrc]

end Sys2Proof.Machine
end

section
/-! PROOFS. A PROCESS that completes (spec/43_session_commands.md R102 to R108): its pieces read the buffer byte by byte
from the cursor up, and each extends the true CRC by the bytes it read. -/

namespace Sys2Proof.Machine

/-! ## The bytes of a buffer -/

theorem bufferBytes_cons {m : Memory} {a n : Nat} {b : Byte} {bs : List Byte}
    (hb : Memory.lookup m a = some b) (hbs : bufferBytes m (a + 1) n = some bs) :
    bufferBytes m a (n + 1) = some (b :: bs) := by
  simp only [bufferBytes, hb, hbs]

theorem bufferBytes_one {m : Memory} {a : Nat} {b : Byte} (hb : Memory.lookup m a = some b) :
    bufferBytes m a 1 = some [b] := bufferBytes_cons hb rfl

/-- A readable buffer starts with a readable byte. -/
theorem bufferBytes_succ {m : Memory} {a n : Nat} {bs : List Byte}
    (h : bufferBytes m a (n + 1) = some bs) :
    ∃ b bs', bs = b :: bs' ∧ Memory.lookup m a = some b ∧ bufferBytes m (a + 1) n = some bs' := by
  unfold bufferBytes at h
  split at h
  · rename_i b bs' hb hbs
    exact ⟨b, bs', (Option.some.inj h).symm, hb, hbs⟩
  · exact nomatch h

/-- Two readable buffers, the second where the first ends, are one. -/
theorem bufferBytes_append {m : Memory} {a n k : Nat} {xs ys : List Byte}
    (hx : bufferBytes m a n = some xs) (hy : bufferBytes m (a + n) k = some ys) :
    bufferBytes m a (n + k) = some (xs ++ ys) := by
  induction n generalizing a xs with
  | zero =>
    obtain rfl : [] = xs := Option.some.inj hx
    rwa [Nat.zero_add, List.nil_append]
  | succ n ih =>
    obtain ⟨b, xs', rfl, hb, hxs⟩ := bufferBytes_succ hx
    rw [Nat.succ_add]
    exact bufferBytes_cons hb (ih hxs (by rwa [Nat.add_right_comm]))

/-- Below the top of the address space an offset does not wrap. -/
theorem toNat_add_ofNat {a : Addr} {n : Nat} (h : a.toNat + n < 2 ^ 32) :
    (a + BitVec.ofNat 32 n).toNat = a.toNat + n := by
  rw [BitVec.toNat_add, BitVec.toNat_ofNat]
  omega

/-- A byte read at an offset that does not wrap. -/
theorem lookup_offset {m : Memory} {a : Addr} {n : Nat} {b : Byte}
    (hb : Memory.lookup m (a + BitVec.ofNat 32 n).toNat = some b) (h : a.toNat + n < 2 ^ 32) :
    Memory.lookup m (a.toNat + n) = some b := by
  rwa [toNat_add_ofNat h] at hb

/-! ## Parts of a PROCESS that complete -/

/-- A sequence that completes is two parts that do. -/
theorem andThen_done {α β : Type} {x : Access α} {f : α → State → Access β} {b : β} {u : State}
    (h : andThen x f = .done b u) : ∃ a t, x = .done a t ∧ f a t = .done b u := by
  cases x with
  | done a t => exact ⟨a, t, rfl, h⟩
  | stopped info t => exact nomatch h

/-- A byte read that completes returns the byte (R33). -/
theorem memRead1_done {a : Addr} {s t : State} {b : Byte} (h : memRead1 a s = .done b t) :
    Memory.lookup s.mem a.toNat = some b ∧ t = record (.memRead1 a b) s := by
  rcases memRead1_cases a s with ⟨b', hb, hx⟩ | ⟨-, hx⟩
  · obtain ⟨rfl, rfl⟩ := Access.done.inj (hx.symm.trans h)
    exact ⟨hb, rfl⟩
  · exact nomatch hx.symm.trans h

/-- A word read that completes returns its four bytes in memory order (R34). -/
theorem memRead4_done {a : Addr} {s t : State} {w : Word} (h : memRead4 a s = .done w t)
    (ha : a.toNat + 4 ≤ 2 ^ 32) :
    ∃ b0 b1 b2 b3, bufferBytes s.mem a.toNat 4 = some [b0, b1, b2, b3] ∧ w = leWord b0 b1 b2 b3 ∧
      t = record (.memRead4 a w) s := by
  rcases memRead4_cases a s with ⟨b0, b1, b2, b3, h0, h1, h2, h3, hx⟩ | ⟨j, -, -, -, hx⟩
  · obtain ⟨rfl, rfl⟩ := Access.done.inj (hx.symm.trans h)
    have h1' := lookup_offset (n := 1) h1 (by omega)
    have h2' := lookup_offset (n := 2) h2 (by omega)
    have h3' := lookup_offset (n := 3) h3 (by omega)
    exact ⟨b0, b1, b2, b3, bufferBytes_cons h0 (bufferBytes_cons h1' (bufferBytes_cons h2'
      (bufferBytes_one h3'))), rfl, rfl⟩
  · exact nomatch hx.symm.trans h

/-- The byte reads of a remainder return the bytes at the cursor, and only the trace shows them (R107). -/
theorem readSubWord_done {k : Fin 4} {s t : State} {d : SubWord} (h : readSubWord k s = .done d t)
    (hk : s.ptr.toNat + k.val ≤ 2 ^ 32) :
    bufferBytes s.mem s.ptr.toNat k.val = some (subWordBytes d) ∧ subWordCount d = k.val ∧
      t = { s with trace := t.trace } := by
  match k with
  | 0 =>
    obtain ⟨rfl, rfl⟩ := Access.done.inj h
    exact ⟨rfl, rfl, rfl⟩
  | 1 =>
    obtain ⟨d0, s1, h0, h⟩ := andThen_done h
    obtain ⟨hb0, rfl⟩ := memRead1_done h0
    obtain ⟨rfl, rfl⟩ := Access.done.inj h
    exact ⟨bufferBytes_one hb0, rfl, rfl⟩
  | 2 =>
    obtain ⟨d0, s1, h0, h⟩ := andThen_done h
    obtain ⟨hb0, rfl⟩ := memRead1_done h0
    obtain ⟨d1, s2, h1, h⟩ := andThen_done h
    obtain ⟨hb1, rfl⟩ := memRead1_done h1
    obtain ⟨rfl, rfl⟩ := Access.done.inj h
    have hb1' := lookup_offset (n := 1) hb1 (Nat.lt_of_succ_le hk)
    exact ⟨bufferBytes_cons hb0 (bufferBytes_one hb1'), rfl, rfl⟩
  | 3 =>
    obtain ⟨d0, s1, h0, h⟩ := andThen_done h
    obtain ⟨hb0, rfl⟩ := memRead1_done h0
    obtain ⟨d1, s2, h1, h⟩ := andThen_done h
    obtain ⟨hb1, rfl⟩ := memRead1_done h1
    obtain ⟨d2, s3, h2, h⟩ := andThen_done h
    obtain ⟨hb2, rfl⟩ := memRead1_done h2
    obtain ⟨rfl, rfl⟩ := Access.done.inj h
    have hb1' := lookup_offset (n := 1) hb1 (Nat.lt_of_succ_lt (Nat.lt_of_succ_le hk))
    have hb2' := lookup_offset (n := 2) hb2 (Nat.lt_of_succ_le hk)
    exact ⟨bufferBytes_cons hb0 (bufferBytes_cons hb1' (bufferBytes_one hb2')), rfl, rfl⟩

/-! ## Pieces that fold what they read -/

/-- `t` is after a piece of `n` bytes that started in `s`: the bytes at the cursor were readable, they extend the true
CRC, and the cursor stands behind them. -/
def foldsAtCursor (n : Nat) (s t : State) : Prop :=
  t.mem = s.mem ∧ t.ptr = s.ptr + BitVec.ofNat 32 n ∧
    ∃ bs, bufferBytes s.mem s.ptr.toNat n = some bs ∧ trueCrc t = crcBytes (trueCrc s) bs

theorem foldsAtCursor_refl (s : State) : foldsAtCursor 0 s s :=
  ⟨rfl, (BitVec.add_zero s.ptr).symm, [], rfl, rfl⟩

/-- Pieces one after another are one piece, as long as they end in the address space. -/
theorem foldsAtCursor_trans {n k : Nat} {s t u : State} (h : foldsAtCursor n s t)
    (g : foldsAtCursor k t u) (hle : s.ptr.toNat + n + k ≤ 2 ^ 32) : foldsAtCursor (n + k) s u := by
  obtain ⟨hmem, hptr, xs, hxs, hcrc⟩ := h
  obtain ⟨gmem, gptr, ys, hys, gcrc⟩ := g
  refine ⟨gmem.trans hmem, ?_, xs ++ ys, bufferBytes_append hxs ?_, ?_⟩
  · rw [gptr, hptr, BitVec.add_assoc, BitVec.ofNat_add]
  · rw [hmem, hptr] at hys
    cases k with
    | zero => exact hys
    | succ k => rwa [toNat_add_ofNat (by omega)] at hys
  · rw [gcrc, hcrc, crcBytes_append]

/-- What ends in the address space behind a piece starts in it, or is empty. -/
theorem foldsAtCursor_room {n k : Nat} {s t : State} (h : foldsAtCursor n s t)
    (hle : s.ptr.toNat + n + k ≤ 2 ^ 32) : t.ptr.toNat + k ≤ 2 ^ 32 := by
  obtain ⟨-, hptr, -⟩ := h
  cases k with
  | zero => exact t.ptr.isLt.le
  | succ k =>
    rw [hptr, toNat_add_ofNat (by omega)]
    exact hle

/-- The byte reversal puts a word read into engine order (R82). -/
theorem bswap32_leWord (b0 b1 b2 b3 : Byte) : bswap32 (leWord b0 b1 b2 b3) = beWord b0 b1 b2 b3 := by
  obtain ⟨h3, h2, h1, h0⟩ := byteAt_bytes b3 b2 b1 b0
  exact congrArg₂ (· ++ ·) (congrArg₂ (· ++ ·) (congrArg₂ (· ++ ·) h0 h1) h2) h3

theorem crcWord_beWord (c : Word) (b0 b1 b2 b3 : Byte) :
    crcWord c (beWord b0 b1 b2 b3) = crcBytes c [b0, b1, b2, b3] := by
  rw [crcWord_eq_topBytes, beWord, topBytes_bytes]

@[simp] theorem trueCrc_record (e : Event) (s : State) : trueCrc (record e s) = trueCrc s := rfl

@[simp] theorem trueCrc_advance (n : Nat) (s : State) : trueCrc (advance n s) = trueCrc s := rfl

/-- A remainder folds its bytes (R104, R106). -/
theorem processRemainder_done {k : Fin 4} {s t : State} (h : processRemainder k s = .done () t)
    (hk : s.ptr.toNat + k.val ≤ 2 ^ 32) : foldsAtCursor k.val s t := by
  unfold processRemainder at h
  split at h
  · rename_i h0
    obtain ⟨-, rfl⟩ := Access.done.inj h
    rw [h0]
    exact foldsAtCursor_refl s
  · obtain ⟨d, s1, hread, h⟩ := andThen_done h
    obtain ⟨hbs, -, hs1⟩ := readSubWord_done hread hk
    obtain ⟨-, rfl⟩ := Access.done.inj h
    refine ⟨?_, ?_, subWordBytes d, hbs, ?_⟩
    · rw [advance_mem, foldSubWord_mem, hs1]
    · rw [advance_ptr, foldSubWord_ptr, hs1]
    · calc trueCrc (advance k.val (foldSubWord d s1)) = trueCrc (foldSubWord d s1) := rfl
        _ = crcBytes (trueCrc s1) (subWordBytes d) := trueCrc_foldSubWord d s1
        _ = crcBytes (trueCrc s) (subWordBytes d) := by rw [hs1]; rfl

/-- One word of a run folds its four bytes (R105). -/
theorem foldsAtCursor_word {s t : State} {w : Word} (h : memRead4 s.ptr s = .done w t)
    (hle : s.ptr.toNat + 4 ≤ 2 ^ 32) : foldsAtCursor 4 s (advance 4 (foldWord (bswap32 w) t)) := by
  obtain ⟨b0, b1, b2, b3, hbs, rfl, rfl⟩ := memRead4_done h hle
  refine ⟨rfl, rfl, [b0, b1, b2, b3], hbs, ?_⟩
  rw [trueCrc_advance, trueCrc_foldWord, trueCrc_record, bswap32_leWord, crcWord_beWord]

/-- A word run folds the bytes of its words (R105). -/
theorem processWords_done {n : Nat} {s t : State} (h : processWords n s = .done () t)
    (hle : s.ptr.toNat + 4 * n ≤ 2 ^ 32) : foldsAtCursor (4 * n) s t := by
  induction n generalizing s with
  | zero =>
    obtain ⟨-, rfl⟩ := Access.done.inj h
    exact foldsAtCursor_refl s
  | succ n ih =>
    obtain ⟨w, s1, hread, h⟩ := andThen_done h
    have hword := foldsAtCursor_word hread (by omega)
    have hrun := ih h (foldsAtCursor_room hword (by omega))
    have hall := foldsAtCursor_trans hword hrun (by omega)
    rwa [Nat.mul_succ, Nat.add_comm]

/-! ## The whole PROCESS -/

/-- The three parts of the split are the buffer (R103). -/
theorem splitBuffer_sum (addr : Addr) (len : Len) :
    len.toNat = (splitBuffer addr len).lead.val + 4 * (splitBuffer addr len).words
      + (splitBuffer addr len).tail.val := by
  have hlead : (splitBuffer addr len).lead.val = leadBytes addr len := by
    have hlt : leadBytes addr len < 4 := by rw [leadBytes]; omega
    exact Nat.mod_eq_of_lt hlt
  have htail : (splitBuffer addr len).tail.val = (len.toNat - leadBytes addr len) % 4 := Nat.mod_mod _ _
  have hle : leadBytes addr len ≤ len.toNat := Nat.min_le_right _ _
  have hwords : (splitBuffer addr len).words = (len.toNat - leadBytes addr len) / 4 := rfl
  rw [hlead, hwords, htail]
  omega

/-- The three steps of a PROCESS that complete fold the whole buffer, which was readable (R107, R108). -/
theorem processBuffer_done {addr : Addr} {len : Len} {s t : State}
    (h : processBuffer addr len s = .done () t) (hle : addr.toNat + len.toNat ≤ 2 ^ 32) :
    ∃ bs, bufferHolds s.mem addr len bs ∧ trueCrc t = crcBytes (trueCrc s) bs := by
  have hsum := splitBuffer_sum addr len
  obtain ⟨⟨⟩, s1, hlead, h⟩ := andThen_done h
  obtain ⟨⟨⟩, s2, hwords, htail⟩ := andThen_done h
  have lead := processRemainder_done hlead (by dsimp only; omega)
  have words := processWords_done hwords (foldsAtCursor_room lead (by dsimp only; omega))
  have front := foldsAtCursor_trans lead words (by dsimp only; omega)
  have tail := processRemainder_done htail (foldsAtCursor_room front (by dsimp only; omega))
  obtain ⟨-, -, bs, hbs, hcrc⟩ := foldsAtCursor_trans front tail (by dsimp only; omega)
  rw [← hsum] at hbs
  exact ⟨bs, ⟨hle, hbs⟩, hcrc⟩

/-- A fault taken is recorded under a code other than 0 (R120). -/
theorem raise_fault_ne_zero (info : FaultInfo) (s : State) : (raise info s).fault ≠ 0 := by
  cases info <;> simp [faultCode]

/-- A command that leaves no fault had none before it, so its body ran (R126). -/
theorem hostCommand_completed {body : State → State} {s : State} (h : (hostCommand body s).fault = 0) :
    s.fault = 0 ∧ hostCommand body s = body s := by
  rcases hostCommand_cases body s with ⟨hs, e⟩ | hrun
  · rw [e] at h
    exact absurd h hs
  · exact hrun

/-- A PROCESS that leaves no fault found an open session and a buffer in the address space, and completed (R126). -/
theorem processBody_completed {addr : Addr} {len : Len} {s : State}
    (h : (processBody addr len s).fault = 0) :
    s.phase = .OPEN ∧ addr.toNat + len.toNat ≤ 2 ^ 32 ∧
      ∃ u, processBuffer addr len s = .done () u ∧ processBody addr len s = respond 0 0 u := by
  rcases processBody_cases addr len s with ⟨-, e⟩ | ⟨-, -, e⟩ | ⟨hp, hle, e⟩
  · rw [e] at h
    exact absurd h (raise_fault_ne_zero _ _)
  · rw [e] at h
    exact absurd h (raise_fault_ne_zero _ _)
  · cases hx : processBuffer addr len s with
    | done a u => exact ⟨hp, hle, u, rfl, by rw [e, hx, endProcess]⟩
    | stopped info u =>
      rw [e, hx] at h
      exact absurd h (raise_fault_ne_zero _ _)

/-- A PROCESS that leaves no fault extends the true CRC of an open session by the bytes of its buffer (R108). -/
theorem trueCrc_process {addr : Addr} {len : Len} {s : State}
    (h : (hostCommand (processBody addr len) s).fault = 0) :
    s.fault = 0 ∧ s.phase = .OPEN ∧ ∃ bs, bufferHolds s.mem addr len bs ∧
      trueCrc (hostCommand (processBody addr len) s) = crcBytes (trueCrc s) bs := by
  obtain ⟨hs, e⟩ := hostCommand_completed h
  rw [e] at h ⊢
  obtain ⟨hp, hle, u, hx, e'⟩ := processBody_completed h
  obtain ⟨bs, hbs, hcrc⟩ := processBuffer_done hx hle
  rw [e']
  exact ⟨hs, hp, bs, hbs, hcrc⟩

end Sys2Proof.Machine
end

section
/-! PROOFS. The session invariant (spec/10_state.md R13): what each step does to the true CRC of an open session. -/

namespace Sys2Proof.Machine

/-! ## Operations -/

/-- START leaves `TRUE = seed` (R101). -/
theorem trueCrc_start {seed : Word} {s t : State} (h : exec (.start seed) s = .next t) (ht : t.fault = 0) :
    trueCrc t = seed := by
  obtain rfl := Host.Outcome.next.inj h
  obtain ⟨-, e⟩ := hostCommand_completed ht
  rw [e]
  exact xor_xor_cancel_left Config.C0 seed

/-- FINISH that leaves no fault closes the session (R110). -/
theorem finish_closes {s t : State} (h : exec .finish s = .next t) (ht : t.fault = 0) :
    t.phase = .CLOSED := by
  obtain rfl := Host.Outcome.next.inj h
  obtain ⟨-, e⟩ := hostCommand_completed ht
  rw [e] at ht ⊢
  unfold finishBody at ht ⊢
  split
  · exact ‹_›
  · rfl

/-- An operation that is no START, no PROCESS and no FINISH, and no bare request that writes `REG`, extends the true
CRC by the bytes it folds (R96, R98) and leaves `PHASE` and `FAULT`. -/
theorem trueCrc_microOp {i : Instr} {s t : State} (h : exec i s = .next t)
    (hne : i.mnemonic ≠ .engReset ∧ i.mnemonic ≠ .engWrite) (hstart : i.mnemonic ≠ .start)
    (hprocess : i.mnemonic ≠ .process) (hfinish : i ≠ .finish) :
    t.phase = s.phase ∧ t.fault = s.fault ∧ trueCrc t = crcBytes (trueCrc s) (foldedBytes i) := by
  have fold (d : SubWord) (hi : i = foldInstr d) :
      t.phase = s.phase ∧ t.fault = s.fault ∧ trueCrc t = crcBytes (trueCrc s) (subWordBytes d) := by
    have ht : foldSubWord d s = t := by
      subst hi
      cases d <;> exact Host.Outcome.next.inj h
    rw [← ht]
    exact ⟨foldSubWord_phase d s, foldSubWord_fault d s, trueCrc_foldSubWord d s⟩
  cases i with
  | engReset => exact absurd rfl hne.1
  | engWrite w => exact absurd rfl hne.2
  | engRead =>
    obtain rfl := Host.Outcome.next.inj h
    exact ⟨rfl, rfl, rfl⟩
  | fold0 => exact fold .zero rfl
  | fold1 d0 => exact fold (.one d0) rfl
  | fold2 d0 d1 => exact fold (.two d0 d1) rfl
  | fold3 d0 d1 d2 => exact fold (.three d0 d1 d2) rfl
  | word w =>
    obtain rfl := Host.Outcome.next.inj h
    exact ⟨rfl, rfl, trueCrc_foldWord w s⟩
  | start seed => exact absurd rfl hstart
  | process addr len => exact absurd rfl hprocess
  | finish => exact absurd rfl hfinish

/-! ## Inputs -/

/-- A step that has a next state on a port word that decodes has run its operation. -/
theorem exec_of_step_port {s t : State} {p : PortWord} {i : Instr} {rest : List Input}
    (hin : s.inputs = .port p :: rest) (hd : decode p = .ok i) (h : step s = .next t) :
    exec i { s with inputs := rest } = .next t := by
  have hf := fetch_of_inputs hin
  rw [← step_of_fetch_run (hf.trans (fetchInput_port_of_decode _ hd ?_)), h]
  rintro r rfl
  rcases fetchEngine_cases r { s with inputs := rest } with ⟨-, -, hw, -⟩ | ⟨-, -, -, hx⟩ | ⟨-, -, hx⟩
  · exact hw
  · exact nomatch (step_of_fetch_settled (hf.trans hx)).symm.trans h
  · exact nomatch (step_of_fetch_settled (hf.trans hx)).symm.trans h

/-- An engine request runs no operation that changes `PHASE`. -/
theorem phase_engineRequest {r : BitVec 34} {i : Instr} {s t : State} (hd : decodeEngine r = .ok i)
    (h : exec i s = .next t) : t.phase = s.phase := by
  rcases decodeEngine_ok hd with ⟨-, rfl⟩ | ⟨-, rfl⟩ | ⟨-, rfl⟩ <;>
    obtain rfl := Host.Outcome.next.inj h <;> rfl

/-- Another agent's request never runs in an open session and never opens one (R146). -/
theorem foreign_leaves_closed {s t : State} {r : BitVec 34} {rest : List Input}
    (hin : s.inputs = .foreign r :: rest) (h : step s = .next t) : t.phase = .CLOSED := by
  have hf := fetch_of_inputs hin
  cases hp : s.phase with
  | OPEN =>
    have hx : fetchForeign r { s with inputs := rest } = .settled (.refused (.foreignEngineRequest r)) := if_pos hp
    exact nomatch (step_of_fetch_settled (hf.trans hx)).symm.trans h
  | CLOSED =>
    have hx : fetch s = fetchEngine r { s with inputs := rest } := hf.trans (if_neg (hp ▸ Phase.noConfusion))
    rcases engineStep_of_fetch hx with ⟨i, hd, -, e⟩ | ⟨-, -, -, e⟩ | ⟨-, -, e⟩
    · exact (phase_engineRequest hd (e.symm.trans h)).trans hp
    · exact nomatch e.symm.trans h
    · exact nomatch e.symm.trans h

/-- What comes from elsewhere than the ports and leaves a session open is a change of memory (R142, R148). -/
theorem trueCrc_outside {s t : State} {input : Input} {rest : List Input} (hin : s.inputs = input :: rest)
    (hport : ∀ p, input ≠ .port p) (h : step s = .next t) (hp : t.phase = .OPEN) :
    s.phase = .OPEN ∧ s.fault = t.fault ∧ trueCrc t = trueCrc s := by
  have hf := fetch_of_inputs hin
  cases input with
  | port p => exact absurd rfl (hport p)
  | foreign r => exact nomatch (foreign_leaves_closed hin h).symm.trans hp
  | hardwareReset =>
    obtain rfl := Host.Outcome.next.inj ((step_of_fetch_settled hf).symm.trans h)
    exact nomatch hp
  | resetDuring c n =>
    obtain rfl := Host.Outcome.next.inj ((step_of_fetch_settled hf).symm.trans h)
    exact nomatch hp
  | setByte a v =>
    obtain rfl := Host.Outcome.next.inj ((step_of_fetch_settled hf).symm.trans h)
    exact ⟨hp, rfl, rfl⟩

/-- Settles O56: START sets the ghost values anew, PROCESS adds its buffer, a micro-operation the bytes it folds, and
what comes from elsewhere than the ports nothing. -/
theorem sessionInvariantKept : Obligations.SessionInvariantKept := by
  intro s t seed S input rest hin hne hinv hstep hp hf
  refine ⟨?_, fun hport => ?_⟩
  · rintro p i rfl hd
    have hx := exec_of_step_port hin hd hstep
    refine ⟨?_, ?_, fun hstart hprocess => ?_⟩
    · rintro seed' rfl
      exact trueCrc_start hx hf
    · rintro addr len rfl
      obtain rfl := Host.Outcome.next.inj hx
      obtain ⟨hf', hp', bs, hbs, hcrc⟩ := trueCrc_process hf
      refine ⟨bs, hbs, ?_⟩
      rw [crcBytes_append, ← hinv hp' hf']
      exact hcrc
    · by_cases hfinish : i = .finish
      · subst hfinish
        exact nomatch (finish_closes hx hf).symm.trans hp
      · obtain ⟨hp', hf', hcrc⟩ := trueCrc_microOp hx (hne p i rfl hd) hstart hprocess hfinish
        rw [crcBytes_append, ← hinv (hp'.symm.trans hp) (hf'.symm.trans hf)]
        exact hcrc
  · obtain ⟨hp', hf', hcrc⟩ := trueCrc_outside hin hport hstep hp
    rw [← hinv hp' (hf'.trans hf)]
    exact hcrc

end Sys2Proof.Machine
end

section
/-! PROOFS. Which registers an operation writes (spec/10_state.md R10), START's results (R24) and the state after reset
(R20). -/

namespace Sys2Proof.Machine

/-! ## What each kind of operation leaves -/

/-- An engine request or a micro-operation writes `REG`, `CORR` and the trace only. -/
theorem exec_frame_of_not_hostCommand {i : Instr} {s t : State} (hi : isHostCommand i = false)
    (h : exec i s = .next t) : t = { s with corr := t.corr, reg := t.reg, trace := t.trace } := by
  have fold (d : SubWord) (hd : exec i s = .next (foldSubWord d s)) :
      t = { s with corr := t.corr, reg := t.reg, trace := t.trace } := by
    obtain rfl := Host.Outcome.next.inj (hd.symm.trans h)
    exact foldSubWord_frame d s
  cases i with
  | engReset => rw [← Host.Outcome.next.inj h]; rfl
  | engWrite w => rw [← Host.Outcome.next.inj h]; rfl
  | engRead => rw [← Host.Outcome.next.inj h]; rfl
  | fold0 => exact fold .zero rfl
  | fold1 d0 => exact fold (.one d0) rfl
  | fold2 d0 d1 => exact fold (.two d0 d1) rfl
  | fold3 d0 d1 d2 => exact fold (.three d0 d1 d2) rfl
  | word w => rw [← Host.Outcome.next.inj h]; rfl
  | start seed => exact nomatch hi
  | process addr len => exact nomatch hi
  | finish => exact nomatch hi

/-- START writes `CORR`, `REG`, `PHASE` and the records only (R100). -/
theorem hostCommand_start_frame (seed : Word) (s : State) :
    hostCommand (startBody seed) s =
      { s with
        corr := (hostCommand (startBody seed) s).corr
        reg := (hostCommand (startBody seed) s).reg
        phase := (hostCommand (startBody seed) s).phase
        responses := (hostCommand (startBody seed) s).responses
        trace := (hostCommand (startBody seed) s).trace } := by
  rcases hostCommand_cases (startBody seed) s with ⟨-, e⟩ | ⟨-, e⟩ <;> rw [e] <;> rfl

/-- FINISH writes `PHASE`, `FAULT` and the records only (R110). -/
theorem hostCommand_finish_frame (s : State) :
    hostCommand finishBody s =
      { s with
        phase := (hostCommand finishBody s).phase
        fault := (hostCommand finishBody s).fault
        faultInfo := (hostCommand finishBody s).faultInfo
        responses := (hostCommand finishBody s).responses
        trace := (hostCommand finishBody s).trace } := by
  rcases hostCommand_cases finishBody s with ⟨-, e⟩ | ⟨-, e⟩ <;> rw [e]
  · rfl
  · unfold finishBody
    split <;> rfl

/-- What surrounds a PROCESS stays through its response or its fault entry too, `FAULT` apart (R123). -/
theorem endProcess_keeps {x : Access Unit} {s : State} (h : keepsSurround s (accessState x)) :
    (endProcess x).phase = s.phase ∧ (endProcess x).inputs = s.inputs ∧ (endProcess x).fresh = s.fresh ∧
      (endProcess x).mem = s.mem := by
  obtain ⟨hphase, -, -, hmem, hin, -, hfresh, -⟩ := h
  cases x <;> exact ⟨hphase, hin, hfresh, hmem⟩

/-- PROCESS keeps `PHASE` and memory (R31, R102). -/
theorem hostCommand_process_keeps (addr : Addr) (len : Len) (s : State) :
    (hostCommand (processBody addr len) s).phase = s.phase ∧
      (hostCommand (processBody addr len) s).inputs = s.inputs ∧
      (hostCommand (processBody addr len) s).fresh = s.fresh ∧
      (hostCommand (processBody addr len) s).mem = s.mem := by
  rcases hostCommand_cases (processBody addr len) s with ⟨-, e⟩ | ⟨-, e⟩ <;> rw [e]
  · exact ⟨rfl, rfl, rfl, rfl⟩
  · rcases processBody_cases addr len s with ⟨-, e'⟩ | ⟨-, -, e'⟩ | ⟨-, -, e'⟩ <;> rw [e']
    · exact ⟨rfl, rfl, rfl, rfl⟩
    · exact ⟨rfl, rfl, rfl, rfl⟩
    · exact endProcess_keeps (keepsSurround_processBuffer addr len s)

/-- A host command writes `FAULT` only where none is recorded (R123, R127). -/
theorem hostCommand_writes_fault {body : State → State} {s : State}
    (h : (hostCommand body s).fault ≠ s.fault ∨ (hostCommand body s).faultInfo ≠ s.faultInfo) :
    s.fault = 0 := by
  rcases hostCommand_cases body s with ⟨-, e⟩ | ⟨hs, -⟩
  · rw [e] at h
    exact absurd h (not_or.mpr ⟨not_not.mpr rfl, not_not.mpr rfl⟩)
  · exact hs

/-! ## The writers of each register -/

/-- The writers of `CORR` (R10, R99). -/
theorem corr_writers {i : Instr} {s t : State} (h : exec i s = .next t) (hc : t.corr ≠ s.corr) :
    i.mnemonic ∈ [Mnemonic.start, Mnemonic.fold1, Mnemonic.fold2, Mnemonic.fold3, Mnemonic.word,
      Mnemonic.process] := by
  have kept {u : State} (hu : exec i s = .next u) (e : u.corr = s.corr) : False :=
    hc (Host.Outcome.next.inj (h.symm.trans hu) ▸ e)
  cases i with
  | engReset => exact (kept rfl rfl).elim
  | engWrite w => exact (kept rfl rfl).elim
  | engRead => exact (kept rfl rfl).elim
  | fold0 => exact (kept rfl rfl).elim
  | finish => exact (kept rfl (by rw [hostCommand_finish_frame])).elim
  | _ => simp [Instr.mnemonic]

/-- The writers of `REG` (R10). -/
theorem reg_writers {i : Instr} {s t : State} (h : exec i s = .next t) (hc : t.reg ≠ s.reg) :
    i.mnemonic ∈ [Mnemonic.engReset, Mnemonic.engWrite, Mnemonic.start, Mnemonic.fold1, Mnemonic.fold2,
      Mnemonic.fold3, Mnemonic.word, Mnemonic.process] := by
  have kept {u : State} (hu : exec i s = .next u) (e : u.reg = s.reg) : False :=
    hc (Host.Outcome.next.inj (h.symm.trans hu) ▸ e)
  cases i with
  | engRead => exact (kept rfl rfl).elim
  | fold0 => exact (kept rfl rfl).elim
  | finish => exact (kept rfl (by rw [hostCommand_finish_frame])).elim
  | _ => simp [Instr.mnemonic]

/-- Settles O51, through the frame of each kind of operation. -/
theorem registersWrittenOnlyByTheirWriters : Obligations.RegistersWrittenOnlyByTheirWriters := by
  intro i s t h
  refine ⟨corr_writers h, reg_writers h, ?_⟩
  cases hi : isHostCommand i with
  | false =>
    rw [exec_frame_of_not_hostCommand hi h]
    simp
  | true =>
    cases i with
    | start seed =>
      obtain rfl := Host.Outcome.next.inj h
      rw [hostCommand_start_frame]
      simp [Instr.mnemonic]
    | process addr len =>
      obtain rfl := Host.Outcome.next.inj h
      obtain ⟨hphase, hin, hfresh, hmem⟩ := hostCommand_process_keeps addr len s
      refine ⟨absurd hphase, fun hf => ⟨by simp [Instr.mnemonic], hostCommand_writes_fault hf⟩,
        fun _ => rfl, hin, hfresh, fun a => ?_⟩
      rw [hmem]
    | finish =>
      obtain rfl := Host.Outcome.next.inj h
      refine ⟨fun _ => by decide, fun hf => ⟨by decide, hostCommand_writes_fault hf⟩, ?_⟩
      rw [hostCommand_finish_frame]
      simp
    | _ => exact nomatch hi

/-! ## START and reset -/

/-- Settles O34: with no fault recorded the body of START runs, and the two masks of the seed cancel. -/
theorem startResult : Obligations.StartResult := by
  intro s seed hs
  have hrun : hostCommand (startBody seed) s = startBody seed s := if_neg (not_not.mpr hs)
  exact ⟨congrArg Host.Outcome.next hrun, xor_xor_cancel_left _ seed⟩

/-- Settles O12, by the fields of the state after reset. -/
theorem resetState : Obligations.ResetState :=
  ⟨rfl, rfl, rfl, rfl, lookup_nil⟩

/-- Settles O15: memory, responses and trace are empty, and no fault is recorded. -/
theorem resetMeetsInvariant : Obligations.ResetMeetsInvariant :=
  ⟨⟨.nil, nofun⟩, rfl, nofun, nofun⟩

end Sys2Proof.Machine
end

section
/-! PROOFS. The two read primitives (spec/20_memory.md R33, R34) and the bytes of a readable buffer. -/

namespace Sys2Proof.Machine

/-! ## Readable addresses -/

theorem readable_iff {m : Memory} {a : Nat} :
    Memory.readable m a = true ↔ ∃ b, Memory.lookup m a = some b := Option.isSome_iff_exists

theorem not_readable_iff {m : Memory} {a : Nat} :
    Memory.readable m a = false ↔ Memory.lookup m a = none :=
  Option.isSome_eq_false_iff.trans Option.isNone_iff_eq_none

theorem length_of_bufferBytes {m : Memory} {a n : Nat} {bs : List Byte} (h : bufferBytes m a n = some bs) :
    bs.length = n := by
  induction n generalizing a bs with
  | zero => rw [← Option.some.inj h, List.length_nil]
  | succ n ih =>
    obtain ⟨b, bs', rfl, -, hbs⟩ := bufferBytes_succ h
    rw [List.length_cons, ih hbs]

/-- Every byte of a readable buffer is readable. -/
theorem lookup_of_bufferBytes {m : Memory} {a n j : Nat} {bs : List Byte} (h : bufferBytes m a n = some bs)
    (hj : j < n) : ∃ b, Memory.lookup m (a + j) = some b := by
  induction n generalizing a j bs with
  | zero => omega
  | succ n ih =>
    obtain ⟨b, bs', -, hb, hbs⟩ := bufferBytes_succ h
    cases j with
    | zero => exact ⟨b, hb⟩
    | succ j =>
      rw [Nat.add_comm j 1, ← Nat.add_assoc]
      exact ih hbs (by omega)

/-! ## The word read -/

/-- A word read that stops reports the lowest unreadable of its four addresses (R34). -/
theorem memRead4_stopped {a : Addr} {s t : State} {info : FaultInfo} (h : memRead4 a s = .stopped info t)
    (ha : a.toNat + 4 ≤ 2 ^ 32) :
    ∃ j < 4, (∀ i < j, ∃ b, Memory.lookup s.mem (a.toNat + i) = some b) ∧
      Memory.lookup s.mem (a.toNat + j) = none ∧ info = .busFault (a + BitVec.ofNat 32 j) ∧ t = s := by
  rcases memRead4_cases a s with ⟨b0, b1, b2, b3, -, -, -, -, hx⟩ | ⟨j, hj, hbelow, hnone, hx⟩
  · exact nomatch hx.symm.trans h
  · obtain ⟨rfl, rfl⟩ := Access.stopped.inj (hx.symm.trans h)
    rw [toNat_add_ofNat (by omega)] at hnone
    refine ⟨j, hj, fun i hi => ?_, hnone, rfl, rfl⟩
    obtain ⟨b, hb⟩ := hbelow i hi
    exact ⟨b, lookup_offset hb (by omega)⟩

/-- A word inside a readable buffer is read without a fault. -/
theorem memRead4_readable {a : Addr} {s : State} {b0 b1 b2 b3 : Byte}
    (hbs : bufferBytes s.mem a.toNat 4 = some [b0, b1, b2, b3]) (ha : a.toNat + 4 ≤ 2 ^ 32) :
    memRead4 a s = .done (leWord b0 b1 b2 b3) (record (.memRead4 a (leWord b0 b1 b2 b3)) s) := by
  cases h : memRead4 a s with
  | done w t =>
    obtain ⟨c0, c1, c2, c3, hcs, rfl, rfl⟩ := memRead4_done h ha
    obtain ⟨rfl, rfl, rfl, rfl, -⟩ : b0 = c0 ∧ b1 = c1 ∧ b2 = c2 ∧ b3 = c3 ∧ True := by
      simpa using hbs.symm.trans hcs
    rfl
  | stopped info t =>
    obtain ⟨j, hj, -, hnone, -, -⟩ := memRead4_stopped h ha
    obtain ⟨b, hb⟩ := lookup_of_bufferBytes hbs hj
    exact nomatch hnone.symm.trans hb

/-- A word read stops at the first unreadable of its four addresses (R34). -/
theorem memRead4_unreadable {a : Addr} {s : State} {j : Nat} (hj : j < 4) (ha : a.toNat + 4 ≤ 2 ^ 32)
    (hbelow : ∀ i < j, ∃ b, Memory.lookup s.mem (a.toNat + i) = some b)
    (hnone : Memory.lookup s.mem (a.toNat + j) = none) :
    memRead4 a s = .stopped (.busFault (a + BitVec.ofNat 32 j)) s := by
  cases h : memRead4 a s with
  | done w t =>
    obtain ⟨b0, b1, b2, b3, hbs, -, -⟩ := memRead4_done h ha
    obtain ⟨b, hb⟩ := lookup_of_bufferBytes hbs hj
    exact nomatch hnone.symm.trans hb
  | stopped info t =>
    obtain ⟨k, -, kbelow, knone, rfl, rfl⟩ := memRead4_stopped h ha
    rcases Nat.lt_trichotomy j k with hlt | rfl | hgt
    · obtain ⟨b, hb⟩ := kbelow j hlt
      exact nomatch hnone.symm.trans hb
    · rfl
    · obtain ⟨b, hb⟩ := hbelow k hgt
      exact nomatch knone.symm.trans hb

/-- An aligned word lies in the address space. -/
theorem word_inRange_of_aligned {a : Addr} (ha : a.toNat % 4 = 0) : a.toNat + 4 ≤ 2 ^ 32 := by omega

/-- Settles O22: what each read primitive answers on readable and on unreadable addresses. -/
theorem readPrimitives : Obligations.ReadPrimitives := by
  refine ⟨fun s a b hb => ?_, fun s a hnone => ?_, fun s a b0 b1 b2 b3 ha hbs => ?_,
    fun s a j ha hj hbelow hnone => ?_⟩
  · rw [memRead1, hb]
  · rw [memRead1, hnone]
  · exact ⟨leWord b0 b1 b2 b3, memRead4_readable hbs (word_inRange_of_aligned ha), rfl,
      bswap32_leWord b0 b1 b2 b3⟩
  · exact memRead4_unreadable hj (word_inRange_of_aligned ha) (fun i hi => readable_iff.mp (hbelow i hi))
      (not_readable_iff.mp hnone)

end Sys2Proof.Machine
end

section
/-! PROOFS. The reads of a PROCESS that completes (spec/20_memory.md R36, R37, R44): every byte of the buffer once,
ascending, word reads aligned, each read returning what memory holds. -/

namespace Sys2Proof.Machine

/-! ## Events that read a stretch of memory -/

/-- The reads among `es` are those of the `n` bytes from `a` up, in order, word reads aligned, each returning what `m`
holds. -/
def readsInOrder (m : Memory) (a n : Nat) (es : List Event) : Prop :=
  es.flatMap eventAddresses = List.range' a n ∧ wordReadsAligned es ∧ ∀ e ∈ es, eventReadsMemory m e

theorem readsInOrder_append {m : Memory} {a n k : Nat} {es fs : List Event} (h : readsInOrder m a n es)
    (g : readsInOrder m (a + n) k fs) : readsInOrder m a (n + k) (es ++ fs) := by
  obtain ⟨haddr, halign, hmem⟩ := h
  obtain ⟨gaddr, galign, gmem⟩ := g
  refine ⟨?_, fun p w hw => ?_, fun e he => ?_⟩
  · rw [List.flatMap_append, haddr, gaddr, List.range'_append_1]
  · exact (List.mem_append.mp hw).elim (halign p w) (galign p w)
  · exact (List.mem_append.mp he).elim (hmem e) (gmem e)

/-- Engine requests read nothing. -/
theorem readsInOrder_engine {es : List Event} (m : Memory) (a : Nat) (h : ∀ e ∈ es, isEngineEvent e = true) :
    readsInOrder m a 0 es := by
  refine ⟨List.flatMap_eq_nil_iff.mpr fun e he => ?_, fun p w hw => (nomatch h _ hw), fun e he => ?_⟩
  all_goals
    have hport := h e he
    cases e with
    | memRead1 p b => exact nomatch hport
    | memRead4 p w => exact nomatch hport
    | _ => trivial

theorem readsInOrder_memRead1 {m : Memory} {p : Addr} {b : Byte} (hb : Memory.lookup m p.toNat = some b) :
    readsInOrder m p.toNat 1 [.memRead1 p b] := by
  refine ⟨rfl, fun q w hw => ?_, fun e he => ?_⟩
  · exact nomatch List.mem_singleton.mp hw
  · rw [List.mem_singleton.mp he]
    exact hb

theorem readsInOrder_memRead4 {m : Memory} {p : Addr} {b0 b1 b2 b3 : Byte} (hp : p.toNat % 4 = 0)
    (hbs : bufferBytes m p.toNat 4 = some [b0, b1, b2, b3]) :
    readsInOrder m p.toNat 4 [.memRead4 p (leWord b0 b1 b2 b3)] := by
  refine ⟨rfl, fun q w hw => ?_, fun e he => ?_⟩
  · obtain ⟨rfl, -⟩ := Event.memRead4.inj (List.mem_singleton.mp hw)
    exact hp
  · rw [List.mem_singleton.mp he]
    exact ⟨b0, b1, b2, b3, rfl, hbs⟩

/-! ## Parts of a PROCESS that read -/

/-- `t` is after a part of a PROCESS that started in `s` and read the `n` bytes from `a` up. -/
def readsFrom (a n : Nat) (s t : State) : Prop :=
  t.mem = s.mem ∧ ∃ es, t.trace = s.trace ++ es ∧ readsInOrder s.mem a n es

theorem readsFrom_engine {s t : State} {es : List Event} (a : Nat) (hmem : t.mem = s.mem)
    (htrace : t.trace = s.trace ++ es) (hes : ∀ e ∈ es, isEngineEvent e = true) : readsFrom a 0 s t :=
  ⟨hmem, es, htrace, readsInOrder_engine s.mem a hes⟩

theorem readsFrom_refl (a : Nat) (s : State) : readsFrom a 0 s s :=
  readsFrom_engine a rfl (List.append_nil _).symm nofun

theorem readsFrom_trans {a n k : Nat} {s t u : State} (h : readsFrom a n s t)
    (g : readsFrom (a + n) k t u) : readsFrom a (n + k) s u := by
  obtain ⟨hmem, es, htrace, hes⟩ := h
  obtain ⟨gmem, fs, gtrace, hfs⟩ := g
  refine ⟨gmem.trans hmem, es ++ fs, ?_, readsInOrder_append hes (hmem ▸ hfs)⟩
  rw [gtrace, htrace, List.append_assoc]

/-- The next part starts at an offset that does not wrap, or reads nothing. -/
theorem readsFrom_offset {p : Addr} {n k : Nat} {s t : State} (hle : p.toNat + n + k ≤ 2 ^ 32)
    (h : readsFrom (p + BitVec.ofNat 32 n).toNat k s t) : readsFrom (p.toNat + n) k s t := by
  cases k with
  | zero => exact h
  | succ k => rwa [toNat_add_ofNat (by omega)] at h

theorem readsFrom_memRead1 {p : Addr} {s t : State} {b : Byte} (h : memRead1 p s = .done b t) :
    readsFrom p.toNat 1 s t := by
  obtain ⟨hb, rfl⟩ := memRead1_done h
  exact ⟨rfl, _, rfl, readsInOrder_memRead1 hb⟩

theorem readsFrom_memRead4 {p : Addr} {s t : State} {w : Word} (h : memRead4 p s = .done w t)
    (hp : p.toNat % 4 = 0) : readsFrom p.toNat 4 s t := by
  obtain ⟨b0, b1, b2, b3, hbs, rfl, rfl⟩ := memRead4_done h (word_inRange_of_aligned hp)
  exact ⟨rfl, _, rfl, readsInOrder_memRead4 hp hbs⟩

theorem readsFrom_foldSubWord (a : Nat) (d : SubWord) (s : State) : readsFrom a 0 s (foldSubWord d s) := by
  rw [foldSubWord_eq]
  split
  · exact readsFrom_refl a s
  · rw [foldBytes_eq]
    exact readsFrom_engine a rfl (List.append_assoc _ _ _) (by simp [isEngineEvent])

theorem readsFrom_foldWord (a : Nat) (w : Word) (s : State) : readsFrom a 0 s (foldWord w s) :=
  readsFrom_engine a rfl (foldWord_trace w s) (by simp [isEngineEvent])

theorem readsFrom_advance (a n : Nat) (s : State) : readsFrom a 0 s (advance n s) :=
  readsFrom_engine a rfl (List.append_nil _).symm nofun

/-- A remainder reads its bytes one by one from the cursor up (R107). -/
theorem readsFrom_readSubWord {k : Fin 4} {s t : State} {d : SubWord} (h : readSubWord k s = .done d t)
    (hk : s.ptr.toNat + k.val ≤ 2 ^ 32) : readsFrom s.ptr.toNat k.val s t := by
  match k with
  | 0 =>
    obtain ⟨-, rfl⟩ := Access.done.inj h
    exact readsFrom_refl _ s
  | 1 =>
    obtain ⟨d0, s1, h0, h⟩ := andThen_done h
    obtain ⟨-, rfl⟩ := Access.done.inj h
    exact readsFrom_memRead1 h0
  | 2 =>
    obtain ⟨d0, s1, h0, h⟩ := andThen_done h
    obtain ⟨d1, s2, h1, h⟩ := andThen_done h
    obtain ⟨-, rfl⟩ := Access.done.inj h
    exact readsFrom_trans (readsFrom_memRead1 h0) (readsFrom_offset hk (readsFrom_memRead1 h1))
  | 3 =>
    obtain ⟨d0, s1, h0, h⟩ := andThen_done h
    obtain ⟨d1, s2, h1, h⟩ := andThen_done h
    obtain ⟨d2, s3, h2, h⟩ := andThen_done h
    obtain ⟨-, rfl⟩ := Access.done.inj h
    have second := readsFrom_offset (Nat.le_of_succ_le hk) (readsFrom_memRead1 h1)
    exact readsFrom_trans (readsFrom_trans (readsFrom_memRead1 h0) second)
      (readsFrom_offset hk (readsFrom_memRead1 h2))

theorem readsFrom_processRemainder {k : Fin 4} {s t : State} (h : processRemainder k s = .done () t)
    (hk : s.ptr.toNat + k.val ≤ 2 ^ 32) : readsFrom s.ptr.toNat k.val s t := by
  unfold processRemainder at h
  split at h
  · rename_i h0
    obtain ⟨-, rfl⟩ := Access.done.inj h
    rw [h0]
    exact readsFrom_refl _ s
  · obtain ⟨d, s1, hread, h⟩ := andThen_done h
    obtain ⟨-, rfl⟩ := Access.done.inj h
    exact readsFrom_trans (readsFrom_readSubWord hread hk)
      (readsFrom_trans (readsFrom_foldSubWord _ d s1) (readsFrom_advance _ _ _))

/-- A word run from an aligned cursor reads its words one by one (R36, R105). -/
theorem readsFrom_processWords {n : Nat} {s t : State} (h : processWords n s = .done () t)
    (hle : s.ptr.toNat + 4 * n ≤ 2 ^ 32) (halign : n ≠ 0 → s.ptr.toNat % 4 = 0) :
    readsFrom s.ptr.toNat (4 * n) s t := by
  induction n generalizing s with
  | zero =>
    obtain ⟨-, rfl⟩ := Access.done.inj h
    exact readsFrom_refl _ s
  | succ n ih =>
    obtain ⟨w, s1, hread, h⟩ := andThen_done h
    have hp := halign (Nat.succ_ne_zero n)
    have hfold := foldsAtCursor_word hread (word_inRange_of_aligned hp)
    have word := readsFrom_trans (readsFrom_memRead4 hread hp)
      (readsFrom_trans (readsFrom_foldWord _ (bswap32 w) s1) (readsFrom_advance _ 4 _))
    have hroom := foldsAtCursor_room (k := 4 * n) hfold (by omega)
    obtain ⟨-, hptr, -⟩ := hfold
    have hnext : n ≠ 0 → (s.ptr + BitVec.ofNat 32 4).toNat % 4 = 0 := fun hn => by
      rw [toNat_add_ofNat (by omega)]
      omega
    have rest := ih h hroom (by rwa [hptr])
    rw [hptr] at rest
    have hall := readsFrom_trans word (readsFrom_offset (by omega) rest)
    rwa [Nat.mul_succ, Nat.add_comm]

/-- Behind the lead the word run starts aligned (R104). -/
theorem splitBuffer_aligned (addr : Addr) (len : Len) (h : (splitBuffer addr len).words ≠ 0) :
    (addr.toNat + (splitBuffer addr len).lead.val) % 4 = 0 := by
  have hlead : (splitBuffer addr len).lead.val = leadBytes addr len % 4 := rfl
  have hwords : (splitBuffer addr len).words = (len.toNat - leadBytes addr len) / 4 := rfl
  rw [hwords] at h
  rw [hlead]
  unfold leadBytes at *
  omega

/-- Behind its lead a PROCESS stands at the word run, which has room (R104, R105). -/
theorem processBuffer_afterLead {addr : Addr} {len : Len} {s s1 : State}
    (hlead : processRemainder (splitBuffer addr len).lead { s with ptr := addr, cnt := len } = .done () s1)
    (hle : addr.toNat + len.toNat ≤ 2 ^ 32) :
    s1.mem = s.mem ∧ s1.ptr = addr + BitVec.ofNat 32 (splitBuffer addr len).lead.val ∧
      s1.ptr.toNat + 4 * (splitBuffer addr len).words ≤ 2 ^ 32 := by
  have hsum := splitBuffer_sum addr len
  have lead := processRemainder_done hlead (by dsimp only; omega)
  have hroom := foldsAtCursor_room (k := 4 * (splitBuffer addr len).words) lead (by dsimp only; omega)
  obtain ⟨hmem, hptr, -⟩ := lead
  exact ⟨hmem, hptr, hroom⟩

/-- Behind its word run a PROCESS stands at the tail, which has room (R106). -/
theorem processBuffer_afterWords {addr : Addr} {len : Len} {s s1 s2 : State}
    (hlead : processRemainder (splitBuffer addr len).lead { s with ptr := addr, cnt := len } = .done () s1)
    (hwords : processWords (splitBuffer addr len).words s1 = .done () s2)
    (hle : addr.toNat + len.toNat ≤ 2 ^ 32) :
    s2.mem = s.mem ∧
      s2.ptr = addr + BitVec.ofNat 32 ((splitBuffer addr len).lead.val + 4 * (splitBuffer addr len).words) ∧
      s2.ptr.toNat + (splitBuffer addr len).tail.val ≤ 2 ^ 32 := by
  have hsum := splitBuffer_sum addr len
  obtain ⟨-, -, wordsRoom⟩ := processBuffer_afterLead hlead hle
  have front := foldsAtCursor_trans (processRemainder_done hlead (by dsimp only; omega))
    (processWords_done hwords wordsRoom) (by dsimp only; omega)
  have hroom := foldsAtCursor_room (k := (splitBuffer addr len).tail.val) front (by dsimp only; omega)
  obtain ⟨hmem, hptr, -⟩ := front
  exact ⟨hmem, hptr, hroom⟩

/-- The three steps of a PROCESS that complete read the whole buffer (R37). -/
theorem readsFrom_processBuffer {addr : Addr} {len : Len} {s t : State}
    (h : processBuffer addr len s = .done () t) (hle : addr.toNat + len.toNat ≤ 2 ^ 32) :
    readsFrom addr.toNat len.toNat s t := by
  have hsum := splitBuffer_sum addr len
  obtain ⟨⟨⟩, s1, hlead, h⟩ := andThen_done h
  obtain ⟨⟨⟩, s2, hwords, htail⟩ := andThen_done h
  obtain ⟨-, hptr1, wordsRoom⟩ := processBuffer_afterLead hlead hle
  obtain ⟨-, hptr2, tailRoom⟩ := processBuffer_afterWords hlead hwords hle
  have lead : readsFrom addr.toNat (splitBuffer addr len).lead.val s s1 :=
    readsFrom_processRemainder hlead (by dsimp only; omega)
  have words := readsFrom_processWords hwords wordsRoom fun hw => by
    rw [hptr1, toNat_add_ofNat (by omega)]
    exact splitBuffer_aligned addr len hw
  have tail := readsFrom_processRemainder htail tailRoom
  rw [hptr1] at words
  rw [hptr2] at tail
  have front := readsFrom_trans lead (readsFrom_offset (by omega) words)
  have whole := readsFrom_trans front (readsFrom_offset (by omega) tail)
  rwa [← hsum] at whole

/-! ## The bytes the reads returned -/

/-- A word read returned its four bytes in stream order (R34). -/
theorem eventBytes_memRead4 (p : Addr) (b0 b1 b2 b3 : Byte) :
    eventBytes (.memRead4 p (leWord b0 b1 b2 b3)) = [b0, b1, b2, b3] := by
  obtain ⟨h3, h2, h1, h0⟩ := byteAt_bytes b3 b2 b1 b0
  exact congrArg₂ List.cons h0 (congrArg₂ List.cons h1 (congrArg₂ List.cons h2 (congrArg₂ List.cons h3 rfl)))

/-- An event that agrees with memory returned the bytes at its addresses. -/
theorem bufferBytes_event {m : Memory} {e : Event} {a n : Nat} (he : eventReadsMemory m e)
    (haddr : eventAddresses e = List.range' a n) : bufferBytes m a n = some (eventBytes e) := by
  have hn : (eventAddresses e).length = n := by rw [haddr, List.length_range']
  cases e with
  | memRead1 p b =>
    obtain rfl : 1 = n := hn
    obtain rfl : p.toNat = a := (List.cons.inj haddr).1
    exact bufferBytes_one he
  | memRead4 p w =>
    obtain rfl : 4 = n := hn
    obtain rfl : p.toNat = a := (List.cons.inj haddr).1
    obtain ⟨b0, b1, b2, b3, rfl, hbs⟩ := he
    rw [eventBytes_memRead4, hbs]
  | _ =>
    obtain rfl : 0 = n := hn
    rfl

/-- Reads in order of a stretch of memory returned the bytes it holds. -/
theorem bufferBytes_of_readsInOrder {m : Memory} {a n : Nat} {es : List Event} (h : readsInOrder m a n es) :
    bufferBytes m a n = some (es.flatMap eventBytes) := by
  obtain ⟨haddr, -, hmem⟩ := h
  induction es generalizing a n with
  | nil =>
    obtain rfl : n = 0 := List.range'_eq_nil_iff.mp haddr.symm
    rfl
  | cons e es ih =>
    obtain ⟨k, hk, hhead, htail⟩ := List.range'_eq_append_iff.mp haddr.symm
    obtain ⟨he, hes⟩ := List.forall_mem_cons.mp hmem
    rw [Nat.mul_one] at htail
    have hall := bufferBytes_append (bufferBytes_event he hhead) (ih htail hes)
    rwa [Nat.add_sub_cancel' hk] at hall

/-! ## A PROCESS that stops -/

/-- One of the `n` addresses from `a` up is unreadable. -/
def unreadableIn (m : Memory) (a n : Nat) : Prop := ∃ j < n, Memory.lookup m (a + j) = none

theorem unreadableIn_left {m : Memory} {a n : Nat} (k : Nat) (h : unreadableIn m a n) :
    unreadableIn m a (n + k) := by
  obtain ⟨j, hj, hnone⟩ := h
  exact ⟨j, by omega, hnone⟩

theorem unreadableIn_offset {m : Memory} {p : Addr} {n k : Nat} (hle : p.toNat + n + k ≤ 2 ^ 32)
    (h : unreadableIn m (p + BitVec.ofNat 32 n).toNat k) : unreadableIn m p.toNat (n + k) := by
  obtain ⟨j, hj, hnone⟩ := h
  rw [toNat_add_ofNat (by omega), Nat.add_assoc] at hnone
  exact ⟨n + j, by omega, hnone⟩

theorem not_unreadableIn {m : Memory} {a n : Nat} {bs : List Byte} (h : bufferBytes m a n = some bs) :
    ¬ unreadableIn m a n := by
  rintro ⟨j, hj, hnone⟩
  obtain ⟨b, hb⟩ := lookup_of_bufferBytes h hj
  exact nomatch hnone.symm.trans hb

/-- A sequence that stops does so in its first part, or in its second after a first that completes. -/
theorem andThen_stopped {α β : Type} {x : Access α} {f : α → State → Access β} {info : FaultInfo} {u : State}
    (h : andThen x f = .stopped info u) :
    x = .stopped info u ∨ ∃ a t, x = .done a t ∧ f a t = .stopped info u := by
  cases x with
  | done a t => exact .inr ⟨a, t, rfl, h⟩
  | stopped info' t =>
    obtain ⟨rfl, rfl⟩ := Access.stopped.inj h
    exact .inl rfl

theorem memRead1_stopped {a : Addr} {s t : State} {info : FaultInfo} (h : memRead1 a s = .stopped info t) :
    unreadableIn s.mem a.toNat 1 := by
  rcases memRead1_cases a s with ⟨b, -, hx⟩ | ⟨hnone, -⟩
  · exact nomatch hx.symm.trans h
  · exact ⟨0, Nat.one_pos, hnone⟩

theorem readSubWord_stopped {k : Fin 4} {s t : State} {info : FaultInfo}
    (h : readSubWord k s = .stopped info t) (hk : s.ptr.toNat + k.val ≤ 2 ^ 32) :
    unreadableIn s.mem s.ptr.toNat k.val := by
  match k with
  | 0 => exact nomatch h
  | 1 =>
    rcases andThen_stopped h with h0 | ⟨d0, s1, -, h⟩
    · exact memRead1_stopped h0
    · exact nomatch h
  | 2 =>
    rcases andThen_stopped h with h0 | ⟨d0, s1, h0, h⟩
    · exact unreadableIn_left 1 (memRead1_stopped h0)
    obtain ⟨-, rfl⟩ := memRead1_done h0
    rcases andThen_stopped h with h1 | ⟨d1, s2, -, h⟩
    · exact unreadableIn_offset hk (memRead1_stopped h1)
    · exact nomatch h
  | 3 =>
    rcases andThen_stopped h with h0 | ⟨d0, s1, h0, h⟩
    · exact unreadableIn_left 2 (memRead1_stopped h0)
    obtain ⟨-, rfl⟩ := memRead1_done h0
    rcases andThen_stopped h with h1 | ⟨d1, s2, h1, h⟩
    · exact unreadableIn_left 1 (unreadableIn_offset (Nat.le_of_succ_le hk) (memRead1_stopped h1))
    obtain ⟨-, rfl⟩ := memRead1_done h1
    rcases andThen_stopped h with h2 | ⟨d2, s3, -, h⟩
    · exact unreadableIn_offset hk (memRead1_stopped h2)
    · exact nomatch h

theorem processRemainder_stopped {k : Fin 4} {s t : State} {info : FaultInfo}
    (h : processRemainder k s = .stopped info t) (hk : s.ptr.toNat + k.val ≤ 2 ^ 32) :
    unreadableIn s.mem s.ptr.toNat k.val := by
  unfold processRemainder at h
  split at h
  · exact nomatch h
  · rcases andThen_stopped h with hread | ⟨d, s1, -, h⟩
    · exact readSubWord_stopped hread hk
    · exact nomatch h

theorem processWords_stopped {n : Nat} {s t : State} {info : FaultInfo}
    (h : processWords n s = .stopped info t) (hle : s.ptr.toNat + 4 * n ≤ 2 ^ 32) :
    unreadableIn s.mem s.ptr.toNat (4 * n) := by
  induction n generalizing s with
  | zero => exact nomatch h
  | succ n ih =>
    rw [Nat.mul_succ, Nat.add_comm]
    rcases andThen_stopped h with hread | ⟨w, s1, hread, h⟩
    · obtain ⟨j, hj, -, hnone, -, -⟩ := memRead4_stopped hread (by omega)
      exact unreadableIn_left _ ⟨j, hj, hnone⟩
    · have word := foldsAtCursor_word hread (by omega)
      have hrest := ih h (foldsAtCursor_room word (by omega))
      obtain ⟨hmem, hptr, -⟩ := word
      rw [hmem, hptr] at hrest
      exact unreadableIn_offset (by omega) hrest

/-- The three steps of a PROCESS stop only at an unreadable byte of the buffer (R125). -/
theorem processBuffer_stopped {addr : Addr} {len : Len} {s t : State} {info : FaultInfo}
    (h : processBuffer addr len s = .stopped info t) (hle : addr.toNat + len.toNat ≤ 2 ^ 32) :
    unreadableIn s.mem addr.toNat len.toNat := by
  have hsum := splitBuffer_sum addr len
  rw [hsum]
  rcases andThen_stopped h with hlead | ⟨⟨⟩, s1, hlead, h⟩
  · exact unreadableIn_left _ (unreadableIn_left _ (processRemainder_stopped hlead (by dsimp only; omega)))
  obtain ⟨hmem1, hptr1, wordsRoom⟩ := processBuffer_afterLead hlead hle
  rcases andThen_stopped h with hwords | ⟨⟨⟩, s2, hwords, htail⟩
  · have hwordRun := processWords_stopped hwords wordsRoom
    rw [hmem1, hptr1] at hwordRun
    exact unreadableIn_left _ (unreadableIn_offset (by omega) hwordRun)
  obtain ⟨hmem2, hptr2, tailRoom⟩ := processBuffer_afterWords hlead hwords hle
  have htailRun := processRemainder_stopped htail tailRoom
  rw [hmem2, hptr2] at htailRun
  exact unreadableIn_offset (by omega) htailRun

/-! ## A PROCESS that completes -/

/-- In an open session a PROCESS over a readable buffer completes (R102). -/
theorem process_completes {addr : Addr} {len : Len} {s : State} {bs : List Byte} (hs : s.fault = 0)
    (hp : s.phase = .OPEN) (hbs : bufferHolds s.mem addr len bs) :
    ∃ u, processBuffer addr len s = .done () u ∧ exec (.process addr len) s = .next (respond 0 0 u) := by
  obtain ⟨hle, hbytes⟩ := hbs
  cases hx : processBuffer addr len s with
  | stopped info u => exact absurd (processBuffer_stopped hx hle) (not_unreadableIn hbytes)
  | done a u =>
    refine ⟨u, rfl, congrArg Host.Outcome.next ?_⟩
    rcases processBody_cases addr len s with ⟨hc, -⟩ | ⟨-, hr, -⟩ | ⟨-, -, e⟩
    · exact nomatch hp.symm.trans hc
    · exact absurd hle (Nat.not_le_of_lt hr)
    · calc hostCommand (processBody addr len) s = processBody addr len s := if_neg (not_not.mpr hs)
        _ = respond 0 0 u := by rw [e, hx, endProcess]

/-- Settles O42: the PROCESS completes, and its three steps read the buffer in order. -/
theorem processReadsBufferOnce : Obligations.ProcessReadsBufferOnce := by
  intro s addr len bs hs hp hbs
  obtain ⟨u, hx, hexec⟩ := process_completes hs hp hbs
  obtain ⟨hle, -⟩ := hbs
  obtain ⟨-, es, htrace, hes⟩ := readsFrom_processBuffer hx hle
  exact ⟨respond 0 0 u, es, hexec, htrace, hes⟩

/-- Settles O44: the bytes folded are those of the buffer, and the reads returned exactly these. -/
theorem processFoldsTheBytesItsReadsReturned : Obligations.ProcessFoldsTheBytesItsReadsReturned := by
  intro s t addr len hs hexec ht
  obtain rfl := Host.Outcome.next.inj hexec
  obtain ⟨-, hrun⟩ := hostCommand_completed ht
  rw [hrun] at ht ⊢
  obtain ⟨-, hle, u, hx, hdone⟩ := processBody_completed ht
  obtain ⟨-, es, htrace, hes⟩ := readsFrom_processBuffer hx hle
  obtain ⟨bs, ⟨-, hbs⟩, hcrc⟩ := processBuffer_done hx hle
  have hread := bufferBytes_of_readsInOrder hes
  obtain rfl : bs = es.flatMap eventBytes := Option.some.inj (hbs.symm.trans hread)
  rw [hdone]
  exact ⟨es, htrace, length_of_bufferBytes hread, hcrc⟩

end Sys2Proof.Machine
end

section
/-! PROOFS. A PROCESS reads no memory outside its buffer (spec/20_memory.md R32, R37): over another memory that agrees
there it does the same, completed or stopped. -/

namespace Sys2Proof.Machine

/-! ## Memories that agree on a stretch -/

/-- Two memories agree on the `n` addresses from `a` up. -/
def agreesOn (m m' : Memory) (a n : Nat) : Prop :=
  ∀ x, a ≤ x → x < a + n → Memory.lookup m x = Memory.lookup m' x

theorem agreesOn_left {m m' : Memory} {a n k : Nat} (h : agreesOn m m' a (n + k)) : agreesOn m m' a n :=
  fun x hx hlt => h x hx (by omega)

theorem agreesOn_offset {m m' : Memory} {p : Addr} {n k : Nat} (hle : p.toNat + n + k ≤ 2 ^ 32)
    (h : agreesOn m m' p.toNat (n + k)) : agreesOn m m' (p + BitVec.ofNat 32 n).toNat k := by
  intro x hx hlt
  rw [toNat_add_ofNat (by omega)] at hx hlt
  exact h x (by omega) (by omega)

theorem bufferBytes_of_agreesOn {m m' : Memory} {a n : Nat} (h : agreesOn m m' a n) :
    bufferBytes m a n = bufferBytes m' a n := by
  induction n generalizing a with
  | zero => rfl
  | succ n ih =>
    rw [bufferBytes, bufferBytes, h a le_rfl (by omega), ih fun x hx hlt => h x (by omega) (by omega)]

/-! ## The same access over another memory -/

/-- What an access ends in, with another memory in the state. -/
def replaceMemory {α : Type} (m : Memory) : Access α → Access α
  | .done a s => .done a { s with mem := m }
  | .stopped info s => .stopped info { s with mem := m }

/-- A sequence does the same over another memory when both its parts do. -/
theorem andThen_replaceMemory {α β : Type} {m : Memory} {x y : Access α} {f g : α → State → Access β}
    (hx : y = replaceMemory m x)
    (hf : ∀ a t, x = .done a t → g a { t with mem := m } = replaceMemory m (f a t)) :
    andThen y g = replaceMemory m (andThen x f) := by
  rw [hx]
  cases x with
  | done a t => exact hf a t rfl
  | stopped info t => rfl

theorem foldSubWord_replaceMemory (m : Memory) (d : SubWord) (s : State) :
    foldSubWord d { s with mem := m } = { foldSubWord d s with mem := m } := by
  cases d <;> rfl

theorem memRead1_replaceMemory {m : Memory} {a : Addr} {s : State} (h : agreesOn m s.mem a.toNat 1) :
    memRead1 a { s with mem := m } = replaceMemory m (memRead1 a s) := by
  have hbyte := h a.toNat le_rfl (Nat.lt_succ_self _)
  unfold memRead1
  dsimp only
  rw [hbyte]
  cases Memory.lookup s.mem a.toNat <;> rfl

theorem memRead4_replaceMemory {m : Memory} {a : Addr} {s : State} (ha : a.toNat + 4 ≤ 2 ^ 32)
    (h : agreesOn m s.mem a.toNat 4) :
    memRead4 a { s with mem := m } = replaceMemory m (memRead4 a s) := by
  cases hx : memRead4 a s with
  | done w t =>
    obtain ⟨b0, b1, b2, b3, hbs, rfl, rfl⟩ := memRead4_done hx ha
    exact memRead4_readable (s := { s with mem := m }) ((bufferBytes_of_agreesOn h).trans hbs) ha
  | stopped info t =>
    obtain ⟨j, hj, hbelow, hnone, rfl, rfl⟩ := memRead4_stopped hx ha
    refine memRead4_unreadable hj ha (fun i hi => ?_) ((h _ (by omega) (by omega)).trans hnone)
    obtain ⟨b, hb⟩ := hbelow i hi
    exact ⟨b, (h _ (by omega) (by omega)).trans hb⟩

theorem readSubWord_replaceMemory {m : Memory} {k : Fin 4} {s : State} (hk : s.ptr.toNat + k.val ≤ 2 ^ 32)
    (h : agreesOn m s.mem s.ptr.toNat k.val) :
    readSubWord k { s with mem := m } = replaceMemory m (readSubWord k s) := by
  match k with
  | 0 => rfl
  | 1 => exact andThen_replaceMemory (memRead1_replaceMemory h) fun d0 s1 _ => rfl
  | 2 =>
    have first : agreesOn m s.mem s.ptr.toNat 1 := agreesOn_left (k := 1) h
    refine andThen_replaceMemory (memRead1_replaceMemory first) fun d0 s1 h0 => ?_
    obtain ⟨-, rfl⟩ := memRead1_done h0
    exact andThen_replaceMemory (memRead1_replaceMemory (agreesOn_offset hk h)) fun d1 s2 _ => rfl
  | 3 =>
    have two : agreesOn m s.mem s.ptr.toNat 2 := agreesOn_left (k := 1) h
    have first : agreesOn m s.mem s.ptr.toNat 1 := agreesOn_left (k := 1) two
    refine andThen_replaceMemory (memRead1_replaceMemory first) fun d0 s1 h0 => ?_
    obtain ⟨-, rfl⟩ := memRead1_done h0
    refine andThen_replaceMemory
      (memRead1_replaceMemory (agreesOn_offset (Nat.le_of_succ_le hk) two)) fun d1 s2 h1 => ?_
    obtain ⟨-, rfl⟩ := memRead1_done h1
    exact andThen_replaceMemory (memRead1_replaceMemory (agreesOn_offset hk h)) fun d2 s3 _ => rfl

theorem processRemainder_replaceMemory {m : Memory} {k : Fin 4} {s : State}
    (hk : s.ptr.toNat + k.val ≤ 2 ^ 32) (h : agreesOn m s.mem s.ptr.toNat k.val) :
    processRemainder k { s with mem := m } = replaceMemory m (processRemainder k s) := by
  unfold processRemainder
  split
  · rfl
  · refine andThen_replaceMemory (readSubWord_replaceMemory hk h) fun d s1 _ => ?_
    rw [foldSubWord_replaceMemory]
    rfl

theorem processWords_replaceMemory {m : Memory} {n : Nat} {s : State} (hle : s.ptr.toNat + 4 * n ≤ 2 ^ 32)
    (h : agreesOn m s.mem s.ptr.toNat (4 * n)) :
    processWords n { s with mem := m } = replaceMemory m (processWords n s) := by
  induction n generalizing s with
  | zero => rfl
  | succ n ih =>
    rw [Nat.mul_succ, Nat.add_comm] at h
    have hread := memRead4_replaceMemory (by omega) (agreesOn_left h)
    refine andThen_replaceMemory hread fun w s1 hread => ?_
    have word := foldsAtCursor_word hread (by omega)
    have hroom := foldsAtCursor_room (k := 4 * n) word (by omega)
    obtain ⟨hmem, hptr, -⟩ := word
    refine ih hroom ?_
    rw [hmem, hptr]
    exact agreesOn_offset (by omega) h

theorem processBuffer_replaceMemory {m : Memory} {addr : Addr} {len : Len} {s : State}
    (hle : addr.toNat + len.toNat ≤ 2 ^ 32) (h : agreesOn m s.mem addr.toNat len.toNat) :
    processBuffer addr len { s with mem := m } = replaceMemory m (processBuffer addr len s) := by
  have hsum := splitBuffer_sum addr len
  rw [hsum] at h
  have hfront := agreesOn_left h
  have hlead := processRemainder_replaceMemory (s := { s with ptr := addr, cnt := len })
    (by dsimp only; omega) (agreesOn_left hfront)
  refine andThen_replaceMemory hlead fun _ s1 hlead => ?_
  obtain ⟨hmem1, hptr1, wordsRoom⟩ := processBuffer_afterLead hlead hle
  have hwords : agreesOn m s1.mem s1.ptr.toNat (4 * (splitBuffer addr len).words) := by
    rw [hmem1, hptr1]
    exact agreesOn_offset (by omega) hfront
  refine andThen_replaceMemory (processWords_replaceMemory wordsRoom hwords) fun _ s2 hwords => ?_
  obtain ⟨hmem2, hptr2, tailRoom⟩ := processBuffer_afterWords hlead hwords hle
  refine processRemainder_replaceMemory tailRoom ?_
  rw [hmem2, hptr2]
  exact agreesOn_offset (by omega) h

/-! ## The whole command -/

theorem endProcess_replaceMemory (m : Memory) (x : Access Unit) :
    endProcess (replaceMemory m x) = { endProcess x with mem := m } := by
  cases x <;> rfl

theorem processBody_replaceMemory {m : Memory} {addr : Addr} {len : Len} {s : State}
    (h : agreesOn m s.mem addr.toNat len.toNat) :
    processBody addr len { s with mem := m } = { processBody addr len s with mem := m } := by
  unfold processBody
  dsimp only
  split
  · rfl
  · split
    · rfl
    next hrange =>
      have hle : addr.toNat + len.toNat ≤ 2 ^ 32 := by simpa [pastTop] using hrange
      rw [processBuffer_replaceMemory hle h, endProcess_replaceMemory]

/-- Settles O43: the prologue looks at `FAULT` only, and the body at no memory outside the buffer. -/
theorem processDependsOnlyOnItsBuffer : Obligations.ProcessDependsOnlyOnItsBuffer := by
  intro s t m addr len h hexec
  obtain rfl := Host.Outcome.next.inj hexec
  refine congrArg Host.Outcome.next ?_
  unfold hostCommand
  dsimp only
  split
  · rfl
  · exact processBody_replaceMemory h

end Sys2Proof.Machine
end

section
/-! PROOFS. Decoding an encoding (spec/30_encoding.md R55, R58, R63): an equation per shape of a port word, and the
encoder written over the fields the decoder looks at. -/

namespace Sys2Proof

/-! ## The decoders, shape by shape -/

theorem decodeCommand_start {c : BitVec 96} (hr : cmdRsv0 c = 0) (ho : cmdOp c = 0) (hb : cmdB c = 0) :
    decodeCommand c = .ok (.start (cmdA c)) := by
  rw [decodeCommand, if_neg (not_not.mpr hr), if_pos ho, if_pos hb]

theorem decodeCommand_process {c : BitVec 96} (hr : cmdRsv0 c = 0) (ho : cmdOp c = 1) :
    decodeCommand c = .ok (.process (cmdA c) (cmdB c)) := by
  simp [decodeCommand, hr, ho]

theorem decodeCommand_finish {c : BitVec 96} (hr : cmdRsv0 c = 0) (ho : cmdOp c = 2) (ha : cmdA c = 0)
    (hb : cmdB c = 0) : decodeCommand c = .ok .finish := by
  simp [decodeCommand, hr, ho, ha, hb]

theorem decodeEngine_write {r : BitVec 34} (h : reqEop r = 1) : decodeEngine r = .ok (.engWrite (reqData r)) := by
  simp [decodeEngine, h]

theorem decode_fold1 (d : Word) : decode (.microOp 1#3 d) = .ok (.fold1 (byteAt d 3)) := rfl

theorem decode_fold2 (d : Word) : decode (.microOp 2#3 d) = .ok (.fold2 (byteAt d 3) (byteAt d 2)) := rfl

theorem decode_fold3 (d : Word) :
    decode (.microOp 3#3 d) = .ok (.fold3 (byteAt d 3) (byteAt d 2) (byteAt d 1)) := rfl

/-! ## The operands of a fold as the four bytes of a word -/

theorem encode_fold1 (d0 : Byte) : encode (.fold1 d0) = .microOp 1#3 (d0 ++ 0#8 ++ 0#8 ++ 0#8) :=
  congrArg (PortWord.microOp 1#3) <| calc
    d0 ++ 0#24 = d0 ++ 0#8 ++ 0#16 := (BitVec.append_assoc (x₁ := d0) (x₂ := 0#8) (x₃ := 0#16)).symm
    _ = d0 ++ 0#8 ++ 0#8 ++ 0#8 := (BitVec.append_assoc (x₁ := d0 ++ 0#8) (x₂ := 0#8) (x₃ := 0#8)).symm

theorem encode_fold2 (d0 d1 : Byte) : encode (.fold2 d0 d1) = .microOp 2#3 (d0 ++ d1 ++ 0#8 ++ 0#8) :=
  congrArg (PortWord.microOp 2#3) (BitVec.append_assoc (x₁ := d0 ++ d1) (x₂ := 0#8) (x₃ := 0#8)).symm

theorem encode_fold3 (d0 d1 d2 : Byte) : encode (.fold3 d0 d1 d2) = .microOp 3#3 (d0 ++ d1 ++ d2 ++ 0#8) := rfl

/-! ## Decoding an encoding -/

theorem decodeCommand_encode_start (seed : Word) :
    decodeCommand (0#32 ++ seed ++ 0#32) = .ok (.start seed) := by
  have h := decodeCommand_start (c := 0#32 ++ seed ++ 0#32) (cmdRsv0_descriptor _ _ _) (cmdOp_descriptor _ _ _)
    (cmdB_descriptor _ _ _)
  rwa [cmdA_descriptor] at h

theorem decodeCommand_encode_process (addr : Addr) (len : Len) :
    decodeCommand (len ++ addr ++ 1#32) = .ok (.process addr len) := by
  have h := decodeCommand_process (c := len ++ addr ++ 1#32) (cmdRsv0_descriptor _ _ _) (cmdOp_descriptor _ _ _)
  rwa [cmdA_descriptor, cmdB_descriptor] at h

theorem decodeEngine_encode_write (w : Word) : decodeEngine (1#2 ++ w) = .ok (.engWrite w) := by
  rw [decodeEngine_write (reqEop_request 1#2 w), reqData_request]

/-- Settles O1, operation by operation: each field of an encoding is the operand that was put there. -/
theorem decodeOfEncode : Obligations.DecodeOfEncode := by
  intro i
  cases i with
  | engReset => rfl
  | engWrite w => exact decodeEngine_encode_write w
  | engRead => rfl
  | fold0 => rfl
  | fold1 d0 =>
    obtain ⟨h3, -⟩ := byteAt_bytes d0 0#8 0#8 0#8
    rw [encode_fold1, decode_fold1, h3]
  | fold2 d0 d1 =>
    obtain ⟨h3, h2, -⟩ := byteAt_bytes d0 d1 0#8 0#8
    rw [encode_fold2, decode_fold2, h3, h2]
  | fold3 d0 d1 d2 =>
    obtain ⟨h3, h2, h1, -⟩ := byteAt_bytes d0 d1 d2 0#8
    rw [encode_fold3, decode_fold3, h3, h2, h1]
  | word w => rfl
  | start seed => exact decodeCommand_encode_start seed
  | process addr len => exact decodeCommand_encode_process addr len
  | finish => rfl

/-! ## Encoding a decoding -/

/-- A descriptor that decodes is the encoding of its decoding: R63 leaves no bit of it unread. -/
theorem encode_of_decodeCommand {c : BitVec 96} {i : Instr} (h : decodeCommand c = .ok i) :
    encode i = .command c := by
  rcases decodeCommand_ok h with ⟨hr, ho, hb, rfl⟩ | ⟨hr, ho, rfl⟩ | ⟨hr, ho, ha, hb, rfl⟩
  · have hc := descriptor_of_fields (op := 0#32) hr (by rw [ho]; rfl)
    rw [hb] at hc
    exact congrArg PortWord.command hc
  · exact congrArg PortWord.command (descriptor_of_fields (op := 1#32) hr (by rw [ho]; rfl))
  · have hc := descriptor_of_fields (op := 2#32) hr (by rw [ho]; rfl)
    rw [ha, hb] at hc
    exact congrArg PortWord.command hc

/-- The mask of the engine port keeps `EOP` only (R55). -/
theorem request_and_mask (r : BitVec 34) : r &&& 0x300000000#34 = reqEop r ++ 0#32 := by
  calc r &&& 0x300000000#34 = (reqEop r ++ reqData r) &&& (3#2 ++ 0#32) :=
        congrArg₂ (· &&& ·) (request_of_fields r).symm rfl
    _ = reqEop r ++ 0#32 := by
        rw [BitVec.and_append, BitVec.and_zero]
        exact congrArg (· ++ 0#32) BitVec.and_allOnes

/-- A request is made of its two fields only. -/
theorem request_eq_iff {r : BitVec 34} {e : BitVec 2} {w : Word} :
    r = e ++ w ↔ reqEop r = e ∧ reqData r = w := by
  constructor
  · rintro rfl
    exact ⟨reqEop_request e w, reqData_request e w⟩
  · rintro ⟨rfl, rfl⟩
    exact (request_of_fields r).symm

/-- What R56 lets the block issue, by the two fields of the request. -/
theorem wellFormedEngine_iff (r : BitVec 34) :
    wellFormedEngine r = true ↔
      reqEop r = 1 ∨ (reqEop r = 0 ∨ reqEop r = 2) ∧ reqData r = 0 := by
  have hreset : r = 0#34 ↔ reqEop r = 0 ∧ reqData r = 0 := request_eq_iff (e := 0#2) (w := 0#32)
  have hread : r = 0x200000000#34 ↔ reqEop r = 2 ∧ reqData r = 0 := request_eq_iff (e := 2#2) (w := 0#32)
  have hwrite : r &&& 0x300000000#34 = 0x100000000#34 ↔ reqEop r = 1 := by
    rw [request_and_mask]
    constructor
    · intro h
      have := congrArg reqEop h
      rwa [reqEop_request] at this
    · intro h
      rw [h]
      decide
  simp only [wellFormedEngine, Bool.or_eq_true, beq_iff_eq, hreset, hwrite, hread]
  tauto

/-- A request that the block may issue is the encoding of its decoding (R56). -/
theorem encode_of_decodeEngine {r : BitVec 34} {i : Instr} (hw : wellFormedEngine r = true)
    (h : decodeEngine r = .ok i) : encode i = .engine r := by
  rw [wellFormedEngine_iff] at hw
  rcases decodeEngine_ok h with ⟨he, rfl⟩ | ⟨he, rfl⟩ | ⟨he, rfl⟩
  · have hd : reqData r = 0 := by simpa [he] using hw
    exact congrArg PortWord.engine (request_eq_iff.mpr ⟨he, hd⟩).symm
  · exact congrArg PortWord.engine (request_eq_iff.mpr ⟨he, rfl⟩).symm
  · have hd : reqData r = 0 := by simpa [he] using hw
    exact congrArg PortWord.engine (request_eq_iff.mpr ⟨he, hd⟩).symm

/-- A word whose `n` lowest bits are masked to 0 holds zero bytes there. -/
theorem byteAt_of_and_mask {w : Word} (n : Nat) {p : Nat} (hp : 8 * p + 8 ≤ n ∧ n ≤ 32)
    (h : w &&& BitVec.ofNat 32 (2 ^ n - 1) = 0#32) : byteAt w p = 0 := by
  ext j hj
  have hbit : (w &&& BitVec.ofNat 32 (2 ^ n - 1)).getLsbD (8 * p + j) = false := by
    rw [h, BitVec.getLsbD_zero]
  have hlow : 8 * p + j < n := by omega
  have hword : 8 * p + j < 32 := by omega
  rw [BitVec.getLsbD_and, BitVec.getLsbD_ofNat, Nat.testBit_two_pow_sub_one, decide_eq_true hlow,
    decide_eq_true hword, Bool.and_true, Bool.and_true] at hbit
  simpa [byteAt, hj] using hbit

/-- What a conforming micro-operation word is: a label with the operands it has, and zeros (R58; assumption log 6). -/
theorem wellFormedMicroOp_iff (l : BitVec 3) (d : Word) :
    wellFormedMicroOp l d = true ↔
      l = 0 ∧ d = 0 ∨ l = 1 ∧ d &&& 0x00FFFFFF#32 = 0 ∨ l = 2 ∧ d &&& 0x0000FFFF#32 = 0 ∨
        l = 3 ∧ d &&& 0x000000FF#32 = 0 ∨ l = 4 := by
  simp only [wellFormedMicroOp, Bool.or_eq_true, Bool.and_eq_true, beq_iff_eq]
  tauto

/-- A conforming micro-operation word is the encoding of its decoding (R58; assumption log 6). -/
theorem encode_of_decodeMicroOp {l : BitVec 3} {d : Word} {i : Instr} (hw : wellFormedMicroOp l d = true)
    (h : decodeMicroOp l d = .ok i) : encode i = .microOp l d := by
  have hbytes := bytes_of_byteAt d
  rw [wellFormedMicroOp_iff] at hw
  rcases decodeMicroOp_ok h with ⟨rfl, rfl⟩ | ⟨rfl, rfl⟩ | ⟨rfl, rfl⟩ | ⟨rfl, rfl⟩ | ⟨rfl, rfl⟩
  · have hd : d = 0 := by simpa using hw
    rw [hd]
    rfl
  · have hd : d &&& 0x00FFFFFF#32 = 0 := by simpa using hw
    rw [byteAt_of_and_mask 24 (p := 2) (by decide) hd, byteAt_of_and_mask 24 (p := 1) (by decide) hd,
      byteAt_of_and_mask 24 (p := 0) (by decide) hd] at hbytes
    rw [encode_fold1]
    exact congrArg (PortWord.microOp 1#3) hbytes
  · have hd : d &&& 0x0000FFFF#32 = 0 := by simpa using hw
    rw [byteAt_of_and_mask 16 (p := 1) (by decide) hd, byteAt_of_and_mask 16 (p := 0) (by decide) hd] at hbytes
    rw [encode_fold2]
    exact congrArg (PortWord.microOp 2#3) hbytes
  · have hd : d &&& 0x000000FF#32 = 0 := by simpa using hw
    rw [byteAt_of_and_mask 8 (p := 0) (by decide) hd] at hbytes
    rw [encode_fold3]
    exact congrArg (PortWord.microOp 3#3) hbytes
  · rfl

/-- Settles O2, port by port. -/
theorem encodeOfDecode : Obligations.EncodeOfDecode := by
  intro p i hw h
  cases p with
  | command c => exact encode_of_decodeCommand h
  | engine r => exact encode_of_decodeEngine hw h
  | microOp l d => exact encode_of_decodeMicroOp hw h

end Sys2Proof
end

section
/-! PROOFS. The decode function of R63 clause by clause, and the opcode-table rows a port word selects
(spec/30_encoding.md R52, R55, R58). -/

namespace Sys2Proof

open Sys2Proof.Machine

/-! ## The clauses of R63 -/

/-- `A` and `B` together are the upper 64 bits of a descriptor (R51). -/
theorem operands_eq_zero_iff (c : BitVec 96) : c.extractLsb' 32 64 = 0 ↔ cmdA c = 0 ∧ cmdB c = 0 := by
  have hupper := toNat_field c 32 64
  have ha : (cmdA c).toNat = _ := toNat_field c 32 32
  have hb : (cmdB c).toNat = _ := toNat_field c 64 32
  rw [← BitVec.toNat_inj, ← BitVec.toNat_inj, ← BitVec.toNat_inj]
  simp only [BitVec.ofNat_eq_ofNat, BitVec.toNat_zero, hupper, ha, hb]
  omega

/-- A descriptor with none of the legal shapes is illegal (R54). -/
theorem decodeCommand_rejects {c : BitVec 96}
    (h : ¬(cmdRsv0 c = 0 ∧ (cmdOp c = 0 ∧ cmdB c = 0 ∨ cmdOp c = 1 ∨ cmdOp c = 2 ∧ cmdA c = 0 ∧ cmdB c = 0))) :
    ∃ e, decodeCommand c = .error e := by
  cases hd : decodeCommand c with
  | error e => exact ⟨e, rfl⟩
  | ok i =>
    rcases decodeCommand_ok hd with ⟨hr, ho, hb, -⟩ | ⟨hr, ho, -⟩ | ⟨hr, ho, ha, hb, -⟩
    · exact absurd ⟨hr, .inl ⟨ho, hb⟩⟩ h
    · exact absurd ⟨hr, .inr (.inl ho)⟩ h
    · exact absurd ⟨hr, .inr (.inr ⟨ho, ha, hb⟩)⟩ h

/-- The encoding of a host command is a descriptor that decodes to it (R63). -/
theorem decodeCommand_of_encode {i : Instr} (h : isHostCommand i = true) :
    ∃ c, encode i = .command c ∧ decodeCommand c = .ok i := by
  cases i with
  | start seed => exact ⟨_, rfl, decodeCommand_encode_start seed⟩
  | process addr len => exact ⟨_, rfl, decodeCommand_encode_process addr len⟩
  | finish => exact ⟨_, rfl, rfl⟩
  | _ => exact nomatch h

/-- Settles O3: each legal shape by its equation, each illegal one because no legal shape fits it. -/
theorem descriptorDecodesByR63 : Obligations.DescriptorDecodesByR63 := by
  refine ⟨fun c => ?_, fun i => decodeCommand_of_encode, fun c i => encode_of_decodeCommand⟩
  refine ⟨fun hr => ?_, decodeCommand_start, fun hr (ho : cmdOp c = 0) (hb : cmdB c ≠ 0) => ?_,
    decodeCommand_process, fun hr ho hab => ?_, fun (hr : cmdRsv0 c = 0) (ho : cmdOp c = 2) hab => ?_,
    fun (ho : cmdOp c = 3) => ?_⟩
  · exact decodeCommand_rejects fun h => hr h.1
  · exact decodeCommand_rejects (by simpa [ho] using fun _ => hb)
  · obtain ⟨ha, hb⟩ := (operands_eq_zero_iff c).mp hab
    exact decodeCommand_finish hr ho ha hb
  · rw [ne_eq, operands_eq_zero_iff] at hab
    exact decodeCommand_rejects (by simpa [ho, hr] using hab)
  · exact decodeCommand_rejects (by simp [ho])

end Sys2Proof
end

section
/-! PROOFS. The rows of the opcode table that a port word selects (spec/30_encoding.md R52, R55, R58): masks keep fields,
so a row is a condition on the fields the decoder looks at. -/

namespace Sys2Proof

/-! ## The host command port -/

/-- A descriptor is its four fields (R51). -/
theorem command_fields (c : BitVec 96) : cmdB c ++ cmdA c ++ (cmdRsv0 c ++ cmdOp c) = c := by
  apply BitVec.eq_of_toNat_eq
  have := c.isLt
  rw [toNat_descriptor, BitVec.toNat_append, ← Nat.shiftLeft_add_eq_or_of_lt (cmdOp c).isLt, Nat.shiftLeft_eq,
    cmdB, cmdA, cmdRsv0, cmdOp, toNat_field, toNat_field, toNat_field, toNat_field]
  omega

theorem descriptor_eq_iff {b a w b' a' w' : Word} :
    b ++ a ++ w = b' ++ a' ++ w' ↔ b = b' ∧ a = a' ∧ w = w' := by
  have := b.isLt; have := a.isLt; have := w.isLt; have := b'.isLt; have := a'.isLt; have := w'.isLt
  simp only [← BitVec.toNat_inj, toNat_descriptor]
  omega

/-- A row of the host command port, word by word. -/
theorem command_selects_iff (c : BitVec 96) (m2 m1 m0 b a w : Word) :
    c &&& (m2 ++ m1 ++ m0) = b ++ a ++ w ↔
      cmdB c &&& m2 = b ∧ cmdA c &&& m1 = a ∧ (cmdRsv0 c ++ cmdOp c) &&& m0 = w := by
  rw [← descriptor_eq_iff, ← BitVec.and_append, ← BitVec.and_append, command_fields]

/-- The lowest word of a descriptor is an operation code exactly when the reserved bits are 0 (R51). -/
theorem lowWord_eq_iff {r : BitVec 30} {o o' : BitVec 2} : r ++ o = 0#30 ++ o' ↔ r = 0 ∧ o = o' := by
  have := r.isLt; have := o.isLt; have := o'.isLt
  rw [← BitVec.toNat_inj, BitVec.toNat_append, BitVec.toNat_append, ← Nat.shiftLeft_add_eq_or_of_lt o.isLt,
    ← Nat.shiftLeft_add_eq_or_of_lt o'.isLt, Nat.shiftLeft_eq, Nat.shiftLeft_eq,
    ← BitVec.toNat_inj, ← BitVec.toNat_inj]
  simp only [BitVec.ofNat_eq_ofNat, BitVec.toNat_zero]
  omega

theorem and_ones (w : Word) : w &&& 0xFFFFFFFF#32 = w := BitVec.and_allOnes

/-- The row START (R52). -/
theorem selects_start (c : BitVec 96) :
    c &&& 0xFFFFFFFF00000000FFFFFFFF#96 = 0x000000000000000000000000#96 ↔
      cmdRsv0 c = 0 ∧ cmdOp c = 0 ∧ cmdB c = 0 := by
  have h := command_selects_iff c 0xFFFFFFFF#32 0#32 0xFFFFFFFF#32 0#32 0#32 (0#30 ++ 0#2)
  rw [and_ones, and_ones, lowWord_eq_iff, BitVec.and_zero, eq_self, true_and] at h
  exact h.trans ⟨fun ⟨hb, hr, ho⟩ => ⟨hr, ho, hb⟩, fun ⟨hr, ho, hb⟩ => ⟨hb, hr, ho⟩⟩

/-- The row PROCESS (R52). -/
theorem selects_process (c : BitVec 96) :
    c &&& 0x0000000000000000FFFFFFFF#96 = 0x000000000000000000000001#96 ↔ cmdRsv0 c = 0 ∧ cmdOp c = 1 := by
  have h := command_selects_iff c 0#32 0#32 0xFFFFFFFF#32 0#32 0#32 (0#30 ++ 1#2)
  rw [and_ones, lowWord_eq_iff, BitVec.and_zero, BitVec.and_zero, eq_self, true_and, true_and] at h
  exact h

/-- The row FINISH (R52). -/
theorem selects_finish (c : BitVec 96) :
    c &&& 0xFFFFFFFFFFFFFFFFFFFFFFFF#96 = 0x000000000000000000000002#96 ↔
      cmdRsv0 c = 0 ∧ cmdOp c = 2 ∧ cmdA c = 0 ∧ cmdB c = 0 := by
  have h := command_selects_iff c 0xFFFFFFFF#32 0xFFFFFFFF#32 0xFFFFFFFF#32 0#32 0#32 (0#30 ++ 2#2)
  rw [and_ones, and_ones, and_ones, lowWord_eq_iff] at h
  exact h.trans ⟨fun ⟨hb, ha, hr, ho⟩ => ⟨hr, ho, ha, hb⟩, fun ⟨hr, ho, ha, hb⟩ => ⟨hb, ha, hr, ho⟩⟩

/-- The rows of the host command port as conditions on the fields (R52). -/
theorem selectRows_command (c : BitVec 96) :
    selectRows commandRows c =
      (if cmdRsv0 c = 0 ∧ cmdOp c = 0 ∧ cmdB c = 0 then [.start] else []) ++
      (if cmdRsv0 c = 0 ∧ cmdOp c = 1 then [.process] else []) ++
      (if cmdRsv0 c = 0 ∧ cmdOp c = 2 ∧ cmdA c = 0 ∧ cmdB c = 0 then [.finish] else []) := by
  rw [selectRows, commandRows, List.filter_cons, List.filter_cons, List.filter_cons, List.filter_nil]
  simp only [beq_iff_eq, selects_start, selects_process, selects_finish]
  split_ifs <;> rfl

theorem selectRows_of_decodeCommand (c : BitVec 96) :
    selectRows commandRows c =
      match decodeCommand c with
      | .ok i => [i.mnemonic]
      | .error _ => [] := by
  rw [selectRows_command]
  cases hd : decodeCommand c with
  | ok i =>
    rcases decodeCommand_ok hd with ⟨hr, ho, hb, rfl⟩ | ⟨hr, ho, rfl⟩ | ⟨hr, ho, ha, hb, rfl⟩
    · simp [hr, ho, hb, Instr.mnemonic]
    · simp [hr, ho, Instr.mnemonic]
    · simp [hr, ho, ha, hb, Instr.mnemonic]
  | error e =>
    rcases decodeCommand_error hd with hr | ⟨ho, hb⟩ | ⟨ho, hab⟩ | ⟨h0, h1, h2⟩
    · simp only [hr, false_and, if_false, List.append_nil]
    · have h1 : cmdOp c ≠ 1 := ho ▸ by decide
      have h2 : cmdOp c ≠ 2 := ho ▸ by decide
      simp only [hb, h1, h2, and_false, if_false, List.append_nil]
    · have h0 : cmdOp c ≠ 0 := ho ▸ by decide
      have h1 : cmdOp c ≠ 1 := ho ▸ by decide
      simp only [hab, h0, h1, and_false, false_and, if_false, List.append_nil]
    · simp only [h0, h1, h2, and_false, false_and, if_false, List.append_nil]

/-! ## The other two ports -/

/-- Every row of the engine port looks at `EOP` only (R55). -/
theorem selectRows_engine (r : BitVec 34) :
    selectRows engineRows r =
      (engineRows.filter fun row => reqEop r ++ 0#32 == row.value).map (·.mnemonic) := by
  simp only [selectRows, engineRows, List.filter_cons, List.filter_nil, request_and_mask]

/-- The request that is no operation (R55). -/
theorem reqEop_of_reject {r : BitVec 34} {e : Reject} (h : decodeEngine r = .error e) : reqEop r = 3 := by
  have reserved : ∀ e : BitVec 2, e ≠ 0 ∧ e ≠ 1 ∧ e ≠ 2 → e = 3 := by decide
  exact reserved _ (decodeEngine_error h)

theorem selectRows_of_decodeEngine (r : BitVec 34) :
    selectRows engineRows r =
      match decodeEngine r with
      | .ok i => [i.mnemonic]
      | .error _ => [] := by
  rw [selectRows_engine]
  cases hd : decodeEngine r with
  | ok i => rcases decodeEngine_ok hd with ⟨he, rfl⟩ | ⟨he, rfl⟩ | ⟨he, rfl⟩ <;> rw [he] <;> rfl
  | error e =>
    rw [reqEop_of_reject hd]
    rfl

theorem selectRows_of_decodeMicroOp (l : BitVec 3) (d : Word) :
    selectRows microOpRows l =
      match decodeMicroOp l d with
      | .ok i => [i.mnemonic]
      | .error _ => [] := by
  cases hd : decodeMicroOp l d with
  | ok i =>
    rcases decodeMicroOp_ok hd with ⟨rfl, rfl⟩ | ⟨rfl, rfl⟩ | ⟨rfl, rfl⟩ | ⟨rfl, rfl⟩ | ⟨rfl, rfl⟩ <;> rfl
  | error e =>
    have none_reserved : ∀ l : BitVec 3, l ≠ 0 ∧ l ≠ 1 ∧ l ≠ 2 ∧ l ≠ 3 ∧ l ≠ 4 →
        selectRows microOpRows l = [] := by decide
    exact none_reserved l (decodeMicroOp_error hd)

/-- Settles O4, port by port. -/
theorem rowsAgreeWithDecoder : Obligations.RowsAgreeWithDecoder := by
  intro p
  cases p with
  | command c => exact selectRows_of_decodeCommand c
  | engine r => exact selectRows_of_decodeEngine r
  | microOp l d => exact selectRows_of_decodeMicroOp l d

end Sys2Proof
end

section
/-! PROOFS. Words written out in the spec (spec/95_test_vectors.md section 2.7), the response format (spec/30_encoding.md
R51), and which steps are refused (R56, R58, spec/93_implementation_defined.md U8, spec/70_reset_and_hazards.md R146). -/

namespace Sys2Proof.Machine

/-- Settles O5: each word decoded. -/
theorem writtenWordsDecode : Obligations.WrittenWordsDecode := by
  refine ⟨?_, ?_, ?_, ?_, ?_, ?_, ?_, ?_, ?_, ?_, ?_⟩ <;> decide

/-- The value of a response's bits (R51). -/
theorem toNat_responseBits (r : Response) :
    (responseBits r).toNat = r.status.toNat * 2 ^ 32 + r.value.toNat := by
  rw [responseBits, BitVec.toNat_append, ← Nat.shiftLeft_add_eq_or_of_lt r.value.isLt, Nat.shiftLeft_eq]

/-- Settles O6: the two fields by their values. -/
theorem responseFormat : Obligations.ResponseFormat := by
  refine ⟨fun r => ⟨?_, ?_⟩, rfl, rfl⟩
  all_goals
    have := r.status.isLt
    have := r.value.isLt
    apply BitVec.eq_of_toNat_eq
    rw [toNat_field, toNat_responseBits]
    omega

/-! ## Refusals -/

/-- What a step does with an engine request of the block, or of another agent while no session is open. -/
theorem engineStep_of_inputs {s : State} {r : BitVec 34} {rest : List Input}
    (h : s.inputs = .port (.engine r) :: rest ∨ s.inputs = .foreign r :: rest ∧ s.phase = .CLOSED) :
    engineStep r rest s := by
  rcases h with hin | ⟨hin, hp⟩
  · exact engineStep_of_fetch (fetch_of_inputs hin)
  · exact engineStep_of_fetch ((fetch_of_inputs hin).trans (if_neg (hp ▸ Phase.noConfusion)))

/-- What a step does with an engine request, by the fields of the request: the three cases exclude each other. -/
theorem engineStep_fields {r : BitVec 34} {rest : List Input} {s : State} (h : engineStep r rest s) :
    (wellFormedEngine r = true ∧ ∃ i, step s = exec i { s with inputs := rest }) ∨
    ((reqEop r = 0 ∨ reqEop r = 2) ∧ reqData r ≠ 0 ∧ step s = .refused (.engineRequestData r)) ∨
    (reqEop r = 3 ∧ step s = .refused (.reservedEngineRequest r)) := by
  rcases h with ⟨i, -, hw, h⟩ | ⟨i, hd, hw, h⟩ | ⟨e, hd, h⟩
  · exact .inl ⟨hw, i, h⟩
  · obtain ⟨h1, hdata⟩ := not_or.mp (mt (wellFormedEngine_iff r).mpr (Bool.eq_false_iff.mp hw))
    have heop : reqEop r = 0 ∨ reqEop r = 2 := by
      rcases decodeEngine_ok hd with ⟨h0, -⟩ | ⟨h1', -⟩ | ⟨h2, -⟩
      · exact .inl h0
      · exact absurd h1' h1
      · exact .inr h2
    exact .inr (.inl ⟨heop, fun h0 => hdata ⟨heop, h0⟩, h⟩)
  · exact .inr (.inr ⟨reqEop_of_reject hd, h⟩)

/-- Settles O9: `EOP` and `DATA` leave one of the three things a step can do with an engine request. -/
theorem unspecifiedRequestsRefused : Obligations.UnspecifiedRequestsRefused := by
  intro s r rest hin
  change (reqEop r = 3 → _) ∧ (reqEop r = 0 ∨ reqEop r = 2 → reqData r ≠ 0 → _)
  rcases engineStep_fields (engineStep_of_inputs hin) with ⟨hw, -⟩ | ⟨h02, -, h⟩ | ⟨h3, h⟩
  · rw [wellFormedEngine_iff] at hw
    refine ⟨fun h3 => absurd hw (by simp [h3]), fun h02 hdata => ?_⟩
    rcases hw with h1 | ⟨-, h0⟩
    · exact absurd h02 (by simp [h1])
    · exact absurd h0 hdata
  · exact ⟨fun h3 => absurd h02 (by simp [h3]), fun _ _ => h⟩
  · exact ⟨fun _ => h, fun h02 => absurd h02 (by simp [h3])⟩

/-- Every operation answers a next state (assumption log 4). -/
theorem exec_answers (i : Instr) (s : State) : ∃ t, exec i s = .next t := by
  cases i <;> exact ⟨_, rfl⟩

theorem exec_not_refused {i : Instr} {s : State} {why : Refusal} : exec i s ≠ .refused why := by
  obtain ⟨t, h⟩ := exec_answers i s
  exact fun hx => nomatch h.symm.trans hx

/-- A step that refuses an engine request does so for its `EOP` or for its `DATA`. -/
theorem engineStep_refused {r : BitVec 34} {rest : List Input} {s : State} {why : Refusal}
    (h : engineStep r rest s) (hwhy : step s = .refused why) :
    (reqEop r = 3 ∧ why = .reservedEngineRequest r) ∨
    ((reqEop r = 0 ∨ reqEop r = 2) ∧ reqData r ≠ 0 ∧ why = .engineRequestData r) := by
  rcases engineStep_fields h with ⟨-, i, h⟩ | ⟨h02, hdata, h⟩ | ⟨h3, h⟩
  · exact absurd (h.symm.trans hwhy) exec_not_refused
  · exact .inr ⟨h02, hdata, Host.Outcome.refused.inj (hwhy.symm.trans h)⟩
  · exact .inl ⟨h3, Host.Outcome.refused.inj (hwhy.symm.trans h)⟩

/-- The labels that are no micro-operation are the three highest (R58). -/
theorem label_of_reject {l : BitVec 3} {d : Word} {e : Reject} (h : decodeMicroOp l d = .error e) :
    5 ≤ l.toNat := by
  have reserved : ∀ l : BitVec 3, l ≠ 0 ∧ l ≠ 1 ∧ l ≠ 2 ∧ l ≠ 3 ∧ l ≠ 4 → 5 ≤ l.toNat := by decide
  exact reserved l (decodeMicroOp_error h)

/-- Settles O11: no operation refuses, so a refused step is one of those that run none. -/
theorem stepRefusesOnlyByName : Obligations.StepRefusesOnlyByName := by
  refine ⟨exec_answers, fun s why h => ?_, fun s why => nomatch why⟩
  rcases step_cases s with ⟨-, e⟩ | ⟨c, rest, hin, ⟨i, -, e⟩ | ⟨-, -, e⟩⟩ | ⟨r, rest, hin, he⟩ |
    ⟨l, d, rest, hin, ⟨i, -, e⟩ | ⟨r, hd, e⟩⟩ | ⟨r, rest, hin, ⟨hp, e⟩ | ⟨hp, he⟩⟩ | ⟨rest, -, e⟩ |
    ⟨c, n, rest, -, e⟩ | ⟨a, v, rest, -, e⟩
  · exact nomatch e.symm.trans h
  · exact absurd (e.symm.trans h) exec_not_refused
  · exact nomatch e.symm.trans h
  · rcases engineStep_refused he h with ⟨h3, hwhy⟩ | ⟨h02, hdata, hwhy⟩
    · exact .inl ⟨r, rest, hin, h3, hwhy⟩
    · exact .inr (.inr (.inl ⟨r, rest, .inl hin, h02, hdata, hwhy⟩))
  · exact absurd (e.symm.trans h) exec_not_refused
  · exact .inr (.inr (.inr (.inr
      ⟨l, d, rest, hin, label_of_reject hd, Host.Outcome.refused.inj (h.symm.trans e)⟩)))
  · exact .inr (.inr (.inr (.inl ⟨r, rest, hin, hp, Host.Outcome.refused.inj (h.symm.trans e)⟩)))
  · rcases engineStep_refused he h with ⟨h3, hwhy⟩ | ⟨h02, hdata, hwhy⟩
    · exact .inr (.inl ⟨r, rest, hin, h3, hp, hwhy⟩)
    · exact .inr (.inr (.inl ⟨r, rest, .inr ⟨hin, hp⟩, h02, hdata, hwhy⟩))
  · exact nomatch e.symm.trans h
  · exact nomatch e.symm.trans h
  · exact nomatch e.symm.trans h

end Sys2Proof.Machine
end

section
/-! PROOFS. The response of a host command (spec/30_encoding.md R51, spec/60_exceptions.md R123, R126): one, with the
value `FAULT` then holds as its status. -/

namespace Sys2Proof.Machine

/-- `t` is after a host command that ran in `s` and gave one response: its status is `FAULT`, and a value other than 0
comes with status 0 and meets `result`. -/
def answersOnce (result : Word → Prop) (s t : State) : Prop :=
  ∃ r, t.responses = s.responses ++ [r] ∧ r.status = t.fault ∧ (r.value ≠ 0 → r.status = 0 ∧ result r.value)

/-- A response of value 0 under the code that `FAULT` holds. -/
theorem answersOnce_respond {result : Word → Prop} {s u : State} (hr : u.responses = s.responses) :
    answersOnce result s (respond u.fault 0 u) :=
  ⟨⟨u.fault, 0⟩, by rw [respond_responses, hr], rfl, absurd rfl⟩

/-- Fault entry (R123). -/
theorem answersOnce_raise {result : Word → Prop} {s u : State} (info : FaultInfo)
    (hr : u.responses = s.responses) : answersOnce result s (raise info u) :=
  answersOnce_respond (u := { u with fault := faultCode info, faultInfo := some info }) hr

/-- The prologue answers for the body while a fault is recorded (R126). -/
theorem answersOnce_hostCommand {result : Word → Prop} {body : State → State} {s : State}
    (hbody : s.fault = 0 → answersOnce result s (body s)) : answersOnce result s (hostCommand body s) := by
  rcases hostCommand_cases body s with ⟨-, e⟩ | ⟨hs, e⟩ <;> rw [e]
  · exact answersOnce_respond rfl
  · exact hbody hs

/-- The phase check of FINISH (R110). -/
theorem finishBody_cases (s : State) :
    (s.phase = .CLOSED ∧ finishBody s = raise (.protocolViolation .finish) s) ∨
    (s.phase = .OPEN ∧
      finishBody s = respond 0 (s.reg ^^^ s.corr) { record (.engRead s.reg) s with phase := .CLOSED }) := by
  unfold finishBody
  cases hp : s.phase with
  | CLOSED => exact .inl ⟨rfl, if_pos rfl⟩
  | OPEN => exact .inr ⟨rfl, if_neg Phase.noConfusion⟩

section
variable {result : Word → Prop} {s : State} (hs : s.fault = 0)
include hs

theorem answersOnce_startBody (seed : Word) : answersOnce result s (startBody seed s) :=
  ⟨⟨0, 0⟩, rfl, hs.symm, absurd rfl⟩

theorem answersOnce_processBody (addr : Addr) (len : Len) : answersOnce result s (processBody addr len s) := by
  rcases processBody_cases addr len s with ⟨-, e⟩ | ⟨-, -, e⟩ | ⟨-, -, e⟩ <;> rw [e]
  · exact answersOnce_raise _ rfl
  · exact answersOnce_raise _ rfl
  · obtain ⟨-, hfault, -, -, -, hresponses, -⟩ := keepsSurround_processBuffer addr len s
    cases hx : processBuffer addr len s with
    | done a u =>
      rw [hx] at hfault hresponses
      exact ⟨⟨0, 0⟩, congrArg (· ++ [_]) hresponses, hs.symm.trans hfault.symm, absurd rfl⟩
    | stopped info u =>
      rw [hx] at hresponses
      exact answersOnce_raise info hresponses

theorem answersOnce_finishBody (hresult : result (s.reg ^^^ s.corr)) : answersOnce result s (finishBody s) := by
  rcases finishBody_cases s with ⟨-, e⟩ | ⟨-, e⟩ <;> rw [e]
  · exact answersOnce_raise _ rfl
  · exact ⟨⟨0, s.reg ^^^ s.corr⟩, rfl, hs.symm, fun _ => ⟨rfl, hresult⟩⟩

end

/-- Settles O53: the prologue or the body of a host command answers once, and no other operation writes responses. -/
theorem oneResponsePerHostCommand : Obligations.OneResponsePerHostCommand := by
  intro i s t h
  refine ⟨fun hi => ?_, fun hi => by rw [exec_frame_of_not_hostCommand hi h]⟩
  show answersOnce (fun v => i = .finish ∧ v = s.reg ^^^ s.corr) s t
  cases i with
  | start seed =>
    obtain rfl := Host.Outcome.next.inj h
    exact answersOnce_hostCommand fun hs => answersOnce_startBody hs seed
  | process addr len =>
    obtain rfl := Host.Outcome.next.inj h
    exact answersOnce_hostCommand fun hs => answersOnce_processBody hs addr len
  | finish =>
    obtain rfl := Host.Outcome.next.inj h
    exact answersOnce_hostCommand fun hs => answersOnce_finishBody hs ⟨rfl, rfl⟩
  | _ => exact nomatch hi

end Sys2Proof.Machine
end

section
/-! PROOFS. Which requests and reads an operation issues (spec/30_encoding.md R56, spec/40_engine_primitives.md R74 to
R76, spec/20_memory.md R30). -/

namespace Sys2Proof.Machine

/-- Every request an event stands for is one R56 allows, since it is an encoding. -/
theorem eventRequest_wellFormed {e : Event} {p : PortWord} (h : eventRequest e = some p) :
    p.wellFormed = true := by
  cases e with
  | engReset => exact Option.some.inj h ▸ Laws.EncodingWellFormed.engReset
  | engWrite w => exact Option.some.inj h ▸ Laws.EncodingWellFormed.engWrite w
  | engRead v => exact Option.some.inj h ▸ Laws.EncodingWellFormed.engRead
  | memRead1 a b => exact nomatch h
  | memRead4 a w => exact nomatch h

/-! ## Events of given kinds -/

/-- From `s` to `t` the trace only grows, by events of the kinds `ks`. -/
def addsKinds (ks : List EventKind) (s t : State) : Prop :=
  ∃ es, t.trace = s.trace ++ es ∧ ∀ e ∈ es, eventKind e ∈ ks

theorem addsKinds_none {s t : State} (ks : List EventKind) (h : t.trace = s.trace) : addsKinds ks s t :=
  ⟨[], by rw [h, List.append_nil], nofun⟩

theorem addsKinds_one {ks : List EventKind} {s t : State} {e : Event} (h : t.trace = s.trace ++ [e])
    (he : eventKind e ∈ ks) : addsKinds ks s t :=
  ⟨[e], h, fun _ hd => List.mem_singleton.mp hd ▸ he⟩

theorem addsKinds_trans {ks : List EventKind} {s t u : State} (h : addsKinds ks s t) (g : addsKinds ks t u) :
    addsKinds ks s u := by
  obtain ⟨es, htrace, hes⟩ := h
  obtain ⟨fs, gtrace, hfs⟩ := g
  refine ⟨es ++ fs, by rw [gtrace, htrace, List.append_assoc], fun e he => ?_⟩
  exact (List.mem_append.mp he).elim (hes e) (hfs e)

theorem addsKinds_mono {ks ks' : List EventKind} {s t : State} (hsub : ks ⊆ ks') (h : addsKinds ks s t) :
    addsKinds ks' s t := by
  obtain ⟨es, htrace, hes⟩ := h
  exact ⟨es, htrace, fun e he => hsub (hes e he)⟩

theorem addsKinds_andThen {α β : Type} {ks : List EventKind} {s : State} {x : Access α}
    {f : α → State → Access β} (hx : addsKinds ks s (accessState x))
    (hf : ∀ a t, addsKinds ks t (accessState (f a t))) :
    addsKinds ks s (accessState (andThen x f)) := by
  cases x with
  | done a t => exact addsKinds_trans hx (hf a t)
  | stopped info t => exact hx

/-- A fold reads the engine and writes it (R92); a fold of no bytes does neither (R91). -/
theorem addsKinds_foldSubWord (d : SubWord) (s : State) :
    addsKinds [.engRead, .engWrite] s (foldSubWord d s) := by
  rw [foldSubWord_eq]
  split
  · exact addsKinds_none _ rfl
  · rw [foldBytes_eq]
    exact ⟨_, List.append_assoc _ _ _, by simp [eventKind]⟩

/-! ## The events of a PROCESS -/

/-- The kinds of events a PROCESS leaves (R107). -/
def processIssues : List EventKind := [.memRead1, .memRead4, .engRead, .engWrite]

theorem addsKinds_memRead1 (a : Addr) (s : State) : addsKinds processIssues s (accessState (memRead1 a s)) := by
  rcases memRead1_cases a s with ⟨b, -, h⟩ | ⟨-, h⟩ <;> rw [h]
  · exact addsKinds_one rfl (by decide : EventKind.memRead1 ∈ processIssues)
  · exact addsKinds_none _ rfl

theorem addsKinds_memRead4 (a : Addr) (s : State) : addsKinds processIssues s (accessState (memRead4 a s)) := by
  rcases memRead4_cases a s with ⟨b0, b1, b2, b3, -, -, -, -, h⟩ | ⟨j, -, -, -, h⟩ <;> rw [h]
  · exact addsKinds_one rfl (by decide : EventKind.memRead4 ∈ processIssues)
  · exact addsKinds_none _ rfl

theorem addsKinds_readSubWord (k : Fin 4) (s : State) :
    addsKinds processIssues s (accessState (readSubWord k s)) := by
  match k with
  | 0 => exact addsKinds_none _ rfl
  | 1 => exact addsKinds_andThen (addsKinds_memRead1 _ s) fun _ t => addsKinds_none _ rfl
  | 2 =>
    exact addsKinds_andThen (addsKinds_memRead1 _ s) fun _ t =>
      addsKinds_andThen (addsKinds_memRead1 _ t) fun _ u => addsKinds_none _ rfl
  | 3 =>
    exact addsKinds_andThen (addsKinds_memRead1 _ s) fun _ t =>
      addsKinds_andThen (addsKinds_memRead1 _ t) fun _ u =>
        addsKinds_andThen (addsKinds_memRead1 _ u) fun _ v => addsKinds_none _ rfl

theorem addsKinds_processRemainder (k : Fin 4) (s : State) :
    addsKinds processIssues s (accessState (processRemainder k s)) := by
  unfold processRemainder
  split
  · exact addsKinds_none _ rfl
  · exact addsKinds_andThen (addsKinds_readSubWord k s) fun d t =>
      addsKinds_trans (addsKinds_mono (by decide) (addsKinds_foldSubWord d t)) (addsKinds_none _ rfl)

theorem addsKinds_processWords (n : Nat) (s : State) :
    addsKinds processIssues s (accessState (processWords n s)) := by
  induction n generalizing s with
  | zero => exact addsKinds_none _ rfl
  | succ n ih =>
    refine addsKinds_andThen (addsKinds_memRead4 _ s) fun w t => addsKinds_trans ?_ (ih _)
    exact addsKinds_one rfl (by decide : EventKind.engWrite ∈ processIssues)

theorem addsKinds_processBuffer (addr : Addr) (len : Len) (s : State) :
    addsKinds processIssues s (accessState (processBuffer addr len s)) :=
  addsKinds_andThen (addsKinds_processRemainder _ { s with ptr := addr, cnt := len }) fun _ t =>
    addsKinds_andThen (addsKinds_processWords _ t) fun _ u => addsKinds_processRemainder _ u

theorem addsKinds_processBody (addr : Addr) (len : Len) (s : State) :
    addsKinds processIssues s (processBody addr len s) := by
  rcases processBody_cases addr len s with ⟨-, e⟩ | ⟨-, -, e⟩ | ⟨-, -, e⟩ <;> rw [e]
  · exact addsKinds_none _ rfl
  · exact addsKinds_none _ rfl
  · have h := addsKinds_processBuffer addr len s
    cases hx : processBuffer addr len s <;> rw [hx] at h <;> exact h

/-! ## The events of every operation -/

/-- The kinds of events each operation leaves (R74 to R76, R30). -/
def issuedKinds : Mnemonic → List EventKind
  | .engReset => [.engReset]
  | .engWrite => [.engWrite]
  | .engRead => [.engRead]
  | .fold0 => []
  | .fold1 => [.engRead, .engWrite]
  | .fold2 => [.engRead, .engWrite]
  | .fold3 => [.engRead, .engWrite]
  | .word => [.engWrite]
  | .start => [.engReset]
  | .process => processIssues
  | .finish => [.engRead]

/-- A recorded fault leaves no event (R127). -/
theorem addsKinds_hostCommand {ks : List EventKind} {body : State → State} {s : State}
    (h : addsKinds ks s (body s)) : addsKinds ks s (hostCommand body s) := by
  rcases hostCommand_cases body s with ⟨-, e⟩ | ⟨-, e⟩ <;> rw [e]
  · exact addsKinds_none _ rfl
  · exact h

theorem addsKinds_finishBody (s : State) : addsKinds [.engRead] s (finishBody s) := by
  rcases finishBody_cases s with ⟨-, e⟩ | ⟨-, e⟩ <;> rw [e]
  · exact addsKinds_none _ rfl
  · exact addsKinds_one rfl (List.mem_singleton.mpr rfl)

/-- Every operation adds to the trace events of its own kinds only. -/
theorem exec_addsKinds {i : Instr} {s t : State} (h : exec i s = .next t) :
    addsKinds (issuedKinds i.mnemonic) s t := by
  cases i with
  | engReset => exact Host.Outcome.next.inj h ▸ addsKinds_one rfl (List.mem_singleton.mpr rfl)
  | engWrite w => exact Host.Outcome.next.inj h ▸ addsKinds_one rfl (List.mem_singleton.mpr rfl)
  | engRead => exact Host.Outcome.next.inj h ▸ addsKinds_one rfl (List.mem_singleton.mpr rfl)
  | fold0 => exact Host.Outcome.next.inj h ▸ addsKinds_none _ rfl
  | fold1 d0 => exact Host.Outcome.next.inj h ▸ addsKinds_foldSubWord (.one d0) s
  | fold2 d0 d1 => exact Host.Outcome.next.inj h ▸ addsKinds_foldSubWord (.two d0 d1) s
  | fold3 d0 d1 d2 => exact Host.Outcome.next.inj h ▸ addsKinds_foldSubWord (.three d0 d1 d2) s
  | word w => exact Host.Outcome.next.inj h ▸ addsKinds_one (foldWord_trace w s) (List.mem_singleton.mpr rfl)
  | start seed =>
    exact Host.Outcome.next.inj h ▸
      addsKinds_hostCommand (addsKinds_one rfl (List.mem_singleton.mpr rfl))
  | process addr len => exact Host.Outcome.next.inj h ▸ addsKinds_hostCommand (addsKinds_processBody addr len s)
  | finish => exact Host.Outcome.next.inj h ▸ addsKinds_hostCommand (addsKinds_finishBody s)

/-- The table `issuedKinds`, read by kind of event. -/
theorem mnemonic_of_issuedKinds (m : Mnemonic) :
    (.engReset ∈ issuedKinds m → m ∈ [Mnemonic.start, .engReset]) ∧
    (.engWrite ∈ issuedKinds m →
      m ∈ [Mnemonic.fold1, .fold2, .fold3, .word, .process, .engWrite]) ∧
    (.engRead ∈ issuedKinds m →
      m ∈ [Mnemonic.fold1, .fold2, .fold3, .process, .finish, .engRead]) ∧
    (.memRead1 ∈ issuedKinds m ∨ .memRead4 ∈ issuedKinds m → m = .process) := by
  cases m <;> decide

/-- Settles O54: a kind among the events an operation adds stands in the table of the kinds it issues. -/
theorem requestsWellFormed : Obligations.RequestsWellFormed := by
  intro i s t h
  obtain ⟨es, htrace, hes⟩ := exec_addsKinds h
  have issued {k : EventKind} (hk : k ∈ es.map eventKind) : k ∈ issuedKinds i.mnemonic := by
    obtain ⟨e, he, rfl⟩ := List.mem_map.mp hk
    exact hes e he
  obtain ⟨hreset, hwrite, hread, hmem⟩ := mnemonic_of_issuedKinds i.mnemonic
  exact ⟨es, htrace, fun e _ p => eventRequest_wellFormed, fun hk => hreset (issued hk),
    fun hk => hwrite (issued hk), fun hk => hread (issued hk), fun hk => hmem (hk.imp issued issued)⟩

end Sys2Proof.Machine
end

section
/-! PROOFS. The engine's function and its three requests (spec/40_engine_primitives.md R72 to R77): the laws of `T32`,
with the packings of a fold (spec/42_subword_corrector.md R90), and what each request leaves. -/

namespace Sys2Proof.Machine

/-! ## The packings of a fold -/

/-- Bits above zeros, shifted up past their own width, are gone. -/
theorem append_zero_shiftLeft {m n : Nat} (x : BitVec m) : (x ++ 0#n) <<< m = 0#(m + n) := by
  ext i hi
  by_cases hm : i < m
  · simp [hm]
  · have hlow : i - m < n := by omega
    simp [BitVec.getElem_append, hlow]

/-- Bits above zeros, shifted down over the zeros, stand below zeros. -/
theorem append_zero_ushiftRight {m n : Nat} (x : BitVec m) :
    (x ++ 0#n) >>> n = (0#n ++ x).cast (Nat.add_comm n m) := by
  apply BitVec.eq_of_toNat_eq
  simp [Nat.shiftLeft_shiftRight]

/-- `pack_hi` has its data in its top `k` bytes only (R90). -/
theorem packHi_shiftLeft (d : SubWord) : packHi d <<< (8 * subWordCount d) = 0#32 := by
  cases d with
  | zero => rfl
  | one d0 => exact append_zero_shiftLeft d0
  | two d0 d1 => exact append_zero_shiftLeft (d0 ++ d1)
  | three d0 d1 d2 => exact append_zero_shiftLeft (d0 ++ d1 ++ d2)

/-- `pack_lo` is `pack_hi` shifted down (R90). -/
theorem packHi_ushiftRight (d : SubWord) : packHi d >>> (32 - 8 * subWordCount d) = packLo d := by
  cases d with
  | zero => rfl
  | one d0 => exact append_zero_ushiftRight d0
  | two d0 d1 => exact append_zero_ushiftRight (d0 ++ d1)
  | three d0 d1 d2 => exact append_zero_ushiftRight (d0 ++ d1 ++ d2)

/-- The data packed at the top are gone from what moves up (R77 law 4). -/
theorem xor_packHi_shiftLeft (c : Word) (d : SubWord) :
    (c ^^^ packHi d) <<< (8 * subWordCount d) = c <<< (8 * subWordCount d) := by
  rw [BitVec.shiftLeft_xor_distrib, packHi_shiftLeft, BitVec.xor_zero]

/-- What moves down takes the data along (R77 law 4). -/
theorem xor_packHi_ushiftRight (c : Word) (d : SubWord) :
    (c ^^^ packHi d) >>> (32 - 8 * subWordCount d) = c >>> (32 - 8 * subWordCount d) ^^^ packLo d := by
  rw [BitVec.ushiftRight_xor_distrib, packHi_ushiftRight]

/-! ## `T32` -/

theorem t32_xor (a b : Word) : t32 (a ^^^ b) = t32 a ^^^ t32 b := by
  calc t32 (a ^^^ b) = crcWord (a ^^^ b) (0#32 ^^^ 0#32) := by rw [BitVec.xor_self]; rfl
    _ = t32 a ^^^ t32 b := crcWord_xor a b 0#32 0#32

theorem t32_zero : t32 0 = 0 := crcWord_self 0

/-- The bytes of a fold, with the data packed at the top of the register (R77 law 3). -/
theorem crcBytes_subWord_packHi {d : SubWord} (hd : d ≠ .zero) (c : Word) :
    crcBytes c (subWordBytes d) =
      t32 ((c ^^^ packHi d) >>> (32 - 8 * subWordCount d)) ^^^
        (c ^^^ packHi d) <<< (8 * subWordCount d) := by
  rw [crcBytes_subWord hd, xor_packHi_shiftLeft, xor_packHi_ushiftRight, BitVec.xor_comm (packLo d)]

/-- The values given with the laws (R77). -/
theorem t32_values :
    t32 0x00000001#32 = 0x04C11DB7#32 ∧ t32 0x00000002#32 = 0x09823B6E#32 ∧
    t32 0x00000080#32 = 0x690CE0EE#32 ∧ t32 0x00000100#32 = 0xD219C1DC#32 ∧
    t32 0x80000000#32 = 0xA6E63D1D#32 := by
  simp [t32, crcWord, crcByte, crcBit, Config.POLY, BitVec.msb_eq_getLsbD_last]

/-- Settles O19: the four laws by name, the five values by running the register bit by bit. -/
theorem t32Laws : Obligations.T32Laws :=
  ⟨t32_xor, t32_zero, crcWord_eq_t32, crcWord_self, fun c _ hd => crcBytes_subWord_packHi hd c,
    fun c d _ => ⟨xor_packHi_shiftLeft c d, xor_packHi_ushiftRight c d⟩, t32_values⟩

/-- Settles O18, by `crcBytes_append`. -/
theorem referenceFunctionConcatenates : Obligations.ReferenceFunctionConcatenates :=
  crcBytes_append

/-! ## The engine requests -/

/-- Settles O23: the request is `EngReset()`, whose reset constant is the literal. -/
theorem engResetResult : Obligations.EngResetResult := fun _ => rfl

/-- Settles O24: the request is `EngWrite(w)`, and a register folded into itself leaves 0. -/
theorem engWriteResult : Obligations.EngWriteResult := by
  intro s w
  refine ⟨rfl, fun hw => ?_⟩
  rw [hw, crcWord_self]

/-- Settles O25: the request is the second part of `EngRead()`. -/
theorem engReadResult : Obligations.EngReadResult := fun _ => rfl

end Sys2Proof.Machine
end

section
/-! PROOFS. The byte reversal (spec/41_byte_order_normalizer.md R80, R81): a permutation of bit positions, from which
the other two laws follow bit by bit. -/

namespace Sys2Proof.Machine

/-- One case per byte field of the result: each is the mirrored field of `x`. -/
theorem getLsbD_bswap32 (x : Word) {i : Nat} (hi : i < 32) :
    (bswap32 x).getLsbD i = x.getLsbD (8 * (3 - i / 8) + i % 8) := by
  simp only [bswap32, BitVec.getLsbD_append, BitVec.getLsbD_extractLsb']
  split_ifs
  all_goals
    rw [decide_eq_true (by omega), Bool.true_and]
    exact congrArg x.getLsbD (by omega)

theorem bswap32_bswap32 (x : Word) : bswap32 (bswap32 x) = x := by
  apply BitVec.eq_of_getLsbD_eq
  intro i hi
  have mirrored_twice : 8 * (3 - (8 * (3 - i / 8) + i % 8) / 8) + (8 * (3 - i / 8) + i % 8) % 8 = i := by
    omega
  rw [getLsbD_bswap32 _ hi, getLsbD_bswap32 _ (by omega), mirrored_twice]

theorem bswap32_xor (a b : Word) : bswap32 (a ^^^ b) = bswap32 a ^^^ bswap32 b := by
  apply BitVec.eq_of_getLsbD_eq
  intro i hi
  simp only [getLsbD_bswap32 _ hi, BitVec.getLsbD_xor]

/-- Settles O21: all three laws from the permutation of bit positions. -/
theorem byteReversalLaws : Obligations.ByteReversalLaws :=
  ⟨bswap32_bswap32, fun x _ hi => getLsbD_bswap32 x hi, bswap32_xor⟩

end Sys2Proof.Machine
end

section
/-! PROOFS. The corrector (spec/42_subword_corrector.md R90 to R98): the two packings, what a fold and a WORD leave, and
their net effect on the true CRC. -/

namespace Sys2Proof.Machine

/-! ## The packings of a fold -/

/-- Settles O20: the law is `packHi_ushiftRight`, the example words are concatenations of literals. -/
theorem packingAgrees : Obligations.PackingAgrees :=
  ⟨fun d _ => (packHi_ushiftRight d).symm, by decide⟩

/-! ## The folds -/

theorem exec_foldInstr (d : SubWord) (s : State) : exec (foldInstr d) s = .next (foldSubWord d s) := by
  cases d <;> rfl

theorem foldSubWord_of_ne_zero {d : SubWord} (hd : d ≠ .zero) (s : State) :
    foldSubWord d s = foldBytes (subWordCount d) (packLo d) s := by
  rw [foldSubWord_eq, if_neg hd]

/-- The whole result of a fold, its word and its deferred bits given by any names (R92). -/
theorem exec_foldInstr_result {d : SubWord} (hd : d ≠ .zero) (s : State) {val deferred : Word}
    (hval : val = s.reg ^^^ packLo d ^^^ (s.reg ^^^ s.corr) >>> (32 - 8 * subWordCount d))
    (hdeferred : deferred = (s.reg ^^^ s.corr) <<< (8 * subWordCount d)) :
    exec (foldInstr d) s =
      .next { s with
        reg := crcWord s.reg val
        corr := deferred
        trace := s.trace ++ [.engRead s.reg, .engWrite val] } := by
  rw [exec_foldInstr, foldSubWord_of_ne_zero hd, foldBytes_eq, ← hval, ← hdeferred, List.append_assoc]
  rfl

/-- The register a fold leaves is the data under the top of the true CRC, through `T32` (R96). -/
theorem foldSubWord_reg {d : SubWord} (hd : d ≠ .zero) (s : State) :
    (foldSubWord d s).reg = t32 (packLo d ^^^ (s.reg ^^^ s.corr) >>> (32 - 8 * subWordCount d)) := by
  rw [foldSubWord_of_ne_zero hd, foldBytes_eq, crcWord_eq_t32, BitVec.xor_assoc, xor_xor_cancel_left]

/-- A fold defers the low bits of the true CRC (R96). -/
theorem foldSubWord_corr {d : SubWord} (hd : d ≠ .zero) (s : State) :
    (foldSubWord d s).corr = (s.reg ^^^ s.corr) <<< (8 * subWordCount d) := by
  rw [foldSubWord_of_ne_zero hd, foldBytes_eq]

/-- Settles O26: a fold of no bytes is the identity. -/
theorem fold0ChangesNothing : Obligations.Fold0ChangesNothing := exec_foldInstr .zero

/-! R93 to R95 write the packing as a zero extension and the deferred bits as low bits above zeros; in the library's
form as concatenations these are `packLo` and the shift of R92. -/

/-- Settles O27: the general result of a fold at one byte. -/
theorem fold1Result : Obligations.Fold1Result := by
  rintro s d0 t val rfl hval
  rw [BitVec.setWidth_eq_append (by decide : 8 ≤ 32)] at hval
  exact exec_foldInstr_result (d := .one d0) nofun s hval
    (BitVec.shiftLeft_eq_concat_of_lt (by decide : 8 < 32)).symm

/-- Settles O28: the general result of a fold at two bytes. -/
theorem fold2Result : Obligations.Fold2Result := by
  rintro s d0 d1 t val rfl hval
  rw [BitVec.setWidth_eq_append (by decide : 16 ≤ 32)] at hval
  exact exec_foldInstr_result (d := .two d0 d1) nofun s hval
    (BitVec.shiftLeft_eq_concat_of_lt (by decide : 16 < 32)).symm

/-- Settles O29: the general result of a fold at three bytes. -/
theorem fold3Result : Obligations.Fold3Result := by
  rintro s d0 d1 d2 t val rfl hval
  rw [BitVec.setWidth_eq_append (by decide : 24 ≤ 32)] at hval
  exact exec_foldInstr_result (d := .three d0 d1 d2) nofun s hval
    (BitVec.shiftLeft_eq_concat_of_lt (by decide : 24 < 32)).symm

/-- Settles O30: both registers by their rules, their XOR by the law of the true CRC under a fold. -/
theorem foldNetEffect : Obligations.FoldNetEffect := fun s d hd =>
  ⟨foldSubWord d s, exec_foldInstr d s, foldSubWord_reg hd s, foldSubWord_corr hd s, trueCrc_foldSubWord d s⟩

/-- Settles O31: with `CORR = REG` the true CRC is 0 and nothing is deferred; with data equal to its top the word
folded in is 0. -/
theorem foldCornerCases : Obligations.FoldCornerCases := by
  refine ⟨fun s d hd hcorr => ⟨foldSubWord d s, exec_foldInstr d s, ?_⟩,
    fun s d hd hdata => ⟨foldSubWord d s, exec_foldInstr d s, ?_⟩⟩
  · have htrue : s.reg ^^^ s.corr = 0#32 := by rw [hcorr, BitVec.xor_self]
    rw [foldSubWord_reg hd, foldSubWord_corr hd, htrue, BitVec.zero_shiftLeft, BitVec.zero_ushiftRight,
      BitVec.xor_zero]
    exact ⟨rfl, rfl⟩
  · have hreg : (foldSubWord d s).reg = 0#32 := by
      rw [foldSubWord_reg hd, ← hdata, BitVec.xor_self]
      exact t32_zero
    rw [hreg, foldSubWord_corr hd]
    exact ⟨rfl, BitVec.zero_xor⟩

/-! ## WORD -/

/-- Settles O32: WORD is `foldWord`, one write of the spliced word. -/
theorem wordResult : Obligations.WordResult := fun _ _ => rfl

/-- With `CORR` zeroed the register is the true CRC. -/
theorem foldWord_reg_eq_trueCrc (w : Word) (s : State) : (foldWord w s).reg = trueCrc (foldWord w s) :=
  BitVec.xor_zero.symm

/-- The register WORD leaves is the old true CRC and the word, through `T32` (R98). -/
theorem foldWord_reg_eq_t32 (w : Word) (s : State) : (foldWord w s).reg = t32 (s.reg ^^^ s.corr ^^^ w) := by
  rw [foldWord_reg_eq_trueCrc, trueCrc_foldWord, crcWord_eq_t32, trueCrc]

/-- Settles O33: the register through `T32`, the XOR by the law of the true CRC under a WORD; the bytes are those
`crc_word` folds (R73). -/
theorem wordNetEffect : Obligations.WordNetEffect := fun s w =>
  ⟨foldWord w s, rfl, foldWord_corr w s, foldWord_reg_eq_t32 w s, trueCrc_foldWord w s, trueCrc_foldWord w s⟩

end Sys2Proof.Machine
end

section
/-! PROOFS. The split of a buffer (spec/43_session_commands.md R103), PROCESS of no bytes (R109) and FINISH (R110). -/

namespace Sys2Proof.Machine

/-! ## The split -/

theorem splitBuffer_lead (addr : Addr) (len : Len) : (splitBuffer addr len).lead.val = leadBytes addr len :=
  Nat.mod_eq_of_lt (by rw [leadBytes]; omega)

theorem splitBuffer_words (addr : Addr) (len : Len) :
    (splitBuffer addr len).words = (len.toNat - leadBytes addr len) / 4 := rfl

theorem splitBuffer_tail (addr : Addr) (len : Len) :
    (splitBuffer addr len).tail.val = (len.toNat - leadBytes addr len) % 4 := Nat.mod_mod _ _

/-- What follows the lead, words or tail, starts aligned: a lead that is not the whole buffer ends on a word boundary. -/
theorem splitBuffer_nothing_or_aligned (addr : Addr) (len : Len) :
    (splitBuffer addr len).words = 0 ∧ (splitBuffer addr len).tail.val = 0 ∨
      (addr.toNat + (splitBuffer addr len).lead.val) % 4 = 0 := by
  rw [splitBuffer_lead, splitBuffer_words, splitBuffer_tail, leadBytes]
  omega

/-- The address enters the split through `addr mod 4` only. -/
theorem splitBuffer_congr {addr addr' : Addr} (len : Len) (h : addr.toNat % 4 = addr'.toNat % 4) :
    splitBuffer addr len = splitBuffer addr' len := by
  simp only [splitBuffer, leadBytes, h]

/-- Settles O35: the formulas by definition, the bounds from the sum of the parts. -/
theorem splitOfBuffer : Obligations.SplitOfBuffer := by
  refine ⟨fun addr len => ?_, fun addr addr' len h => splitBuffer_congr len ?_⟩
  · have hsum := splitBuffer_sum addr len
    have hlen := len.isLt
    refine ⟨splitBuffer_lead addr len, ?_, ?_, hsum, Fin.is_le _, Fin.is_le _, by omega,
      splitBuffer_nothing_or_aligned addr len⟩
    · rw [splitBuffer_lead, splitBuffer_words]
    · rw [splitBuffer_lead, splitBuffer_tail]
  · simpa [BitVec.extractLsb'_toNat] using congrArg BitVec.toNat h

theorem splitBuffer_zero (addr : Addr) : splitBuffer addr 0 = ⟨0, 0, 0⟩ := by
  simp [splitBuffer, leadBytes]

/-! ## PROCESS of no bytes -/

/-- With no fault recorded the body of a host command runs (R126). -/
theorem hostCommand_of_noFault {body : State → State} {s : State} (hs : s.fault = 0) :
    hostCommand body s = body s := if_neg (not_not.mpr hs)

/-- All three steps of a PROCESS of no bytes are empty; only the cursor is set. -/
theorem processBuffer_zero (addr : Addr) (s : State) :
    processBuffer addr 0 s = .done () { s with ptr := addr, cnt := 0 } := by
  unfold processBuffer
  rw [splitBuffer_zero]
  rfl

/-- PROCESS with no open session (R121). -/
theorem exec_process_closed {s : State} (addr : Addr) (len : Len) (hs : s.fault = 0) (hp : s.phase = .CLOSED) :
    exec (.process addr len) s = .next (raise (.protocolViolation .process) s) :=
  congrArg Host.Outcome.next ((hostCommand_of_noFault hs).trans (if_pos hp))

/-- Settles O38: an empty buffer is readable at every address, and its PROCESS only sets the cursor and answers. -/
theorem zeroLengthProcess : Obligations.ZeroLengthProcess := by
  refine ⟨fun s addr hs hp => ?_, fun s addr hs hp => ⟨_, exec_process_closed addr 0 hs hp, rfl, rfl⟩⟩
  have hempty : bufferHolds s.mem addr 0 [] := ⟨addr.isLt.le, rfl⟩
  obtain ⟨u, hx, hexec⟩ := process_completes hs hp hempty
  obtain ⟨-, rfl⟩ := Access.done.inj ((processBuffer_zero addr s).symm.trans hx)
  exact ⟨_, hexec, rfl, rfl, rfl, hp, hs, rfl, rfl⟩

/-! ## FINISH -/

/-- Settles O47: the body of FINISH in an open session. -/
theorem finishResult : Obligations.FinishResult := by
  intro s hs hp
  rcases finishBody_cases s with ⟨hc, -⟩ | ⟨-, e⟩
  · exact nomatch hp.symm.trans hc
  · exact congrArg Host.Outcome.next ((hostCommand_of_noFault hs).trans e)

end Sys2Proof.Machine
end

section
/-! PROOFS. A PROCESS that completes is its micro-operations (spec/43_session_commands.md R104 to R107, R115): each piece
leaves the registers and the engine requests of the fold or the WORDs of its bytes, by events of known kinds. -/

namespace Sys2Proof.Machine

/-! ## Stretches of a readable buffer -/

/-- A readable buffer cut in two. -/
theorem bufferBytes_split {m : Memory} {a n k : Nat} {bs : List Byte} (h : bufferBytes m a (n + k) = some bs) :
    ∃ xs ys, bs = xs ++ ys ∧ bufferBytes m a n = some xs ∧ bufferBytes m (a + n) k = some ys := by
  induction n generalizing a bs with
  | zero => exact ⟨[], bs, rfl, rfl, by rwa [Nat.zero_add] at h⟩
  | succ n ih =>
    rw [Nat.succ_add] at h
    obtain ⟨b, bs', rfl, hb, hbs⟩ := bufferBytes_succ h
    obtain ⟨xs, ys, rfl, hxs, hys⟩ := ih hbs
    exact ⟨b :: xs, ys, rfl, bufferBytes_cons hb hxs, by rwa [Nat.add_right_comm] at hys⟩

/-- A stretch at an offset that does not wrap, or an empty one. -/
theorem bufferBytes_offset {m : Memory} {p : Addr} {n k : Nat} {bs : List Byte} (hle : p.toNat + n + k ≤ 2 ^ 32)
    (h : bufferBytes m (p.toNat + n) k = some bs) : bufferBytes m (p + BitVec.ofNat 32 n).toNat k = some bs := by
  cases k with
  | zero => exact h
  | succ k => rwa [toNat_add_ofNat (by omega)]

theorem foldsAtCursor_mem {n : Nat} {s t : State} (h : foldsAtCursor n s t) : t.mem = s.mem := by
  obtain ⟨hmem, -⟩ := h
  exact hmem

/-- What follows a piece in the buffer stands at the cursor behind it. -/
theorem foldsAtCursor_bytes {n k : Nat} {s t : State} {bs : List Byte} (h : foldsAtCursor n s t)
    (hle : s.ptr.toNat + n + k ≤ 2 ^ 32) (hbs : bufferBytes s.mem (s.ptr.toNat + n) k = some bs) :
    bufferBytes t.mem t.ptr.toNat k = some bs := by
  obtain ⟨hmem, hptr, -⟩ := h
  rw [hmem, hptr]
  exact bufferBytes_offset hle hbs

/-- The cursor behind a piece that does not end at the top of the address space. -/
theorem foldsAtCursor_ptr {n : Nat} {s t : State} (h : foldsAtCursor n s t) (hlt : s.ptr.toNat + n < 2 ^ 32) :
    t.ptr.toNat = s.ptr.toNat + n := by
  obtain ⟨-, hptr, -⟩ := h
  rw [hptr, toNat_add_ofNat hlt]

/-- An offset from the cursor behind a piece is one from the cursor before it. -/
theorem foldsAtCursor_offset {n : Nat} {s t : State} (h : foldsAtCursor n s t) (i : Nat) :
    t.ptr + BitVec.ofNat 32 i = s.ptr + BitVec.ofNat 32 (n + i) := by
  obtain ⟨-, hptr, -⟩ := h
  rw [hptr, BitVec.add_assoc, BitVec.ofNat_add]

/-! ## Operations that depend on the registers alone -/

/-- From every state with the registers of `s` the operations `ops` issue the engine requests `requests` and end with the
registers of `t`. -/
def opsLeave (ops : List Instr) (requests : List Event) (s t : State) : Prop :=
  ∀ u : State, u.reg = s.reg → u.corr = s.corr →
    ∃ v, execAll ops u = .next v ∧ t.reg = v.reg ∧ t.corr = v.corr ∧ v.trace = u.trace ++ requests

theorem opsLeave_nil {s t : State} (hreg : t.reg = s.reg) (hcorr : t.corr = s.corr) : opsLeave [] [] s t :=
  fun u ureg ucorr => ⟨u, rfl, hreg.trans ureg.symm, hcorr.trans ucorr.symm, (List.append_nil _).symm⟩

theorem opsLeave_append {is js : List Instr} {es fs : List Event} {s t u : State} (h : opsLeave is es s t)
    (g : opsLeave js fs t u) : opsLeave (is ++ js) (es ++ fs) s u := by
  intro s' hreg hcorr
  obtain ⟨t', ht, treg, tcorr, ttrace⟩ := h s' hreg hcorr
  obtain ⟨u', hu, ureg, ucorr, utrace⟩ := g t' treg.symm tcorr.symm
  exact ⟨u', (execAll_append ht).trans hu, ureg, ucorr, by rw [utrace, ttrace, List.append_assoc]⟩

theorem execAll_singleton {i : Instr} {s t : State} (h : exec i s = .next t) : execAll [i] s = .next t := by
  simp only [execAll, h]

/-- A fold issues one ENG.READ and one ENG.WRITE, both determined by the two registers (R92). -/
theorem opsLeave_foldSubWord {d : SubWord} (hd : d ≠ .zero) (s : State) :
    opsLeave [foldInstr d] [.engRead s.reg,
      .engWrite (s.reg ^^^ packLo d ^^^ (s.reg ^^^ s.corr) >>> (32 - 8 * subWordCount d))] s (foldSubWord d s) := by
  intro u hreg hcorr
  refine ⟨_, execAll_singleton (exec_foldInstr_result hd u rfl rfl), ?_⟩
  rw [foldSubWord_of_ne_zero hd, foldBytes_eq, hreg, hcorr]
  exact ⟨rfl, rfl, rfl⟩

/-- A WORD issues one ENG.WRITE of its word with the splice (R97). -/
theorem opsLeave_foldWord (w : Word) (s : State) :
    opsLeave [.word w] [.engWrite (w ^^^ s.corr)] s (foldWord w s) := by
  intro u hreg hcorr
  refine ⟨foldWord w u, execAll_singleton rfl, ?_, rfl, ?_⟩
  · rw [foldWord_reg, foldWord_reg, hreg, hcorr]
  · rw [foldWord_trace, hcorr]

/-! ## Parts of a PROCESS -/

/-- `t` is after a part of a PROCESS that started in `s`: the part added events of the kinds `ks` in order, its requests
and answers are those of an engine that started with `REG`, and the operations `ops` leave the same registers by the same
requests. -/
def runsPart (ops : List Instr) (ks : List EventKind) (s t : State) : Prop :=
  ∃ es, t.trace = s.trace ++ es ∧ es.map eventKind = ks ∧ replayEngine s.reg es = t.reg ∧
    readsAnswered s.reg es ∧ opsLeave ops (es.filter isEngineEvent) s t

theorem runsPart_refl (s : State) : runsPart [] [] s s :=
  ⟨[], (List.append_nil _).symm, rfl, rfl, trivial, opsLeave_nil rfl rfl⟩

theorem runsPart_trans {is js : List Instr} {ks ls : List EventKind} {s t u : State} (h : runsPart is ks s t)
    (g : runsPart js ls t u) : runsPart (is ++ js) (ks ++ ls) s u := by
  obtain ⟨es, htrace, hkinds, hreplay, hanswers, hops⟩ := h
  obtain ⟨fs, gtrace, gkinds, greplay, ganswers, gops⟩ := g
  refine ⟨es ++ fs, ?_, ?_, ?_, ?_, ?_⟩
  · rw [gtrace, htrace, List.append_assoc]
  · rw [List.map_append, hkinds, gkinds]
  · rw [replayEngine_append, hreplay, greplay]
  · exact (readsAnswered_append _ _ _).mpr ⟨hanswers, by rwa [hreplay]⟩
  · rw [List.filter_append]
    exact opsLeave_append hops gops

/-- The cursor stands in no event and in no register that an operation uses. -/
theorem runsPart_advance {ops : List Instr} {ks : List EventKind} {s t : State} (n : Nat)
    (h : runsPart ops ks s t) : runsPart ops ks s (advance n t) := h

/-- A byte read is no engine request. -/
theorem runsPart_memRead1 {a : Addr} {s t : State} {b : Byte} (h : memRead1 a s = .done b t) :
    runsPart [] [.memRead1] s t := by
  obtain ⟨-, rfl⟩ := memRead1_done h
  exact ⟨[.memRead1 a b], rfl, rfl, rfl, trivial, opsLeave_nil rfl rfl⟩

theorem runsPart_foldSubWord {d : SubWord} (hd : d ≠ .zero) (s : State) :
    runsPart [foldInstr d] [.engRead, .engWrite] s (foldSubWord d s) := by
  refine ⟨[.engRead s.reg, .engWrite _], ?_, rfl, ?_, ⟨rfl, trivial⟩, opsLeave_foldSubWord hd s⟩
  all_goals rw [foldSubWord_of_ne_zero hd, foldBytes_eq]
  · exact List.append_assoc _ _ _
  · rfl

/-! ## Pieces that complete -/

theorem runsPart_readSubWord {k : Fin 4} {s t : State} {d : SubWord} (h : readSubWord k s = .done d t) :
    runsPart [] (List.replicate k.val .memRead1) s t := by
  match k with
  | 0 =>
    obtain ⟨-, rfl⟩ := Access.done.inj h
    exact runsPart_refl s
  | 1 =>
    obtain ⟨d0, s1, h0, h⟩ := andThen_done h
    obtain ⟨-, rfl⟩ := Access.done.inj h
    exact runsPart_memRead1 h0
  | 2 =>
    obtain ⟨d0, s1, h0, h⟩ := andThen_done h
    obtain ⟨d1, s2, h1, h⟩ := andThen_done h
    obtain ⟨-, rfl⟩ := Access.done.inj h
    exact runsPart_trans (runsPart_memRead1 h0) (runsPart_memRead1 h1)
  | 3 =>
    obtain ⟨d0, s1, h0, h⟩ := andThen_done h
    obtain ⟨d1, s2, h1, h⟩ := andThen_done h
    obtain ⟨d2, s3, h2, h⟩ := andThen_done h
    obtain ⟨-, rfl⟩ := Access.done.inj h
    exact runsPart_trans (runsPart_trans (runsPart_memRead1 h0) (runsPart_memRead1 h1)) (runsPart_memRead1 h2)

theorem remainderOps_subWordBytes {d : SubWord} (hd : d ≠ .zero) :
    remainderOps (subWordBytes d) = [foldInstr d] := by
  cases d with
  | zero => exact absurd rfl hd
  | _ => rfl

theorem remainderKinds_of_ne_zero {k : Nat} (hk : k ≠ 0) :
    remainderKinds k = List.replicate k .memRead1 ++ [.engRead, .engWrite] := if_neg hk

/-- The events of a run of `n` words in order (R107). -/
def wordKinds (n : Nat) : List EventKind := (List.replicate n [EventKind.memRead4, EventKind.engWrite]).flatten

theorem processKinds_eq (split : Split) :
    processKinds split =
      remainderKinds split.lead.val ++ wordKinds split.words ++ remainderKinds split.tail.val := rfl

/-- A remainder is the FOLDk of its bytes (R104, R106). -/
theorem runsPart_processRemainder {k : Fin 4} {s t : State} {bs : List Byte}
    (h : processRemainder k s = .done () t) (hk : s.ptr.toNat + k.val ≤ 2 ^ 32)
    (hbs : bufferBytes s.mem s.ptr.toNat k.val = some bs) :
    runsPart (remainderOps bs) (remainderKinds k.val) s t := by
  unfold processRemainder at h
  split at h
  · rename_i h0
    obtain ⟨-, rfl⟩ := Access.done.inj h
    rw [h0] at hbs ⊢
    obtain rfl : [] = bs := Option.some.inj hbs
    exact runsPart_refl s
  · rename_i h0
    obtain ⟨d, s1, hread, h⟩ := andThen_done h
    obtain ⟨hbytes, hcount, -⟩ := readSubWord_done hread hk
    obtain ⟨-, rfl⟩ := Access.done.inj h
    obtain rfl : subWordBytes d = bs := Option.some.inj (hbytes.symm.trans hbs)
    have hk0 : k.val ≠ 0 := Fin.val_ne_of_ne h0
    have hd : d ≠ .zero := by
      rintro rfl
      exact hk0 hcount.symm
    rw [remainderOps_subWordBytes hd, remainderKinds_of_ne_zero hk0]
    exact runsPart_trans (runsPart_readSubWord hread) (runsPart_advance _ (runsPart_foldSubWord hd s1))

/-- One word of a run is the WORD of its four bytes in engine order (R82, R105). -/
theorem runsPart_word {s t : State} {w : Word} {b0 b1 b2 b3 : Byte} (h : memRead4 s.ptr s = .done w t)
    (hle : s.ptr.toNat + 4 ≤ 2 ^ 32) (hbs : bufferBytes s.mem s.ptr.toNat 4 = some [b0, b1, b2, b3]) :
    runsPart [.word (beWord b0 b1 b2 b3)] [.memRead4, .engWrite] s (advance 4 (foldWord (bswap32 w) t)) := by
  obtain ⟨rfl, rfl⟩ := Access.done.inj ((memRead4_readable hbs hle).symm.trans h)
  rw [bswap32_leWord]
  exact ⟨[_, _], List.append_assoc _ _ _, rfl, rfl, trivial, opsLeave_foldWord _ s⟩

/-- A readable stretch of at least a word, cut behind its first word. -/
theorem bufferBytes_word {m : Memory} {a n : Nat} {bs : List Byte} (h : bufferBytes m a (4 + n) = some bs) :
    ∃ b0 b1 b2 b3 ys, bs = b0 :: b1 :: b2 :: b3 :: ys ∧ bufferBytes m a 4 = some [b0, b1, b2, b3] ∧
      bufferBytes m (a + 4) n = some ys := by
  obtain ⟨xs, ys, rfl, hxs, hys⟩ := bufferBytes_split h
  obtain ⟨b0, b1, b2, b3, rfl⟩ := List.length_eq_four.mp (length_of_bufferBytes hxs)
  exact ⟨b0, b1, b2, b3, ys, rfl, hxs, hys⟩

/-- A word run is the WORDs of its bytes; what follows them in the buffer does not matter (R105). -/
theorem runsPart_processWords {n k : Nat} {s t : State} {bs : List Byte} (h : processWords n s = .done () t)
    (hle : s.ptr.toNat + (4 * n + k) ≤ 2 ^ 32)
    (hbs : bufferBytes s.mem s.ptr.toNat (4 * n + k) = some bs) :
    runsPart (wordOps n bs) (wordKinds n) s t := by
  induction n generalizing s bs with
  | zero =>
    obtain ⟨-, rfl⟩ := Access.done.inj h
    exact runsPart_refl s
  | succ n ih =>
    obtain ⟨w, s1, hread, h⟩ := andThen_done h
    have hlen : 4 * (n + 1) + k = 4 + (4 * n + k) := by omega
    rw [hlen] at hbs
    obtain ⟨b0, b1, b2, b3, ys, rfl, hword, hrest⟩ := bufferBytes_word hbs
    have hfold := foldsAtCursor_word hread (by omega)
    have rest := ih h (foldsAtCursor_room hfold (by omega)) (foldsAtCursor_bytes hfold (by omega) hrest)
    exact runsPart_trans (runsPart_word hread (by omega) hword) rest

/-- The micro-operations of a PROCESS, its bytes cut behind the lead. -/
theorem processOps_append {addr : Addr} {len : Len} {xs : List Byte} (ys : List Byte)
    (hxs : xs.length = (splitBuffer addr len).lead.val) :
    processOps addr len (xs ++ ys) =
      remainderOps xs ++ wordOps (splitBuffer addr len).words ys ++
        remainderOps (ys.drop (4 * (splitBuffer addr len).words)) := by
  simp only [processOps]
  rw [List.take_left' hxs, List.drop_left' hxs, ← List.drop_drop, List.drop_left' hxs]

/-- The three steps of a PROCESS that complete are its micro-operations (R107). -/
theorem runsPart_processBuffer {addr : Addr} {len : Len} {s t : State} {bs : List Byte}
    (h : processBuffer addr len s = .done () t) (hbs : bufferHolds s.mem addr len bs) :
    runsPart (processOps addr len bs) (processKinds (splitBuffer addr len)) s t := by
  obtain ⟨hle, hbytes⟩ := hbs
  have hsum := splitBuffer_sum addr len
  rw [hsum, Nat.add_assoc] at hbytes
  obtain ⟨xs, rest, rfl, hxs, hrest⟩ := bufferBytes_split hbytes
  obtain ⟨ys, zs, rfl, hys, hzs⟩ := bufferBytes_split hrest
  obtain ⟨⟨⟩, s1, hlead, h⟩ := andThen_done h
  obtain ⟨⟨⟩, s2, hwords, htail⟩ := andThen_done h
  have leadFold := processRemainder_done hlead (by dsimp only; omega)
  have wordsRoom := foldsAtCursor_room (k := 4 * (splitBuffer addr len).words + (splitBuffer addr len).tail.val)
    leadFold (by dsimp only; omega)
  have frontFold := foldsAtCursor_trans leadFold (processWords_done hwords (by omega)) (by dsimp only; omega)
  rw [Nat.add_assoc] at hzs
  have lead := runsPart_processRemainder hlead (by dsimp only; omega) hxs
  have words := runsPart_processWords hwords wordsRoom (foldsAtCursor_bytes leadFold (by dsimp only; omega) hrest)
  have tail := runsPart_processRemainder htail (foldsAtCursor_room frontFold (by dsimp only; omega))
    (foldsAtCursor_bytes frontFold (by dsimp only; omega) hzs)
  rw [processOps_append _ (length_of_bufferBytes hxs), List.drop_left' (length_of_bufferBytes hys)]
  exact runsPart_trans (runsPart_trans lead words) tail

/-! ## The events of a PROCESS -/

/-- Settles O40: the events of the part that the three steps of a PROCESS are. -/
theorem processEventOrder : Obligations.ProcessEventOrder := by
  intro s addr len bs hs hp hbs
  obtain ⟨t, hx, hexec⟩ := process_completes hs hp hbs
  obtain ⟨es, htrace, hkinds, hreplay, hanswers, -⟩ := runsPart_processBuffer hx hbs
  exact ⟨respond 0 0 t, es, hexec, htrace, hkinds, hreplay, hanswers⟩

/-! ## The counts of R115 -/

/-- A remainder of `k` bytes reads them one by one, and where there are any reads and writes the engine once. -/
theorem count_remainderKinds (k : Nat) :
    (remainderKinds k).count .engReset = 0 ∧
      (remainderKinds k).count .engRead = (if 0 < k then 1 else 0) ∧
      (remainderKinds k).count .engWrite = (if 0 < k then 1 else 0) ∧
      (remainderKinds k).count .memRead1 = k ∧ (remainderKinds k).count .memRead4 = 0 := by
  cases k with
  | zero => decide
  | succ k => simp [remainderKinds, List.count_replicate]

/-- A run of `n` words reads and writes `n` times. -/
theorem count_wordKinds (n : Nat) :
    (wordKinds n).count .engReset = 0 ∧ (wordKinds n).count .engRead = 0 ∧ (wordKinds n).count .engWrite = n ∧
      (wordKinds n).count .memRead1 = 0 ∧ (wordKinds n).count .memRead4 = n := by
  simp [wordKinds, List.count_flatten]

/-- Settles O45: the counts are those of the kinds of O40, remainder by remainder and word by word. -/
theorem requestCounts : Obligations.RequestCounts := by
  refine ⟨fun s seed hs => ⟨_, And.left (startResult s seed hs), rfl⟩, fun s addr len bs hs hp hbs => ?_,
    fun s hs hp => ⟨_, finishResult s hs hp, rfl⟩⟩
  obtain ⟨t, es, hexec, htrace, hkinds, -, -⟩ := processEventOrder s addr len bs hs hp hbs
  obtain ⟨wreset, wread, wwrite, wbyte, wword⟩ := count_wordKinds (splitBuffer addr len).words
  obtain ⟨lreset, lread, lwrite, lbyte, lword⟩ := count_remainderKinds (splitBuffer addr len).lead.val
  obtain ⟨treset, tread, twrite, tbyte, tword⟩ := count_remainderKinds (splitBuffer addr len).tail.val
  refine ⟨t, es, hexec, htrace, ?_⟩
  simp only [hkinds, processKinds_eq, List.count_append]
  rw [lreset, lread, lwrite, lbyte, lword, treset, tread, twrite, tbyte, tword, wreset, wread, wwrite, wbyte, wword]
  refine ⟨by omega, by omega, ?_, by omega, by omega, by omega⟩
  split <;> split <;> omega

end Sys2Proof.Machine
end

section
/-! PROOFS. A PROCESS that stops at an unreadable byte is the micro-operations of the pieces before that byte's own
(spec/43_session_commands.md R107, R128). -/

namespace Sys2Proof.Machine

/-! ## Pieces that stop -/

theorem memRead1_readable {a : Addr} {s : State} {b : Byte} (h : Memory.lookup s.mem a.toNat = some b) :
    memRead1 a s = .done b (record (.memRead1 a b) s) := by
  rw [memRead1, h]

theorem memRead1_unreadable {a : Addr} {s : State} (h : Memory.lookup s.mem a.toNat = none) :
    memRead1 a s = .stopped (.busFault a) s := by
  rw [memRead1, h]

/-- Byte reads from the cursor that meet their first unreadable byte at offset `j` stop there, with the bytes before it
read (R33, R107). -/
theorem readSubWord_faults {k : Fin 4} {s : State} {j : Nat} {bs : List Byte} (hj : j < k.val)
    (hk : s.ptr.toNat + k.val ≤ 2 ^ 32) (hbs : bufferBytes s.mem s.ptr.toNat j = some bs)
    (hnone : Memory.lookup s.mem (s.ptr.toNat + j) = none) :
    ∃ t, readSubWord k s = .stopped (.busFault (s.ptr + BitVec.ofNat 32 j)) t ∧
      runsPart [] (List.replicate j .memRead1) s t := by
  rw [← toNat_add_ofNat (by omega)] at hnone
  obtain rfl | rfl | rfl : j = 0 ∨ j = 1 ∨ j = 2 := by omega
  · refine ⟨s, ?_, runsPart_refl s⟩
    rw [BitVec.add_zero] at hnone ⊢
    have h0 := memRead1_unreadable hnone
    match k, hj with
    | 1, _ | 2, _ | 3, _ => simp only [readSubWord, h0, andThen]
  · obtain ⟨d0, -, -, hd0, -⟩ := bufferBytes_succ hbs
    have h0 := memRead1_readable hd0
    have h1 := memRead1_unreadable (s := record (.memRead1 s.ptr d0) s) hnone
    refine ⟨_, ?_, runsPart_memRead1 h0⟩
    match k, hj with
    | 2, _ | 3, _ => simp only [readSubWord, BitVec.ofNat_eq_ofNat, h0, h1, andThen]
  · obtain ⟨d0, bs1, -, hd0, hrest⟩ := bufferBytes_succ hbs
    obtain ⟨d1, -, -, hd1, -⟩ := bufferBytes_succ hrest
    rw [← toNat_add_ofNat (n := 1) (by omega)] at hd1
    have h0 := memRead1_readable hd0
    have h1 := memRead1_readable (s := record (.memRead1 s.ptr d0) s) hd1
    have h2 := memRead1_unreadable
      (s := record (.memRead1 (s.ptr + 1#32) d1) (record (.memRead1 s.ptr d0) s)) hnone
    refine ⟨_, ?_, runsPart_trans (runsPart_memRead1 h0) (runsPart_memRead1 h1)⟩
    match k, hj with
    | 3, _ => simp only [readSubWord, BitVec.ofNat_eq_ofNat, h0, h1, h2, andThen]

/-- A remainder with an unreadable byte has run no fold (R128). -/
theorem processRemainder_faults {k : Fin 4} {s : State} {j : Nat} {bs : List Byte} (hj : j < k.val)
    (hk : s.ptr.toNat + k.val ≤ 2 ^ 32) (hbs : bufferBytes s.mem s.ptr.toNat j = some bs)
    (hnone : Memory.lookup s.mem (s.ptr.toNat + j) = none) :
    ∃ t, processRemainder k s = .stopped (.busFault (s.ptr + BitVec.ofNat 32 j)) t ∧
      runsPart [] (List.replicate j .memRead1) s t := by
  obtain ⟨t, hread, hpart⟩ := readSubWord_faults hj hk hbs hnone
  have hk0 : k ≠ 0 := by
    rintro rfl
    exact Nat.not_lt_zero j hj
  refine ⟨t, ?_, hpart⟩
  rw [processRemainder, if_neg hk0, hread, andThen]

/-- A word run whose first unreadable byte is at offset `j` has run the WORDs before that byte's own (R128). -/
theorem processWords_faults {n : Nat} {s : State} {j : Nat} {bs : List Byte} (hj : j < 4 * n)
    (hle : s.ptr.toNat + 4 * n ≤ 2 ^ 32) (hbs : bufferBytes s.mem s.ptr.toNat j = some bs)
    (hnone : Memory.lookup s.mem (s.ptr.toNat + j) = none) :
    ∃ t, processWords n s = .stopped (.busFault (s.ptr + BitVec.ofNat 32 j)) t ∧
      runsPart (wordOps (j / 4) bs) (wordKinds (j / 4)) s t := by
  induction n generalizing s j bs with
  | zero => omega
  | succ n ih =>
    by_cases hfirst : j < 4
    · have hstop := memRead4_unreadable hfirst (by omega) (fun i hi => lookup_of_bufferBytes hbs hi) hnone
      rw [Nat.div_eq_of_lt hfirst]
      exact ⟨s, by rw [processWords, hstop, andThen], runsPart_refl s⟩
    · obtain ⟨i, rfl⟩ := Nat.exists_eq_add_of_le (Nat.le_of_not_lt hfirst)
      obtain ⟨b0, b1, b2, b3, ys, rfl, hword, hys⟩ := bufferBytes_word hbs
      have hread := memRead4_readable hword (by omega)
      have hfold := foldsAtCursor_word hread (by omega)
      have hptr := foldsAtCursor_ptr hfold (by omega)
      obtain ⟨t, hstop, hpart⟩ := ih (j := i) (bs := ys) (by omega) (by omega)
        (foldsAtCursor_bytes hfold (by omega) hys) (by rw [hptr, Nat.add_assoc]; exact hnone)
      refine ⟨t, ?_, ?_⟩
      · rw [processWords, hread, andThen, hstop, foldsAtCursor_offset hfold]
      · have hdiv : (4 + i) / 4 = i / 4 + 1 := by omega
        rw [hdiv]
        exact runsPart_trans (runsPart_word hread (by omega) hword) hpart

/-! ## A PROCESS that stops -/

/-- A remainder over readable bytes completes. -/
theorem processRemainder_completes {k : Fin 4} {s : State} {bs : List Byte} (hk : s.ptr.toNat + k.val ≤ 2 ^ 32)
    (hbs : bufferBytes s.mem s.ptr.toNat k.val = some bs) : ∃ t, processRemainder k s = .done () t := by
  cases h : processRemainder k s with
  | done a t => exact ⟨t, rfl⟩
  | stopped info t => exact absurd (processRemainder_stopped h hk) (not_unreadableIn hbs)

/-- A word run over readable bytes completes. -/
theorem processWords_completes {n : Nat} {s : State} {bs : List Byte} (hle : s.ptr.toNat + 4 * n ≤ 2 ^ 32)
    (hbs : bufferBytes s.mem s.ptr.toNat (4 * n) = some bs) : ∃ t, processWords n s = .done () t := by
  cases h : processWords n s with
  | done a t => exact ⟨t, rfl⟩
  | stopped info t => exact absurd (processWords_stopped h hle) (not_unreadableIn hbs)

/-- The PROCESS in `s` stops at the byte at offset `j`, after the operations `ops` and events of the kinds `ks`. -/
def stopsAfter (addr : Addr) (len : Len) (s : State) (j : Nat) (ops : List Instr) (ks : List EventKind) : Prop :=
  ∃ t, processBuffer addr len s = .stopped (.busFault (addr + BitVec.ofNat 32 j)) t ∧ runsPart ops ks s t

section
variable {addr : Addr} {len : Len} {s : State} (hle : addr.toNat + len.toNat ≤ 2 ^ 32)
include hle

theorem stopsAfter_inLead {j : Nat} {bs : List Byte} (hj : j < (splitBuffer addr len).lead.val)
    (hbs : bufferBytes s.mem addr.toNat j = some bs) (hnone : Memory.lookup s.mem (addr.toNat + j) = none) :
    stopsAfter addr len s j [] (List.replicate j .memRead1) := by
  have hsum := splitBuffer_sum addr len
  obtain ⟨t, hstop, hpart⟩ := processRemainder_faults (s := { s with ptr := addr, cnt := len }) hj
    (by dsimp only; omega) hbs hnone
  exact ⟨t, by simp only [processBuffer, hstop, andThen], hpart⟩

/-- Over a readable lead a PROCESS gets to its word run. -/
theorem processBuffer_leadCompletes {xs : List Byte}
    (hxs : bufferBytes s.mem addr.toNat (splitBuffer addr len).lead.val = some xs) :
    ∃ s1, processRemainder (splitBuffer addr len).lead { s with ptr := addr, cnt := len } = .done () s1 ∧
      foldsAtCursor (splitBuffer addr len).lead.val { s with ptr := addr, cnt := len } s1 ∧
      runsPart (remainderOps xs) (remainderKinds (splitBuffer addr len).lead.val) s s1 := by
  have hsum := splitBuffer_sum addr len
  have hroom : addr.toNat + (splitBuffer addr len).lead.val ≤ 2 ^ 32 := by omega
  obtain ⟨s1, hlead⟩ := processRemainder_completes (s := { s with ptr := addr, cnt := len }) hroom hxs
  have part := runsPart_processRemainder hlead hroom hxs
  exact ⟨s1, hlead, processRemainder_done hlead hroom, part⟩

theorem stopsAfter_inWords {i : Nat} {xs ys : List Byte} (hi : i < 4 * (splitBuffer addr len).words)
    (hxs : bufferBytes s.mem addr.toNat (splitBuffer addr len).lead.val = some xs)
    (hys : bufferBytes s.mem (addr.toNat + (splitBuffer addr len).lead.val) i = some ys)
    (hnone : Memory.lookup s.mem (addr.toNat + (splitBuffer addr len).lead.val + i) = none) :
    stopsAfter addr len s ((splitBuffer addr len).lead.val + i) (remainderOps xs ++ wordOps (i / 4) ys)
      (remainderKinds (splitBuffer addr len).lead.val ++ wordKinds (i / 4)) := by
  have hsum := splitBuffer_sum addr len
  obtain ⟨s1, hlead, leadFold, lead⟩ := processBuffer_leadCompletes hle hxs
  have hptr := foldsAtCursor_ptr leadFold (by dsimp only; omega)
  have hbytes := foldsAtCursor_bytes leadFold (by dsimp only; omega) hys
  obtain ⟨t, hstop, words⟩ := processWords_faults hi (by dsimp only at hptr; omega) hbytes
    (by rw [hptr, foldsAtCursor_mem leadFold]; exact hnone)
  refine ⟨t, ?_, runsPart_trans lead words⟩
  simp only [processBuffer, hlead, andThen, hstop, foldsAtCursor_offset leadFold]

theorem stopsAfter_inTail {i : Nat} {xs ys : List Byte} (hi : i < (splitBuffer addr len).tail.val)
    (hxs : bufferBytes s.mem addr.toNat (splitBuffer addr len).lead.val = some xs)
    (hys : bufferBytes s.mem (addr.toNat + (splitBuffer addr len).lead.val)
      (4 * (splitBuffer addr len).words + i) = some ys)
    (hnone : Memory.lookup s.mem
      (addr.toNat + (splitBuffer addr len).lead.val + (4 * (splitBuffer addr len).words + i)) = none) :
    stopsAfter addr len s ((splitBuffer addr len).lead.val + (4 * (splitBuffer addr len).words + i))
      (remainderOps xs ++ wordOps (splitBuffer addr len).words ys)
      (remainderKinds (splitBuffer addr len).lead.val ++ wordKinds (splitBuffer addr len).words ++
        List.replicate i .memRead1) := by
  have hsum := splitBuffer_sum addr len
  obtain ⟨s1, hlead, leadFold, lead⟩ := processBuffer_leadCompletes hle hxs
  have hptr1 := foldsAtCursor_ptr leadFold (by dsimp only; omega)
  dsimp only at hptr1
  have hbytes := foldsAtCursor_bytes leadFold (by dsimp only; omega) hys
  obtain ⟨ws, zs, -, hws, hzs⟩ := bufferBytes_split hbytes
  obtain ⟨s2, hwords⟩ := processWords_completes (by omega) hws
  have wordsFold := processWords_done hwords (by omega)
  have hptr2 := foldsAtCursor_ptr wordsFold (by omega)
  obtain ⟨t, hstop, tail⟩ := processRemainder_faults hi (by omega)
    (foldsAtCursor_bytes wordsFold (by omega) hzs)
    (by rw [hptr2, hptr1, foldsAtCursor_mem wordsFold, foldsAtCursor_mem leadFold, Nat.add_assoc _ _ i]; exact hnone)
  have front := runsPart_trans lead (runsPart_processWords hwords (by omega) hbytes)
  refine ⟨t, ?_, List.append_nil (_ ++ _) ▸ runsPart_trans front tail⟩
  simp only [processBuffer, hlead, andThen, hwords, hstop, foldsAtCursor_offset wordsFold,
    foldsAtCursor_offset leadFold]

end

/-! ## The micro-operations before a fault -/

/-- Words cut off behind the run do not matter. -/
theorem wordOps_take (n : Nat) (bs : List Byte) : wordOps n (bs.take (4 * n)) = wordOps n bs := by
  induction n generalizing bs with
  | zero => rfl
  | succ n ih =>
    match bs with
    | [] | [_] | [_, _] | [_, _, _] => rfl
    | b0 :: b1 :: b2 :: b3 :: bs => exact congrArg (List.cons _) (ih bs)

/-- The front of a buffer, its lead and some of its words, splits into these (R103). -/
theorem splitBuffer_front {addr : Addr} {len : Len} {q : Nat} (hq : q ≤ (splitBuffer addr len).words) :
    (splitBuffer addr (BitVec.ofNat 32 ((splitBuffer addr len).lead.val + 4 * q))).lead.val =
      (splitBuffer addr len).lead.val ∧
    (splitBuffer addr (BitVec.ofNat 32 ((splitBuffer addr len).lead.val + 4 * q))).words = q := by
  have hsum := splitBuffer_sum addr len
  have hlen := len.isLt
  have hfront : (BitVec.ofNat 32 ((splitBuffer addr len).lead.val + 4 * q)).toNat =
      (splitBuffer addr len).lead.val + 4 * q := Nat.mod_eq_of_lt (by omega)
  have hlead : leadBytes addr (BitVec.ofNat 32 ((splitBuffer addr len).lead.val + 4 * q)) =
      (splitBuffer addr len).lead.val := by
    have haligned := splitBuffer_aligned addr len
    have hval := splitBuffer_lead addr len
    rw [leadBytes] at hval
    rw [leadBytes, hfront]
    omega
  refine ⟨(splitBuffer_lead _ _).trans hlead, ?_⟩
  rw [splitBuffer_words, hfront, hlead]
  omega

/-- The micro-operations of the front of a buffer. -/
theorem processOps_front {addr : Addr} {len : Len} {q : Nat} {xs : List Byte} (ys : List Byte)
    (hxs : xs.length = (splitBuffer addr len).lead.val) (hq : q ≤ (splitBuffer addr len).words) :
    processOps addr (BitVec.ofNat 32 ((splitBuffer addr len).lead.val + 4 * q))
      ((xs ++ ys).take ((splitBuffer addr len).lead.val + 4 * q)) = remainderOps xs ++ wordOps q ys := by
  obtain ⟨hlead, hwords⟩ := splitBuffer_front hq
  have htake : (xs ++ ys).take ((splitBuffer addr len).lead.val + 4 * q) = xs ++ ys.take (4 * q) := by
    rw [← hxs, List.take_length_add_append]
  rw [htake, processOps_append _ (hxs.trans hlead.symm), hwords, wordOps_take, List.drop_take_self]
  exact List.append_nil _

theorem processOps_nil (addr : Addr) : processOps addr 0 [] = [] := by
  rw [processOps, splitBuffer_zero]
  rfl

section
variable (addr : Addr) (len : Len)

theorem foldedBefore_inWords {i : Nat} (hi : i < 4 * (splitBuffer addr len).words) :
    foldedBefore addr len ((splitBuffer addr len).lead.val + i) = (splitBuffer addr len).lead.val + 4 * (i / 4) := by
  simp [foldedBefore, hi]

theorem foldedBefore_inTail (i : Nat) :
    foldedBefore addr len ((splitBuffer addr len).lead.val + (4 * (splitBuffer addr len).words + i)) =
      (splitBuffer addr len).lead.val + 4 * (splitBuffer addr len).words := by
  simp [foldedBefore]

theorem busFaultKinds_inWords {i : Nat} (hi : i < 4 * (splitBuffer addr len).words) :
    busFaultKinds addr len ((splitBuffer addr len).lead.val + i) =
      remainderKinds (splitBuffer addr len).lead.val ++ wordKinds (i / 4) := by
  simp [busFaultKinds, wordKinds, hi]

theorem busFaultKinds_inTail (i : Nat) :
    busFaultKinds addr len ((splitBuffer addr len).lead.val + (4 * (splitBuffer addr len).words + i)) =
      remainderKinds (splitBuffer addr len).lead.val ++ wordKinds (splitBuffer addr len).words ++
        List.replicate i .memRead1 := by
  simp [busFaultKinds, wordKinds, Nat.add_sub_add_left]

end

/-- A PROCESS whose first unreadable byte is at offset `j` has run the pieces before that byte's own (R128). -/
theorem processBuffer_faults {addr : Addr} {len : Len} {s : State} {j : Nat} {bs : List Byte}
    (hle : addr.toNat + len.toNat ≤ 2 ^ 32) (hj : j < len.toNat) (hbs : bufferBytes s.mem addr.toNat j = some bs)
    (hnone : Memory.lookup s.mem (addr.toNat + j) = none) :
    stopsAfter addr len s j
      (processOps addr (BitVec.ofNat 32 (foldedBefore addr len j)) (bs.take (foldedBefore addr len j)))
      (busFaultKinds addr len j) := by
  have hsum := splitBuffer_sum addr len
  by_cases hlead : j < (splitBuffer addr len).lead.val
  · have hfolded : foldedBefore addr len j = 0 := if_pos hlead
    have hkinds : busFaultKinds addr len j = List.replicate j .memRead1 := if_pos hlead
    have hops : processOps addr (BitVec.ofNat 32 0) (bs.take 0) = [] := processOps_nil addr
    rw [hfolded, hkinds, hops]
    exact stopsAfter_inLead hle hlead hbs hnone
  obtain ⟨i, rfl⟩ := Nat.exists_eq_add_of_le (Nat.le_of_not_lt hlead)
  obtain ⟨xs, ys, rfl, hxs, hys⟩ := bufferBytes_split hbs
  have hlen := length_of_bufferBytes hxs
  rw [← Nat.add_assoc] at hnone
  by_cases hwords : i < 4 * (splitBuffer addr len).words
  · rw [foldedBefore_inWords addr len hwords, busFaultKinds_inWords addr len hwords,
      processOps_front ys hlen (by omega)]
    exact stopsAfter_inWords hle hwords hxs hys hnone
  · obtain ⟨k, rfl⟩ := Nat.exists_eq_add_of_le (Nat.le_of_not_lt hwords)
    rw [foldedBefore_inTail, busFaultKinds_inTail, processOps_front ys hlen (Nat.le_refl _)]
    exact stopsAfter_inTail hle (by omega) hxs hys hnone

/-! ## The whole command -/

/-- In an open session a PROCESS that stops at a read ends in the fault entry (R123). -/
theorem process_stops {addr : Addr} {len : Len} {s t : State} {info : FaultInfo} (hs : s.fault = 0)
    (hp : s.phase = .OPEN) (hle : addr.toNat + len.toNat ≤ 2 ^ 32)
    (hx : processBuffer addr len s = .stopped info t) :
    exec (.process addr len) s = .next (raise info t) := by
  refine congrArg Host.Outcome.next ?_
  rcases processBody_cases addr len s with ⟨hc, -⟩ | ⟨-, hr, -⟩ | ⟨-, -, e⟩
  · exact nomatch hp.symm.trans hc
  · exact absurd hle (Nat.not_le_of_lt hr)
  · rw [hostCommand_of_noFault hs, e, hx, endProcess]

/-- The operations of a part, run in the state where it started. -/
theorem execAll_of_runsPart {ops : List Instr} {ks : List EventKind} {s t : State} (h : runsPart ops ks s t) :
    ∃ u es, execAll ops s = .next u ∧ t.reg = u.reg ∧ t.corr = u.corr ∧
      t.trace = s.trace ++ es ∧ u.trace = s.trace ++ es.filter isEngineEvent := by
  obtain ⟨es, htrace, -, -, -, hops⟩ := h
  obtain ⟨u, hu, hreg, hcorr, utrace⟩ := hops s rfl rfl
  exact ⟨u, es, hu, hreg, hcorr, htrace, utrace⟩

/-- Settles O41: completed or stopped, the three steps of a PROCESS are a part that runs the micro-operations of the
bytes folded. -/
theorem processRunsItsMicroOperations : Obligations.ProcessRunsItsMicroOperations := by
  refine ⟨fun s addr len bs hs hp hbs => ?_, fun s addr len j bs hs hp hle hj hbs hnone => ?_⟩
  · obtain ⟨t, hx, hexec⟩ := process_completes hs hp hbs
    obtain ⟨u, es, hrun⟩ := execAll_of_runsPart (runsPart_processBuffer hx hbs)
    exact ⟨respond 0 0 t, u, es, hexec, hrun⟩
  · obtain ⟨t, hx, hpart⟩ := processBuffer_faults hle hj hbs hnone
    obtain ⟨u, es, hrun⟩ := execAll_of_runsPart hpart
    exact ⟨raise _ t, u, es, process_stops hs hp hle hx, hrun⟩

end Sys2Proof.Machine
end

section
/-! PROOFS. The net effect of a PROCESS (spec/43_session_commands.md R102, R108): the true CRC, the final `CORR` by cases,
and the frame. -/

namespace Sys2Proof.Machine

/-! ## The deferred bits each piece leaves -/

/-- A remainder defers the low bits of the true CRC before it (R92); an empty one is skipped. -/
theorem processRemainder_corr {k : Fin 4} {s t : State} (h : processRemainder k s = .done () t)
    (hk : s.ptr.toNat + k.val ≤ 2 ^ 32) :
    t.corr = if 0 < k.val then trueCrc s <<< (8 * k.val) else s.corr := by
  unfold processRemainder at h
  split at h
  · rename_i h0
    obtain ⟨-, rfl⟩ := Access.done.inj h
    rw [h0]
    rfl
  · rename_i h0
    have hpos : 0 < k.val := Nat.pos_of_ne_zero (Fin.val_ne_of_ne h0)
    obtain ⟨d, s1, hread, h⟩ := andThen_done h
    obtain ⟨-, hcount, hs1⟩ := readSubWord_done hread hk
    obtain ⟨-, rfl⟩ := Access.done.inj h
    have hd : d ≠ .zero := by
      rintro rfl
      exact hpos.ne hcount
    rw [if_pos hpos, advance_corr, foldSubWord_corr hd, hcount, hs1]
    rfl

/-- Every WORD clears `CORR` (R97); an empty run leaves it. -/
theorem processWords_corr {n : Nat} {s t : State} (h : processWords n s = .done () t) :
    t.corr = if 0 < n then 0 else s.corr := by
  induction n generalizing s with
  | zero =>
    obtain ⟨-, rfl⟩ := Access.done.inj h
    rfl
  | succ n ih =>
    obtain ⟨w, s1, -, h⟩ := andThen_done h
    rw [ih h, advance_corr, foldWord_corr, ite_self, if_pos n.succ_pos]

/-- The last piece that is not empty leaves its `CORR` (R108). -/
theorem processBuffer_corr {addr : Addr} {len : Len} {s t : State} {bs : List Byte}
    (h : processBuffer addr len s = .done () t) (hbs : bufferHolds s.mem addr len bs) :
    t.corr =
      if 0 < (splitBuffer addr len).tail.val then
        crcBytes (trueCrc s) (bs.take (len.toNat - (splitBuffer addr len).tail.val))
          <<< (8 * (splitBuffer addr len).tail.val)
      else if 0 < (splitBuffer addr len).words then 0
      else if 0 < (splitBuffer addr len).lead.val then trueCrc s <<< (8 * (splitBuffer addr len).lead.val)
      else s.corr := by
  obtain ⟨hle, hbytes⟩ := hbs
  have hsum := splitBuffer_sum addr len
  obtain ⟨⟨⟩, s1, hlead, h⟩ := andThen_done h
  obtain ⟨⟨⟩, s2, hwords, htail⟩ := andThen_done h
  obtain ⟨-, -, wordsRoom⟩ := processBuffer_afterLead hlead hle
  obtain ⟨-, -, tailRoom⟩ := processBuffer_afterWords hlead hwords hle
  have lead := processRemainder_done hlead (by dsimp only; omega)
  obtain ⟨-, -, xs, hxs, hcrc⟩ := foldsAtCursor_trans lead (processWords_done hwords wordsRoom)
    (by dsimp only; omega)
  have hfront : bs.take (len.toNat - (splitBuffer addr len).tail.val) = xs := by
    rw [hsum] at hbytes
    obtain ⟨xs', zs, rfl, hxs', -⟩ := bufferBytes_split hbytes
    obtain rfl : xs' = xs := Option.some.inj (hxs'.symm.trans hxs)
    exact List.take_left' ((length_of_bufferBytes hxs').trans (by omega))
  rw [processRemainder_corr htail tailRoom, hcrc, hfront, processWords_corr hwords,
    processRemainder_corr hlead (by dsimp only; omega)]
  rfl

/-- Settles O39: the net effect of the three steps, the last non-empty piece for `CORR`, and what surrounds a PROCESS. -/
theorem processNetEffect : Obligations.ProcessNetEffect := by
  intro s addr len bs hs hp hbs
  obtain ⟨u, hx, hexec⟩ := process_completes hs hp hbs
  have hcorr := processBuffer_corr hx hbs
  obtain ⟨hle, hbytes⟩ := hbs
  obtain ⟨bs', ⟨-, hbytes'⟩, hcrc⟩ := processBuffer_done hx hle
  obtain rfl : bs' = bs := Option.some.inj (hbytes'.symm.trans hbytes)
  have hkeeps := keepsSurround_processBuffer addr len s
  rw [hx] at hkeeps
  obtain ⟨hphase, hfault, hinfo, hmem, hinputs, hresponses, hfresh, -⟩ := hkeeps
  refine ⟨respond 0 0 u, hexec, hcrc, fun hlen => ?_, fun htail hwords => ?_, fun htail => ?_,
    fun hwords htail hlead => ?_, hphase.trans hp, hfault.trans hs, hinfo, hmem, hinputs, hfresh,
    congrArg (· ++ [_]) hresponses⟩
  · subst hlen
    rwa [splitBuffer_zero] at hcorr
  · rwa [htail, if_neg (Nat.lt_irrefl 0), if_pos hwords] at hcorr
  · rwa [if_pos htail] at hcorr
  · rwa [htail, hwords, if_neg (Nat.lt_irrefl 0), if_neg (Nat.lt_irrefl 0), if_pos hlead] at hcorr

end Sys2Proof.Machine
end

section
/-! PROOFS. Whole sessions (spec/43_session_commands.md R112 to R114): one step per command, from START to FINISH. -/

namespace Sys2Proof.Machine

/-- A step on a host command at the head of the queue runs it. -/
theorem step_commandInput {s : State} {i : Instr} {rest : List Input} (hi : isHostCommand i = true)
    (hin : s.inputs = commandInput i :: rest) : step s = exec i { s with inputs := rest } := by
  obtain ⟨c, hc, -⟩ := decodeCommand_of_encode hi
  refine stepRunsDecodedOperation s (encode i) rest i hin (decodeOfEncode i) fun r hr => ?_
  exact nomatch hc.symm.trans hr

/-- What a host sends after START (R143). -/
def commandsAfterStart (buffers : List (Addr × Len)) : List Input :=
  (buffers.map fun b => commandInput (.process b.1 b.2)) ++ [commandInput .finish]

theorem commandsAfterStart_cons (b : Addr × Len) (buffers : List (Addr × Len)) :
    commandsAfterStart (b :: buffers) = commandInput (.process b.1 b.2) :: commandsAfterStart buffers := rfl

theorem sessionInputs_eq (seed : Word) (buffers : List (Addr × Len)) :
    sessionInputs seed buffers = commandInput (.start seed) :: commandsAfterStart buffers := rfl

/-- START at the head of the queue opens a session whose true CRC is the seed (R100, R101). -/
theorem session_starts {s : State} {seed : Word} {rest : List Input} (hs : s.fault = 0)
    (hin : s.inputs = commandInput (.start seed) :: rest) :
    ∃ t, step s = .next t ∧ t.fault = 0 ∧ t.phase = .OPEN ∧ t.inputs = rest ∧ t.mem = s.mem ∧
      t.reg ^^^ t.corr = seed ∧ t.responses = s.responses ++ [⟨0, 0⟩] := by
  obtain ⟨hexec, hseed⟩ := startResult { s with inputs := rest } seed hs
  exact ⟨_, (step_commandInput rfl hin).trans hexec, hs, rfl, rfl, rfl, hseed, rfl⟩

/-- The rest of a session, from any point between two commands: the remaining buffers extend the true CRC, which FINISH
returns. -/
theorem session_finishes {s : State} {buffers : List (Addr × Len)} {contents : List (List Byte)}
    {rest : List Input} (hs : s.fault = 0) (hp : s.phase = .OPEN)
    (hin : s.inputs = commandsAfterStart buffers ++ rest) (hbufs : buffersHold s.mem buffers contents) :
    ∃ t, runSteps (buffers.length + 1) s = .next t ∧ t.inputs = rest ∧ t.phase = .CLOSED ∧ t.fault = 0 ∧
      t.responses = s.responses ++ List.replicate buffers.length ⟨0, 0⟩ ++
        [⟨0, crcBytes (s.reg ^^^ s.corr) contents.flatten⟩] := by
  induction buffers generalizing s contents with
  | nil =>
    obtain rfl := List.forall₂_nil_left_iff.mp hbufs
    have hstep := (step_commandInput rfl hin).trans (finishResult { s with inputs := rest } hs hp)
    refine ⟨_, runSteps_succ 0 hstep, rfl, rfl, hs, ?_⟩
    rw [List.length_nil, List.replicate_zero, List.append_nil]
    rfl
  | cons b buffers ih =>
    obtain ⟨bs, contents', hb, hbufs', rfl⟩ := List.forall₂_cons_left_iff.mp hbufs
    rw [commandsAfterStart_cons] at hin
    obtain ⟨t, hexec, hcrc, -, -, -, -, tphase, tfault, -, tmem, tinputs, -, tresponses⟩ :=
      processNetEffect { s with inputs := commandsAfterStart buffers ++ rest } b.1 b.2 bs hs hp hb
    have hstep := (step_commandInput rfl hin).trans hexec
    obtain ⟨u, hrun, uinputs, uphase, ufault, uresponses⟩ := ih tfault tphase tinputs (tmem ▸ hbufs')
    refine ⟨u, (runSteps_succ _ hstep).trans hrun, uinputs, uphase, ufault, ?_⟩
    rw [uresponses, tresponses, hcrc, List.flatten_cons, crcBytes_append, List.length_cons, List.replicate_succ]
    simp only [List.append_assoc, List.cons_append, List.nil_append]

/-- Settles O57: START opens the session with the seed as true CRC, and the rest of it returns the CRC of the bytes. -/
theorem sessionReferenceEquivalence : Obligations.SessionReferenceEquivalence := by
  intro s seed buffers contents rest hs hin hbufs
  rw [sessionInputs_eq] at hin
  obtain ⟨s1, hstep, hfault, hphase, hinputs, hmem, hseed, hresponses⟩ := session_starts hs hin
  obtain ⟨t, hrun, tinputs, tphase, tfault, tresponses⟩ :=
    session_finishes hfault hphase hinputs (hmem ▸ hbufs)
  refine ⟨t, (runSteps_succ _ hstep).trans hrun, tinputs, tphase, tfault, ?_⟩
  rw [tresponses, hresponses, hseed, List.replicate_succ]
  simp only [List.append_assoc, List.cons_append, List.nil_append]

/-- Settles O58: both FINISH commands return the reference CRC of the same bytes. -/
theorem splittingAndAlignmentInvariance : Obligations.SplittingAndAlignmentInvariance := by
  intro s s' seed buffers buffers' contents contents' rest rest' hs hs' hin hin' hbufs hbufs' hbytes
  obtain ⟨t, hrun, -, -, -, hresponses⟩ :=
    sessionReferenceEquivalence s seed buffers contents rest hs hin hbufs
  obtain ⟨t', hrun', -, -, -, hresponses'⟩ :=
    sessionReferenceEquivalence s' seed buffers' contents' rest' hs' hin' hbufs'
  refine ⟨t, t', crcBytes seed contents.flatten, hrun, hrun', ?_, ?_⟩
  · rw [hresponses, List.getLast?_concat]
  · rw [hresponses', List.getLast?_concat, hbytes]

end Sys2Proof.Machine
end

section
/-! PROOFS. Every step keeps the invariant (spec/60_exceptions.md R120, R123; spec/30_encoding.md R51; spec/20_memory.md
R34, R36): what an operation does to memory, to `FAULT`, to the responses and to the word reads of the trace. -/

namespace Sys2Proof.Machine

/-! ## The reads of a PROCESS, completed or stopped -/

/-- `t` is after a part of a PROCESS that started in `s` and read some of the `n` bytes from `a` up, from the first on. -/
def readsUpTo (a n : Nat) (s t : State) : Prop := ∃ k ≤ n, readsFrom a k s t

theorem readsUpTo_of_readsFrom {a n : Nat} {s t : State} (h : readsFrom a n s t) : readsUpTo a n s t :=
  ⟨n, Nat.le_refl n, h⟩

theorem readsUpTo_refl (a n : Nat) (s : State) : readsUpTo a n s s := ⟨0, Nat.zero_le n, readsFrom_refl a s⟩

/-- What has been read stays read through a part that reads on. -/
theorem readsUpTo_trans {a n k : Nat} {s t u : State} (h : readsFrom a n s t) (g : readsUpTo (a + n) k t u) :
    readsUpTo a (n + k) s u := by
  obtain ⟨m, hm, hread⟩ := g
  exact ⟨n + m, Nat.add_le_add_left hm n, readsFrom_trans h hread⟩

/-- A sequence that stops in its first part has read up to there; otherwise its second part reads on. -/
theorem readsUpTo_andThen {α β : Type} {a n k : Nat} {s : State} {x : Access α} {f : α → State → Access β}
    (hx : readsUpTo a n s (accessState x))
    (hf : ∀ b t, x = .done b t → readsUpTo a (n + k) s (accessState (f b t))) :
    readsUpTo a (n + k) s (accessState (andThen x f)) := by
  cases x with
  | done b t => exact hf b t rfl
  | stopped info t =>
    obtain ⟨m, hm, hread⟩ := hx
    exact ⟨m, Nat.le_add_right_of_le hm, hread⟩

/-- The next part starts at an offset that does not wrap, or reads nothing. -/
theorem readsUpTo_offset {p : Addr} {n k : Nat} {s t : State} (hle : p.toNat + n + k ≤ 2 ^ 32)
    (h : readsUpTo (p + BitVec.ofNat 32 n).toNat k s t) : readsUpTo (p.toNat + n) k s t := by
  obtain ⟨m, hm, hread⟩ := h
  exact ⟨m, hm, readsFrom_offset (by omega) hread⟩

theorem readsUpTo_memRead1 (p : Addr) (s : State) : readsUpTo p.toNat 1 s (accessState (memRead1 p s)) := by
  rcases memRead1_cases p s with ⟨b, -, h⟩ | ⟨-, h⟩ <;> rw [h]
  · exact readsUpTo_of_readsFrom (readsFrom_memRead1 h)
  · exact readsUpTo_refl _ _ s

theorem readsUpTo_memRead4 {p : Addr} (hp : p.toNat % 4 = 0) (s : State) :
    readsUpTo p.toNat 4 s (accessState (memRead4 p s)) := by
  rcases memRead4_cases p s with ⟨b0, b1, b2, b3, -, -, -, -, h⟩ | ⟨j, -, -, -, h⟩ <;> rw [h]
  · exact readsUpTo_of_readsFrom (readsFrom_memRead4 h hp)
  · exact readsUpTo_refl _ _ s

/-- The byte read at `a`, and what follows it. -/
theorem readsUpTo_byteThen {β : Type} {q : Addr} {a : Nat} (k : Nat) {s : State} {f : Byte → State → Access β}
    (hq : q.toNat = a) (hf : ∀ b t, readsUpTo (a + 1) k t (accessState (f b t))) :
    readsUpTo a (1 + k) s (accessState (andThen (memRead1 q s) f)) := by
  subst hq
  exact readsUpTo_andThen (readsUpTo_memRead1 q s) fun b t h => readsUpTo_trans (readsFrom_memRead1 h) (hf b t)

theorem readsUpTo_readSubWord {k : Fin 4} {s : State} (hk : s.ptr.toNat + k.val ≤ 2 ^ 32) :
    readsUpTo s.ptr.toNat k.val s (accessState (readSubWord k s)) := by
  match k with
  | 0 => exact readsUpTo_refl _ _ s
  | 1 => exact readsUpTo_byteThen 0 rfl fun _ t => readsUpTo_refl _ 0 t
  | 2 =>
    exact readsUpTo_byteThen 1 rfl fun _ _ =>
      readsUpTo_byteThen 0 (toNat_add_ofNat hk) fun _ u => readsUpTo_refl _ 0 u
  | 3 =>
    exact readsUpTo_byteThen 2 rfl fun _ _ =>
      readsUpTo_byteThen 1 (toNat_add_ofNat (Nat.le_of_succ_le hk)) fun _ _ =>
        readsUpTo_byteThen 0 (toNat_add_ofNat hk) fun _ v => readsUpTo_refl _ 0 v

theorem readsUpTo_processRemainder {k : Fin 4} {s : State} (hk : s.ptr.toNat + k.val ≤ 2 ^ 32) :
    readsUpTo s.ptr.toNat k.val s (accessState (processRemainder k s)) := by
  unfold processRemainder
  split
  · exact readsUpTo_refl _ _ s
  · refine readsUpTo_andThen (k := 0) (readsUpTo_readSubWord hk) fun d t h => readsUpTo_of_readsFrom ?_
    exact readsFrom_trans (readsFrom_readSubWord h hk)
      (readsFrom_trans (readsFrom_foldSubWord _ d t) (readsFrom_advance _ _ _))

theorem readsUpTo_processWords {n : Nat} {s : State} (hle : s.ptr.toNat + 4 * n ≤ 2 ^ 32)
    (halign : n ≠ 0 → s.ptr.toNat % 4 = 0) :
    readsUpTo s.ptr.toNat (4 * n) s (accessState (processWords n s)) := by
  induction n generalizing s with
  | zero => exact readsUpTo_refl _ _ s
  | succ n ih =>
    have hp := halign (Nat.succ_ne_zero n)
    rw [Nat.mul_succ, Nat.add_comm (4 * n)] at hle ⊢
    refine readsUpTo_andThen (readsUpTo_memRead4 hp s) fun w t h => ?_
    have word := readsFrom_trans (readsFrom_memRead4 h hp)
      (readsFrom_trans (readsFrom_foldWord _ (bswap32 w) t) (readsFrom_advance _ 4 _))
    have hfold := foldsAtCursor_word h (word_inRange_of_aligned hp)
    have hroom := foldsAtCursor_room (k := 4 * n) hfold (by omega)
    obtain ⟨-, hptr, -⟩ := hfold
    have rest := ih hroom fun hn => by
      rw [hptr, toNat_add_ofNat (by omega)]
      omega
    rw [hptr] at rest
    exact readsUpTo_trans word (readsUpTo_offset (by omega) rest)

/-- The three steps of a PROCESS, completed or stopped, read the buffer in order from its first byte up, as far as they
get (R36, R37). -/
theorem readsUpTo_processBuffer {addr : Addr} {len : Len} (s : State) (hle : addr.toNat + len.toNat ≤ 2 ^ 32) :
    readsUpTo addr.toNat len.toNat s (accessState (processBuffer addr len s)) := by
  have hsum := splitBuffer_sum addr len
  have lead : readsUpTo addr.toNat (splitBuffer addr len).lead.val s (accessState (processRemainder
      (splitBuffer addr len).lead { s with ptr := addr, cnt := len })) :=
    readsUpTo_processRemainder (by dsimp only; omega)
  rw [hsum, Nat.add_assoc]
  refine readsUpTo_andThen lead fun ⟨⟩ s1 hlead => ?_
  obtain ⟨-, hptr1, wordsRoom⟩ := processBuffer_afterLead hlead hle
  have leadRead : readsFrom addr.toNat (splitBuffer addr len).lead.val s s1 :=
    readsFrom_processRemainder hlead (by dsimp only; omega)
  have halign : (splitBuffer addr len).words ≠ 0 → s1.ptr.toNat % 4 = 0 := fun hw => by
    rw [hptr1, toNat_add_ofNat (by omega)]
    exact splitBuffer_aligned addr len hw
  have words := readsUpTo_processWords wordsRoom halign
  rw [hptr1] at words
  refine readsUpTo_trans leadRead
    (readsUpTo_andThen (readsUpTo_offset (by omega) words) fun ⟨⟩ s2 hwords => ?_)
  obtain ⟨-, hptr2, tailRoom⟩ := processBuffer_afterWords hlead hwords hle
  have wordsRead := readsFrom_processWords hwords wordsRoom halign
  have tail := readsUpTo_processRemainder tailRoom
  rw [hptr1] at wordsRead
  rw [hptr2] at tail
  refine readsUpTo_trans (readsFrom_offset (by omega) wordsRead) ?_
  rw [Nat.add_assoc]
  exact readsUpTo_offset (by omega) tail

/-- The word reads of a PROCESS, completed or stopped, are aligned (R36). -/
theorem wordReadsAligned_processBuffer {addr : Addr} {len : Len} (s : State)
    (hle : addr.toNat + len.toNat ≤ 2 ^ 32) (hs : wordReadsAligned s.trace) :
    wordReadsAligned (accessState (processBuffer addr len s)).trace := by
  obtain ⟨n, -, -, es, htrace, -, halign, -⟩ := readsUpTo_processBuffer s hle
  rw [htrace]
  exact fun p w hw => (List.mem_append.mp hw).elim (hs p w) (halign p w)

/-! ## What an operation does to each part of the invariant -/

/-- No operation writes memory (R31). -/
theorem exec_mem {i : Instr} {s t : State} (h : exec i s = .next t) : t.mem = s.mem := by
  cases hi : isHostCommand i with
  | false => rw [exec_frame_of_not_hostCommand hi h]
  | true =>
    cases i with
    | start seed => rw [← Host.Outcome.next.inj h, hostCommand_start_frame]
    | process addr len =>
      obtain rfl := Host.Outcome.next.inj h
      obtain ⟨-, -, -, hmem⟩ := hostCommand_process_keeps addr len s
      exact hmem
    | finish => rw [← Host.Outcome.next.inj h, hostCommand_finish_frame]
    | _ => exact nomatch hi

/-- `FAULT` holds the code of the recorded fault (R120, R123). -/
def faultRecorded (s : State) : Prop := s.fault = recordedCode s.faultInfo

theorem faultRecorded_raise (info : FaultInfo) (s : State) : faultRecorded (raise info s) := rfl

section
variable {s : State} (hs : faultRecorded s)
include hs

theorem faultRecorded_hostCommand {body : State → State} (hbody : faultRecorded (body s)) :
    faultRecorded (hostCommand body s) := by
  rcases hostCommand_cases body s with ⟨-, e⟩ | ⟨-, e⟩ <;> rw [e]
  · exact hs
  · exact hbody

theorem faultRecorded_processBody (addr : Addr) (len : Len) : faultRecorded (processBody addr len s) := by
  rcases processBody_cases addr len s with ⟨-, e⟩ | ⟨-, -, e⟩ | ⟨-, -, e⟩ <;> rw [e]
  · exact faultRecorded_raise _ s
  · exact faultRecorded_raise _ s
  · obtain ⟨-, hfault, hinfo, -⟩ := keepsSurround_processBuffer addr len s
    cases hx : processBuffer addr len s with
    | stopped info u => exact faultRecorded_raise info u
    | done a u =>
      rw [hx] at hfault hinfo
      exact hfault.trans (hs.trans (congrArg recordedCode hinfo.symm))

theorem faultRecorded_finishBody : faultRecorded (finishBody s) := by
  rcases finishBody_cases s with ⟨-, e⟩ | ⟨-, e⟩ <;> rw [e]
  · exact faultRecorded_raise _ s
  · exact hs

theorem exec_faultRecorded {i : Instr} {t : State} (h : exec i s = .next t) : faultRecorded t := by
  cases hi : isHostCommand i with
  | false =>
    rw [exec_frame_of_not_hostCommand hi h]
    exact hs
  | true =>
    cases i with
    | start seed => exact Host.Outcome.next.inj h ▸ faultRecorded_hostCommand hs (body := startBody seed) hs
    | process addr len =>
      exact Host.Outcome.next.inj h ▸ faultRecorded_hostCommand hs (faultRecorded_processBody hs addr len)
    | finish => exact Host.Outcome.next.inj h ▸ faultRecorded_hostCommand hs (faultRecorded_finishBody hs)
    | _ => exact nomatch hi

end

theorem toNat_recordedCode_le (info : Option FaultInfo) : (recordedCode info).toNat ≤ 4 := by
  cases info with
  | none => decide
  | some info => cases info <;> simp [recordedCode, faultCode]

/-- Every response is one R51 allows. -/
def responsesLegal (s : State) : Prop := ∀ r ∈ s.responses, responseLegal r

/-- A response under the code that `FAULT` then holds, with a value under status 0 only, is legal (R51). -/
theorem responsesLegal_answersOnce {result : Word → Prop} {s t : State} (hs : responsesLegal s)
    (ht : faultRecorded t) (h : answersOnce result s t) : responsesLegal t := by
  obtain ⟨r, hresponses, hstatus, hvalue⟩ := h
  have hr : responseLegal r := by
    refine ⟨?_, fun hne => by_contra fun hv => ?_⟩
    · rw [hstatus, ht]
      exact toNat_recordedCode_le _
    · obtain ⟨h0, -⟩ := hvalue hv
      exact hne h0
  intro q hq
  rw [hresponses] at hq
  rcases List.mem_append.mp hq with hq | hq
  · exact hs q hq
  · exact List.mem_singleton.mp hq ▸ hr

theorem exec_responsesLegal {i : Instr} {s t : State} (hs : responsesLegal s) (ht : faultRecorded t)
    (h : exec i s = .next t) : responsesLegal t := by
  obtain ⟨hhost, hother⟩ := oneResponsePerHostCommand i s t h
  cases hi : isHostCommand i with
  | true => exact responsesLegal_answersOnce (result := fun v => i = .finish ∧ v = s.reg ^^^ s.corr) hs ht (hhost hi)
  | false =>
    rw [responsesLegal, hother hi]
    exact hs

theorem wordReadsAligned_processBody {addr : Addr} {len : Len} {s : State} (hs : wordReadsAligned s.trace) :
    wordReadsAligned (processBody addr len s).trace := by
  rcases processBody_cases addr len s with ⟨-, e⟩ | ⟨-, -, e⟩ | ⟨-, hle, e⟩ <;> rw [e]
  · exact hs
  · exact hs
  · have h := wordReadsAligned_processBuffer s hle hs
    cases hx : processBuffer addr len s <;> rw [hx] at h <;> exact h

/-- Only a PROCESS reads words, and all of its own are aligned (R30, R36). -/
theorem exec_wordReadsAligned {i : Instr} {s t : State} (hs : wordReadsAligned s.trace)
    (h : exec i s = .next t) : wordReadsAligned t.trace := by
  by_cases hi : i.mnemonic = .process
  · cases i with
    | process addr len =>
      obtain rfl := Host.Outcome.next.inj h
      rcases hostCommand_cases (processBody addr len) s with ⟨-, e⟩ | ⟨-, e⟩ <;> rw [e]
      · exact hs
      · exact wordReadsAligned_processBody hs
    | _ => exact nomatch hi
  · obtain ⟨es, htrace, hes⟩ := exec_addsKinds h
    obtain ⟨-, -, -, hreads⟩ := mnemonic_of_issuedKinds i.mnemonic
    rw [htrace]
    intro p w hw
    rcases List.mem_append.mp hw with hw | hw
    · exact hs p w hw
    · exact absurd (hreads (.inr (hes _ hw))) hi

/-! ## Steps -/

/-- An operation keeps the invariant. -/
theorem inv_exec {i : Instr} {s t : State} (hs : s.Inv) (h : exec i s = .next t) : t.Inv := by
  obtain ⟨hmem, hfault, hresponses, hreads⟩ := hs
  have ht : faultRecorded t := exec_faultRecorded hfault h
  exact ⟨exec_mem h ▸ hmem, ht, exec_responsesLegal hresponses ht h, exec_wordReadsAligned hreads h⟩

theorem inv_illegalCommand {s : State} (c : BitVec 96) (hs : s.Inv) : (illegalCommand c s).Inv := by
  obtain ⟨hmem, hfault, hresponses, hreads⟩ := hs
  have hrecorded : faultRecorded (illegalCommand c s) := faultRecorded_hostCommand hfault (faultRecorded_raise _ s)
  have hanswer : answersOnce (fun _ => True) s (illegalCommand c s) :=
    answersOnce_hostCommand fun _ => answersOnce_raise _ rfl
  have hlegal : responsesLegal (illegalCommand c s) := responsesLegal_answersOnce hresponses hrecorded hanswer
  refine ⟨?_, hrecorded, hlegal, ?_⟩
  all_goals
    rw [illegalCommand]
    rcases hostCommand_cases (raise (.illegalCommand c)) s with ⟨-, e⟩ | ⟨-, e⟩ <;> rw [e] <;> assumption

/-- A hardware reset forgets the recorded fault (R140). -/
theorem inv_hardwareReset {s : State} (hs : s.Inv) : (hardwareReset s).Inv := by
  obtain ⟨hmem, -, hresponses, hreads⟩ := hs
  exact ⟨hmem, rfl, hresponses, hreads⟩

/-- The word reads of a command that a reset may cut short are aligned. -/
theorem wordReadsAligned_commandEvents {s : State} (c : BitVec 96) (hs : s.Inv) :
    wordReadsAligned (commandEvents c s) := by
  cases hd : decodeCommand c with
  | error e =>
    simp only [commandEvents, hd]
    exact nofun
  | ok i =>
    obtain ⟨t, hx⟩ := exec_answers i s
    obtain ⟨-, -, -, hreads⟩ := inv_exec hs hx
    obtain ⟨es, htrace, -⟩ := exec_addsKinds hx
    rw [commandEvents_of_exec hd hx htrace]
    exact fun p w hw => hreads p w (htrace ▸ List.mem_append_right _ hw)

theorem inv_resetDuring {s : State} (c : BitVec 96) (n : Nat) (hs : s.Inv) : (resetDuring c n s).Inv := by
  have hevents := wordReadsAligned_commandEvents c hs
  obtain ⟨hmem, hfault, hresponses, hreads⟩ := hs
  refine inv_hardwareReset ⟨hmem, hfault, hresponses, fun p w hw => ?_⟩
  rcases List.mem_append.mp hw with hw | hw
  · exact hreads p w hw
  · exact hevents p w (List.mem_of_mem_take hw)

theorem inv_setByte {s : State} (a : Addr) (v : Option Byte) (hs : s.Inv) : (setByte a v s).Inv := by
  obtain ⟨hmem, hrest⟩ := hs
  exact ⟨wf_set hmem a.isLt, hrest⟩

/-- The next state of a step on an engine request is that of its operation. -/
theorem exec_of_engineStep {r : BitVec 34} {rest : List Input} {s t : State} (he : engineStep r rest s)
    (h : step s = .next t) : ∃ i, exec i { s with inputs := rest } = .next t := by
  rcases he with ⟨i, -, -, e⟩ | ⟨-, -, -, e⟩ | ⟨-, -, e⟩
  · exact ⟨i, e.symm.trans h⟩
  · exact nomatch e.symm.trans h
  · exact nomatch e.symm.trans h

/-- Every next state of a step: held, or after an operation, an illegal descriptor, a reset or a change of memory. -/
theorem step_next_cases {s t : State} (h : step s = .next t) :
    t = s ∨
    (∃ i rest, exec i { s with inputs := rest } = .next t) ∨
    (∃ c rest, t = illegalCommand c { s with inputs := rest }) ∨
    (∃ rest, s.inputs = .hardwareReset :: rest ∧ t = hardwareReset { s with inputs := rest }) ∨
    (∃ c n rest, s.inputs = .resetDuring c n :: rest ∧ t = resetDuring c n { s with inputs := rest }) ∨
    (∃ a v rest, t = setByte a v { s with inputs := rest }) := by
  have answer {u : State} (e : step s = .next u) : t = u := Host.Outcome.next.inj (h.symm.trans e)
  rcases step_cases s with ⟨-, e⟩ | ⟨c, rest, -, ⟨i, -, e⟩ | ⟨-, -, e⟩⟩ | ⟨r, rest, -, he⟩ |
    ⟨l, d, rest, -, ⟨i, -, e⟩ | ⟨-, -, e⟩⟩ | ⟨r, rest, -, ⟨-, e⟩ | ⟨-, he⟩⟩ | ⟨rest, hin, e⟩ |
    ⟨c, n, rest, hin, e⟩ | ⟨a, v, rest, -, e⟩
  · exact .inl (answer e)
  · exact .inr (.inl ⟨i, rest, e.symm.trans h⟩)
  · exact .inr (.inr (.inl ⟨c, rest, answer e⟩))
  · obtain ⟨i, hx⟩ := exec_of_engineStep he h
    exact .inr (.inl ⟨i, rest, hx⟩)
  · exact .inr (.inl ⟨i, rest, e.symm.trans h⟩)
  · exact nomatch e.symm.trans h
  · exact nomatch e.symm.trans h
  · obtain ⟨i, hx⟩ := exec_of_engineStep he h
    exact .inr (.inl ⟨i, rest, hx⟩)
  · exact .inr (.inr (.inr (.inl ⟨rest, hin, answer e⟩)))
  · exact .inr (.inr (.inr (.inr (.inl ⟨c, n, rest, hin, answer e⟩))))
  · exact .inr (.inr (.inr (.inr (.inr ⟨a, v, rest, answer e⟩))))

theorem inv_step {s t : State} (hs : s.Inv) (h : step s = .next t) : t.Inv := by
  have taken (rest : List Input) : State.Inv { s with inputs := rest } := hs
  rcases step_next_cases h with rfl | ⟨i, rest, hx⟩ | ⟨c, rest, rfl⟩ | ⟨rest, -, rfl⟩ | ⟨c, n, rest, -, rfl⟩ |
    ⟨a, v, rest, rfl⟩
  · exact hs
  · exact inv_exec (taken rest) hx
  · exact inv_illegalCommand c (taken rest)
  · exact inv_hardwareReset (taken rest)
  · exact inv_resetDuring c n (taken rest)
  · exact inv_setByte a v (taken rest)

/-- Settles O16: each part of the invariant through the operation or the event that the step takes; `FAULT` is the code
of a recorded fault, and these are at most 4. -/
theorem stepKeepsInvariant : Obligations.StepKeepsInvariant := by
  intro s t hs h
  have ht := inv_step hs h
  refine ⟨ht, ?_⟩
  obtain ⟨-, hfault, -⟩ := ht
  rw [hfault]
  exact toNat_recordedCode_le _

end Sys2Proof.Machine
end

section
/-! PROOFS. A PROCESS that raises `BusFault` (spec/60_exceptions.md R123, R125, R128): it leaves the registers of a PROCESS
over the front of its buffer, the bytes of the pieces completed before the fault. -/

namespace Sys2Proof.Machine

/-! ## The front of a buffer -/

theorem bufferBytes_take {m : Memory} {a n k : Nat} {bs : List Byte} (h : bufferBytes m a n = some bs)
    (hk : k ≤ n) : bufferBytes m a k = some (bs.take k) := by
  obtain ⟨d, rfl⟩ := Nat.exists_eq_add_of_le hk
  obtain ⟨xs, ys, rfl, hxs, -⟩ := bufferBytes_split h
  rw [List.take_left' (length_of_bufferBytes hxs), hxs]

/-- What is folded before a fault is nothing, or the lead and some words, and ends at or before the faulting byte. -/
theorem foldedBefore_cases (addr : Addr) (len : Len) (j : Nat) :
    foldedBefore addr len j ≤ j ∧ (foldedBefore addr len j = 0 ∨
      ∃ q ≤ (splitBuffer addr len).words, foldedBefore addr len j = (splitBuffer addr len).lead.val + 4 * q) := by
  by_cases hlead : j < (splitBuffer addr len).lead.val
  · have hfolded : foldedBefore addr len j = 0 := if_pos hlead
    exact ⟨by omega, .inl hfolded⟩
  obtain ⟨i, rfl⟩ := Nat.exists_eq_add_of_le (Nat.le_of_not_lt hlead)
  by_cases hwords : i < 4 * (splitBuffer addr len).words
  · rw [foldedBefore_inWords addr len hwords]
    exact ⟨by omega, .inr ⟨i / 4, by omega, rfl⟩⟩
  · obtain ⟨k, rfl⟩ := Nat.exists_eq_add_of_le (Nat.le_of_not_lt hwords)
    rw [foldedBefore_inTail]
    exact ⟨by omega, .inr ⟨_, Nat.le_refl _, rfl⟩⟩

/-- The front of a buffer has no tail (R103). -/
theorem splitBuffer_front_tail {addr : Addr} {len : Len} {q : Nat} (hq : q ≤ (splitBuffer addr len).words) :
    (splitBuffer addr (BitVec.ofNat 32 ((splitBuffer addr len).lead.val + 4 * q))).tail.val = 0 := by
  obtain ⟨hlead, hwords⟩ := splitBuffer_front hq
  have hsum := splitBuffer_sum addr len
  have hfront := splitBuffer_sum addr (BitVec.ofNat 32 ((splitBuffer addr len).lead.val + 4 * q))
  have hlen := len.isLt
  rw [hlead, hwords, BitVec.toNat_ofNat, Nat.mod_eq_of_lt (by omega)] at hfront
  omega

/-! ## The registers at the fault -/

/-- A part that runs the micro-operations of a PROCESS leaves its registers. -/
theorem process_registers {addr : Addr} {len : Len} {xs : List Byte} {ks : List EventKind} {s t : State}
    (hs : s.fault = 0) (hp : s.phase = .OPEN) (hxs : bufferHolds s.mem addr len xs)
    (h : runsPart (processOps addr len xs) ks s t) :
    ∃ u, exec (.process addr len) s = .next u ∧ t.reg = u.reg ∧ t.corr = u.corr := by
  obtain ⟨completed, -⟩ := processRunsItsMicroOperations
  obtain ⟨u, v, -, hexec, hops, ureg, ucorr, -⟩ := completed s addr len xs hs hp hxs
  obtain ⟨v', -, hops', treg, tcorr, -⟩ := execAll_of_runsPart h
  obtain rfl := Host.Outcome.next.inj (hops.symm.trans hops')
  exact ⟨u, hexec, treg.trans ureg.symm, tcorr.trans ucorr.symm⟩

/-- `REG` and `CORR` at the fault, by what was folded before it: nothing, the lead alone, or words. -/
theorem registers_at_fault {addr : Addr} {len : Len} {j : Nat} {bs : List Byte} {ks : List EventKind} {s t : State}
    (hs : s.fault = 0) (hp : s.phase = .OPEN) (hle : addr.toNat + len.toNat ≤ 2 ^ 32) (hj : j < len.toNat)
    (hbs : bufferBytes s.mem addr.toNat j = some bs)
    (h : runsPart (processOps addr (BitVec.ofNat 32 (foldedBefore addr len j)) (bs.take (foldedBefore addr len j)))
      ks s t) :
    t.reg ^^^ t.corr = crcBytes (s.reg ^^^ s.corr) (bs.take (foldedBefore addr len j)) ∧
      (foldedBefore addr len j = 0 → t.corr = s.corr ∧ t.reg = s.reg) ∧
      (0 < foldedBefore addr len j → foldedBefore addr len j = (splitBuffer addr len).lead.val →
        t.corr = (s.reg ^^^ s.corr) <<< (8 * (splitBuffer addr len).lead.val)) ∧
      ((splitBuffer addr len).lead.val < foldedBefore addr len j → t.corr = 0) := by
  obtain ⟨hfolded, hcases⟩ := foldedBefore_cases addr len j
  have hlen := len.isLt
  generalize foldedBefore addr len j = n at *
  have hn : (BitVec.ofNat 32 n).toNat = n := Nat.mod_eq_of_lt (by omega)
  have hfront : bufferHolds s.mem addr (BitVec.ofNat 32 n) (bs.take n) :=
    ⟨by omega, by rw [hn]; exact bufferBytes_take hbs hfolded⟩
  obtain ⟨u, hexec, hreg, hcorr⟩ := process_registers hs hp hfront h
  obtain ⟨u', hexec', hcrc, hnone, hwords, -, hlead, -⟩ := processNetEffect s addr _ _ hs hp hfront
  obtain rfl := Host.Outcome.next.inj (hexec.symm.trans hexec')
  rw [hreg, hcorr]
  refine ⟨hcrc, ?_, fun hpos hn' => ?_, fun hlt => ?_⟩
  · rintro rfl
    have hkept := hnone rfl
    rw [hkept] at hcrc
    exact ⟨hkept, (BitVec.xor_left_inj _).mp hcrc⟩
  · obtain ⟨q, hq, rfl⟩ := hcases.resolve_left hpos.ne'
    obtain ⟨flead, fwords⟩ := splitBuffer_front hq
    have hq0 : q = 0 := by omega
    rw [flead] at hlead
    exact hlead (fwords.trans hq0) (splitBuffer_front_tail hq) (by omega)
  · obtain ⟨q, hq, rfl⟩ := hcases.resolve_left (by omega)
    obtain ⟨-, fwords⟩ := splitBuffer_front hq
    exact hwords (splitBuffer_front_tail hq) (by omega)

/-! ## The reads before the fault -/

/-- A PROCESS reads no address at or past an unreadable one, since what it reads is readable and without a gap. -/
theorem reads_below_unreadable {addr : Addr} {len : Len} {j : Nat} {s : State} {es : List Event}
    (hle : addr.toNat + len.toNat ≤ 2 ^ 32) (hnone : Memory.lookup s.mem (addr.toNat + j) = none)
    (hes : (accessState (processBuffer addr len s)).trace = s.trace ++ es) :
    ∀ e ∈ es, ∀ a ∈ eventAddresses e, a < addr.toNat + j := by
  obtain ⟨n, -, -, es', hes', hread⟩ := readsUpTo_processBuffer s hle
  obtain rfl : es = es' := List.append_cancel_left (hes.symm.trans hes')
  have hn : n ≤ j := by
    by_contra hlt
    obtain ⟨b, hb⟩ := lookup_of_bufferBytes (bufferBytes_of_readsInOrder hread) (Nat.lt_of_not_le hlt)
    exact nomatch hnone.symm.trans hb
  obtain ⟨haddr, -⟩ := hread
  intro e he a ha
  have hmem : a ∈ List.range' addr.toNat n := haddr ▸ List.mem_flatMap.mpr ⟨e, he, ha⟩
  rw [List.mem_range'_1] at hmem
  omega

/-- Settles O46: the registers are those of a PROCESS over the front of the buffer, the events those of the pieces before
the fault and of the byte reads of its own piece. -/
theorem busFaultRaised : Obligations.BusFaultRaised := by
  intro s addr len j bs hs hp hle hj hbs hnone
  obtain ⟨t, hx, hpart⟩ := processBuffer_faults hle hj hbs hnone
  obtain ⟨hcrc, hnothing, hlead, hwords⟩ := registers_at_fault hs hp hle hj hbs hpart
  have hkeeps := keepsSurround_processBuffer addr len s
  have hbelow (es : List Event) := reads_below_unreadable (es := es) hle hnone
  rw [hx] at hkeeps hbelow
  obtain ⟨hphase, -, -, hmem, hinputs, hresponses, hfresh, -⟩ := hkeeps
  obtain ⟨es, htrace, hkinds, hreplay, hanswers, -⟩ := hpart
  exact ⟨raise _ t, es, process_stops hs hp hle hx, rfl, rfl, congrArg (· ++ [_]) hresponses, hcrc, hphase.trans hp,
    hmem, hinputs, hfresh, hnothing, hlead, hwords, htrace, hkinds, hreplay, hanswers, hbelow es htrace⟩

end Sys2Proof.Machine
end

section
/-! PROOFS. The faults a host command raises and the order of its checks (spec/60_exceptions.md R121, R122, R124, R126,
R127), and the idle step (R135). -/

namespace Sys2Proof.Machine

/-- Settles O10: with an empty queue the fetch settles on the state itself. -/
theorem idleHoldsState : Obligations.IdleHoldsState := fun _ h => step_of_idle h

/-! ## ProtocolViolation -/

/-- FINISH with no open session (R121). -/
theorem exec_finish_closed {s : State} (hs : s.fault = 0) (hp : s.phase = .CLOSED) :
    exec .finish s = .next (raise (.protocolViolation .finish) s) :=
  congrArg Host.Outcome.next ((hostCommand_of_noFault hs).trans (if_pos hp))

/-- Settles O36: the phase check stands first in PROCESS and FINISH, and START has none. -/
theorem protocolViolationRaised : Obligations.ProtocolViolationRaised := by
  refine ⟨fun s addr len hs hp => exec_process_closed addr len hs hp, fun s hs hp => exec_finish_closed hs hp,
    fun s seed hs => ?_⟩
  obtain ⟨hexec, -⟩ := startResult s seed hs
  exact ⟨_, hexec, hs, rfl⟩

/-! ## BufferRange -/

/-- PROCESS past the top of the address space (R124). -/
theorem exec_process_pastTop {s : State} {addr : Addr} {len : Len} (hs : s.fault = 0) (hp : s.phase = .OPEN)
    (hr : 2 ^ 32 < addr.toNat + len.toNat) :
    exec (.process addr len) s = .next (raise (.bufferRange addr len) s) := by
  rcases processBody_cases addr len s with ⟨hc, -⟩ | ⟨-, -, e⟩ | ⟨-, hle, -⟩
  · exact nomatch hp.symm.trans hc
  · exact congrArg Host.Outcome.next ((hostCommand_of_noFault hs).trans e)
  · exact absurd hr (Nat.not_lt_of_le hle)

/-- A stretch of memory is readable, or has a first unreadable byte. -/
theorem bufferBytes_or_unreadable (m : Memory) (a n : Nat) :
    (∃ bs, bufferBytes m a n = some bs) ∨
      ∃ j < n, ∃ bs, bufferBytes m a j = some bs ∧ Memory.lookup m (a + j) = none := by
  induction n with
  | zero => exact .inl ⟨[], rfl⟩
  | succ n ih =>
    rcases ih with ⟨bs, hbs⟩ | ⟨j, hj, hfirst⟩
    · cases hb : Memory.lookup m (a + n) with
      | none => exact .inr ⟨n, Nat.lt_succ_self n, bs, hbs, hb⟩
      | some b => exact .inl ⟨bs ++ [b], bufferBytes_append hbs (bufferBytes_one hb)⟩
    · exact .inr ⟨j, Nat.lt_succ_of_lt hj, hfirst⟩

/-- The code after a PROCESS on a buffer inside the address space: 2 with no open session, else 0, or 4 where a byte is
unreadable. -/
theorem fault_process_inRange {s t : State} {addr : Addr} {len : Len} (hs : s.fault = 0)
    (hle : addr.toNat + len.toNat ≤ 2 ^ 32) (h : exec (.process addr len) s = .next t) :
    t.fault = 2 ∨ t.fault = 0 ∨ t.fault = 4 := by
  have answer {u : State} (hu : exec (.process addr len) s = .next u) : t = u :=
    Host.Outcome.next.inj (h.symm.trans hu)
  cases hp : s.phase with
  | CLOSED =>
    obtain rfl := answer (exec_process_closed addr len hs hp)
    exact .inl rfl
  | OPEN =>
    rcases bufferBytes_or_unreadable s.mem addr.toNat len.toNat with ⟨bs, hbs⟩ | ⟨j, hj, bs, hbs, hnone⟩
    · obtain ⟨u, hu, -, -, -, -, -, -, ufault, -⟩ := processNetEffect s addr len bs hs hp ⟨hle, hbs⟩
      exact .inr (.inl (answer hu ▸ ufault))
    · obtain ⟨u, -, hu, ufault, -⟩ := busFaultRaised s addr len j bs hs hp hle hj hbs hnone
      exact .inr (.inr (answer hu ▸ ufault))

/-- Settles O37: past the top the range check decides; a buffer that ends at the top, or an empty one, passes it. -/
theorem bufferRangeRaised : Obligations.BufferRangeRaised := by
  refine ⟨fun s addr len => exec_process_pastTop, fun s t addr len hs hrange h => ?_⟩
  have hle : addr.toNat + len.toNat ≤ 2 ^ 32 := by
    rcases hrange with htop | rfl
    · exact htop.le
    · exact addr.isLt.le
  rcases fault_process_inRange hs hle h with e | e | e <;> rw [e] <;> decide

/-! ## IllegalCommand -/

theorem decodeCommand_illegal {c : BitVec 96} (h : ∀ i, decodeCommand c ≠ .ok i) :
    ∃ e, decodeCommand c = .error e := by
  cases hd : decodeCommand c with
  | error e => exact ⟨e, rfl⟩
  | ok i => exact absurd hd (h i)

/-- The step on a descriptor that does not decode. -/
theorem step_of_reject {s : State} {c : BitVec 96} {e : Reject} {rest : List Input}
    (hin : s.inputs = .port (.command c) :: rest) (hd : decodeCommand c = .error e) :
    step s = .next (illegalCommand c { s with inputs := rest }) :=
  step_of_fetch_settled ((fetch_of_inputs hin).trans (fetchCommand_of_reject _ hd))

/-- Settles O48: the fetch answers an illegal descriptor, and with no fault recorded the answer is the fault entry. -/
theorem illegalCommandRaised : Obligations.IllegalCommandRaised := by
  intro s c rest hin hs hillegal
  obtain ⟨e, hd⟩ := decodeCommand_illegal hillegal
  exact (step_of_reject hin hd).trans (congrArg Host.Outcome.next (hostCommand_of_noFault hs))

/-! ## The sticky fault -/

/-- While a fault is recorded the prologue answers for every body (R126 step 1). -/
theorem hostCommand_of_fault {body : State → State} {s : State} (hs : s.fault ≠ 0) :
    hostCommand body s = stickyResponse s := if_pos hs

theorem exec_of_fault {i : Instr} {s : State} (hi : isHostCommand i = true) (hs : s.fault ≠ 0) :
    exec i s = .next (stickyResponse s) := by
  cases i with
  | start seed => exact congrArg Host.Outcome.next (hostCommand_of_fault hs)
  | process addr len => exact congrArg Host.Outcome.next (hostCommand_of_fault hs)
  | finish => exact congrArg Host.Outcome.next (hostCommand_of_fault hs)
  | _ => exact nomatch hi

/-- An operation writes `FAULT` only where none is recorded (R10, R127). -/
theorem exec_keeps_fault {i : Instr} {s t : State} (hs : s.fault ≠ 0) (h : exec i s = .next t) :
    t.fault = s.fault ∧ t.faultInfo = s.faultInfo := by
  obtain ⟨-, -, -, hwriters, -⟩ := registersWrittenOnlyByTheirWriters i s t h
  by_contra hne
  obtain ⟨-, hs0⟩ := hwriters (not_and_or.mp hne)
  exact hs hs0

/-- Settles O49: the prologue answers every host command, and of what else a step can take only a hardware reset
writes `FAULT`. -/
theorem faultIsSticky : Obligations.FaultIsSticky := by
  refine ⟨fun i s => exec_of_fault, fun s t hs h hreset => ?_⟩
  rcases step_next_cases h with rfl | ⟨i, rest, hx⟩ | ⟨c, rest, rfl⟩ | ⟨rest, hin, -⟩ | ⟨c, n, rest, hin, -⟩ |
    ⟨a, v, rest, rfl⟩
  · exact ⟨rfl, rfl⟩
  · exact exec_keeps_fault (s := { s with inputs := rest }) hs hx
  · rw [illegalCommand, hostCommand_of_fault (s := { s with inputs := rest }) hs]
    exact ⟨rfl, rfl⟩
  · exact nomatch hreset _ rest hin
  · exact nomatch hreset _ rest hin
  · exact ⟨rfl, rfl⟩

/-! ## The order of R126 -/

/-- A descriptor decodes to a host command only. -/
theorem isHostCommand_of_decodeCommand {c : BitVec 96} {i : Instr} (hd : decodeCommand c = .ok i) :
    isHostCommand i = true := by
  rcases decodeCommand_ok hd with ⟨-, -, -, rfl⟩ | ⟨-, -, rfl⟩ | ⟨-, -, -, -, rfl⟩ <;> rfl

section
variable {s : State} {c : BitVec 96} {rest : List Input} (hin : s.inputs = .port (.command c) :: rest)
include hin

/-- The step on a descriptor that decodes. -/
theorem step_of_decodeCommand {i : Instr} (hd : decodeCommand c = .ok i) :
    step s = exec i { s with inputs := rest } :=
  stepRunsDecodedOperation s (.command c) rest i hin hd nofun

/-- The sticky fault comes before the descriptor (R126 step 1). -/
theorem step_command_of_fault (hs : s.fault ≠ 0) :
    step s = .next (stickyResponse { s with inputs := rest }) := by
  cases hd : decodeCommand c with
  | ok i => exact (step_of_decodeCommand hin hd).trans (exec_of_fault (isHostCommand_of_decodeCommand hd) hs)
  | error e => exact (step_of_reject hin hd).trans (congrArg Host.Outcome.next (hostCommand_of_fault hs))

variable (hs : s.fault = 0)
include hs

/-- Every command but START needs an open session (R126 step 3). -/
theorem step_command_closed {i : Instr} (hd : decodeCommand c = .ok i) (hi : i.mnemonic ≠ .start)
    (hp : s.phase = .CLOSED) :
    step s = .next (raise (.protocolViolation i.mnemonic) { s with inputs := rest }) := by
  rw [step_of_decodeCommand hin hd]
  rcases decodeCommand_ok hd with ⟨-, -, -, rfl⟩ | ⟨-, -, rfl⟩ | ⟨-, -, -, -, rfl⟩
  · exact absurd rfl hi
  · exact exec_process_closed _ _ hs hp
  · exact exec_finish_closed hs hp

/-- A PROCESS that passes every check ends by whether its buffer is readable (R126 steps 5 and 6). -/
theorem step_process_inRange {addr : Addr} {len : Len} (hd : decodeCommand c = .ok (.process addr len))
    (hp : s.phase = .OPEN) (hle : addr.toNat + len.toNat ≤ 2 ^ 32) :
    ∃ t, step s = .next t ∧
      (∀ bs, bufferBytes s.mem addr.toNat len.toNat = some bs →
        t.fault = 0 ∧ t.responses = s.responses ++ [⟨0, 0⟩]) ∧
      (∀ j bs, j < len.toNat → bufferBytes s.mem addr.toNat j = some bs →
        Memory.lookup s.mem (addr.toNat + j) = none →
        t.fault = 4 ∧ t.faultInfo = some (.busFault (addr + BitVec.ofNat 32 j)) ∧
        t.responses = s.responses ++ [⟨4, 0⟩]) := by
  obtain ⟨t, ht⟩ := exec_answers (.process addr len) { s with inputs := rest }
  refine ⟨t, (step_of_decodeCommand hin hd).trans ht, fun bs hbs => ?_, fun j bs hj hbs hnone => ?_⟩
  · obtain ⟨u, hu, -, -, -, -, -, -, hfault, -, -, -, -, hresponses⟩ :=
      processNetEffect { s with inputs := rest } addr len bs hs hp ⟨hle, hbs⟩
    obtain rfl := Host.Outcome.next.inj (ht.symm.trans hu)
    exact ⟨hfault, hresponses⟩
  · obtain ⟨u, -, hu, hfault, hinfo, hresponses, -⟩ :=
      busFaultRaised { s with inputs := rest } addr len j bs hs hp hle hj hbs hnone
    obtain rfl := Host.Outcome.next.inj (ht.symm.trans hu)
    exact ⟨hfault, hinfo, hresponses⟩

/-- START, and FINISH in an open session, complete (R126 step 5). -/
theorem step_command_completes {i : Instr} (hd : decodeCommand c = .ok i)
    (hi : i.mnemonic = .start ∨ i.mnemonic = .finish ∧ s.phase = .OPEN) :
    ∃ t v, step s = .next t ∧ t.fault = 0 ∧ t.responses = s.responses ++ [⟨0, v⟩] := by
  rw [step_of_decodeCommand hin hd]
  rcases decodeCommand_ok hd with ⟨-, -, -, rfl⟩ | ⟨-, -, rfl⟩ | ⟨-, -, -, -, rfl⟩
  · obtain ⟨hexec, -⟩ := startResult { s with inputs := rest } (cmdA c) hs
    exact ⟨_, 0, hexec, hs, rfl⟩
  · rcases hi with hi | ⟨hi, -⟩ <;> exact nomatch hi
  · obtain ⟨-, hp⟩ := hi.resolve_left nofun
    exact ⟨_, _, finishResult { s with inputs := rest } hs hp, hs, rfl⟩

end

/-- Settles O50: one lemma for each step of R126. -/
theorem commandPriority : Obligations.CommandPriority := by
  intro s c rest hin
  refine ⟨step_command_of_fault hin, illegalCommandRaised s c rest hin, fun hs i hd hi hp => ?_,
    fun hs addr len hd hp hr => ?_, fun hs addr len hd hp hle => ?_, fun hs i hd hi => ?_⟩
  · exact step_command_closed hin hs hd hi hp
  · exact (step_of_decodeCommand hin hd).trans (exec_process_pastTop hs hp hr)
  · exact step_process_inRange hin hs hd hp hle
  · exact step_command_completes hin hs hd hi

end Sys2Proof.Machine
end

section
/-! PROOFS. Hardware reset and the moves of the platform and of other agents (spec/70_reset_and_hazards.md R140, R142,
R146 to R148): each is what the fetch settles, and none but the reset touches `CORR`. -/

namespace Sys2Proof.Machine

/-! ## The writers of CORR over all steps -/

/-- An engine request runs no operation that changes `CORR` (R74 to R76). -/
theorem corr_engineRequest {r : BitVec 34} {i : Instr} {s t : State} (hd : decodeEngine r = .ok i)
    (h : exec i s = .next t) : t.corr = s.corr := by
  rcases decodeEngine_ok hd with ⟨-, rfl⟩ | ⟨-, rfl⟩ | ⟨-, rfl⟩ <;>
    obtain rfl := Host.Outcome.next.inj h <;> rfl

/-- A step on an engine request, the block's or another agent's, leaves `CORR` (R147). -/
theorem corr_engineStep {r : BitVec 34} {rest : List Input} {s t : State} (he : engineStep r rest s)
    (h : step s = .next t) : t.corr = s.corr := by
  rcases he with ⟨i, hd, -, e⟩ | ⟨-, -, -, e⟩ | ⟨-, -, e⟩
  · exact corr_engineRequest (s := { s with inputs := rest }) hd (e.symm.trans h)
  · exact nomatch e.symm.trans h
  · exact nomatch e.symm.trans h

/-- An illegal descriptor leaves `CORR`, whether it is reported or a sticky fault is (R122, R126). -/
theorem illegalCommand_corr (c : BitVec 96) (s : State) : (illegalCommand c s).corr = s.corr := by
  rw [illegalCommand]
  rcases hostCommand_cases (raise (.illegalCommand c)) s with ⟨-, e⟩ | ⟨-, e⟩ <;> rw [e]
  · exact stickyResponse_corr s
  · exact raise_corr _ s

/-- Settles O52: a decoded operation writes `CORR` only as R10 says; idling, an illegal descriptor, an engine request
and a change of memory leave it. -/
theorem soleMutatorsOfCorr : Obligations.SoleMutatorsOfCorr := by
  intro s t h hc
  have kept {u : State} (e : step s = .next u) (hu : u.corr = s.corr) : False :=
    hc (Host.Outcome.next.inj (h.symm.trans e) ▸ hu)
  rcases step_cases s with ⟨-, e⟩ | ⟨c, rest, hin, ⟨i, hd, e⟩ | ⟨-, -, e⟩⟩ | ⟨r, rest, -, he⟩ |
    ⟨l, d, rest, hin, ⟨i, hd, e⟩ | ⟨-, -, e⟩⟩ | ⟨r, rest, -, ⟨-, e⟩ | ⟨-, he⟩⟩ | ⟨rest, hin, -⟩ |
    ⟨c, n, rest, hin, -⟩ | ⟨a, v, rest, -, e⟩
  · exact (kept e rfl).elim
  · exact ⟨_, rest, hin, .inr ⟨.command c, i, rfl, hd, corr_writers (e.symm.trans h) hc⟩⟩
  · exact (kept e (illegalCommand_corr c _)).elim
  · exact absurd (corr_engineStep he h) hc
  · exact ⟨_, rest, hin, .inr ⟨.microOp l d, i, rfl, hd, corr_writers (e.symm.trans h) hc⟩⟩
  · exact nomatch e.symm.trans h
  · exact nomatch e.symm.trans h
  · exact absurd (corr_engineStep he h) hc
  · exact ⟨_, rest, hin, .inl rfl⟩
  · exact ⟨_, rest, hin, .inl rfl⟩
  · exact (kept e (setByte_corr a v _)).elim

/-! ## Another agent's request -/

/-- Settles O8: the fetch of such a request branches on `PHASE`, and while it is `CLOSED` is the engine's own. -/
theorem foreignRequestMovesOnlyWhileClosed : Obligations.ForeignRequestMovesOnlyWhileClosed := by
  intro s r rest hin
  have hf := fetch_of_inputs hin
  refine ⟨fun hopen => step_of_fetch_settled (hf.trans (if_pos hopen)), fun hclosed hw i hd => ?_⟩
  have hengine : fetch s = fetchEngine r { s with inputs := rest } :=
    hf.trans (if_neg (hclosed ▸ Phase.noConfusion))
  exact step_of_fetch_run (hengine.trans (fetchEngine_of_decode _ hd hw))

/-! ## Hardware reset -/

/-- Settles O13: the fetch settles on the state after the reset. -/
theorem hardwareResetEvent : Obligations.HardwareResetEvent := fun _ _ hin =>
  ⟨_, step_of_fetch_settled (fetch_of_inputs hin), hardwareReset_phase _, hardwareReset_fault _,
    hardwareReset_faultInfo _, hardwareReset_inputs _, hardwareReset_trace _, hardwareReset_responses _,
    fun _ => rfl⟩

/-- A command that decodes adds its events to the trace when nothing abandons it (R107). -/
theorem exec_adds_commandEvents {c : BitVec 96} {i : Instr} (hd : decodeCommand c = .ok i) (s : State) :
    ∃ t, exec i s = .next t ∧ t.trace = s.trace ++ commandEvents c s := by
  obtain ⟨t, hx⟩ := exec_answers i s
  obtain ⟨es, htrace, -⟩ := exec_addsKinds hx
  exact ⟨t, hx, (commandEvents_of_exec hd hx htrace).symm ▸ htrace⟩

/-- An illegal descriptor puts nothing on the ports (R122). -/
theorem commandEvents_of_reject {c : BitVec 96} {e : Reject} (s : State) (hd : decodeCommand c = .error e) :
    commandEvents c s = [] := by
  simp only [commandEvents, hd]

/-- Settles O14: the reset keeps a front of the command's events, those that `exec` adds to the trace. -/
theorem hardwareResetDuringCommand : Obligations.HardwareResetDuringCommand := by
  intro s c n rest hin
  refine ⟨_, commandEvents c { s with inputs := rest }, step_of_fetch_settled (fetch_of_inputs hin),
    hardwareReset_phase _, hardwareReset_fault _, hardwareReset_faultInfo _, hardwareReset_inputs _,
    hardwareReset_responses _, hardwareReset_trace _, fun i hd => exec_adds_commandEvents hd _,
    fun hillegal => ?_, fun _ => rfl⟩
  obtain ⟨e, hd⟩ := decodeCommand_illegal hillegal
  exact commandEvents_of_reject _ hd

/-! ## The platform's change of memory -/

/-- Settles O17: the change is one `Memory.set`, which looked up elsewhere gives what was there. -/
theorem platformChangesOneByte : Obligations.PlatformChangesOneByte := by
  intro s a v rest hin
  refine ⟨_, step_of_fetch_settled (fetch_of_inputs hin), ?_, fun b hb => ?_, rfl⟩
  · exact (lookup_set s.mem a.toNat v a.toNat).trans (if_pos rfl)
  · exact (lookup_set s.mem a.toNat v b).trans (if_neg hb.symm)

end Sys2Proof.Machine
end
